-- ==== Sys2Proof/Word.lean ====
section
/-! DEFINITION. The word types of the block (00_scope.md R7, R14, R16): bit 0 is the least significant bit, every value is
unsigned. -/

namespace Sys2Proof

/-- A command word, a response word or a scanline-buffer word: 32 bits (R7, R100, R103). -/
abbrev Word := BitVec 32
/-- A canvas byte: 8 bits (20_memory.md R63). -/
abbrev Byte := BitVec 8
/-- A 16-bit RGB565 colour (R7, 41_tmds_encoding.md R161). -/
abbrev Colour := BitVec 16
/-- A palette index: 8 bits (R7). -/
abbrev PalIndex := BitVec 8
/-- A 10-bit TMDS symbol (R7). -/
abbrev Symbol := BitVec 10
/-- An index of the TMDS table: 6 bits (R7). -/
abbrev LutIndex := BitVec 6
/-- A scanline-buffer handle. Its type is an OPEN parameter (R14, D26) and handles are only compared (20_memory.md R61), so a handle is a
number; `Config.handleBits` says which numbers the type has (notes/assumptions/29.md). -/
abbrev Handle := Nat
/-- An array with one element per palette index (20_memory.md R60). -/
abbrev PalArray (α : Type) := Vector α 256

end Sys2Proof
end

