-- ==== Sys2Proof/Config.lean ====
section
/-! DEFINITION. The parameters of the block (00_scope.md R9 to R14, 92_eei_decisions.md section 7): plain data, fixed at
construction. Their constraints are `Config.wf` in WellFormed.lean. -/

namespace Sys2Proof

/-- The three colour components, one per channel segment (20_memory.md R64). -/
inductive Channel where
  | red | green | blue
deriving DecidableEq, Repr

/-- `SEGORDER` (R13): the channels of segments 0, 1, 2. A bijection by construction: these are the six permutations. -/
inductive SegOrder where
  | rgb | rbg | grb | gbr | brg | bgr
deriving DecidableEq, Repr

/-- The parameters of one instance of the block (R10, R12, R13, R14; D9). -/
structure Config where
  /-- `A`, `activePixelWidth` (R10). -/
  activeWidth : Nat
  /-- `ALC`, `activeLineCount` (R10). -/
  activeLines : Nat
  /-- `SPW`, `symbolsPerWord` (R10). -/
  symbolsPerWord : Nat
  /-- `VREP`, the vertical repeat factor (R10). -/
  vrep : Nat
  /-- `CW`, the canvas width in pixels (R12). -/
  canvasWidth : Nat
  /-- `CH`, the canvas height in rows (R12). -/
  canvasHeight : Nat
  /-- `TMDS_LUT` (R13, R160): 64 symbols. -/
  tmdsLut : Vector Symbol 64
  /-- `STD16` (R13, R27): the sixteen standard colours. -/
  std16 : Vector Colour 16
  /-- `SEGORDER` (R13). -/
  segOrder : SegOrder
  /-- The width of the type `Handle` (R14, D26; default 32): a handle is a number below `2 ^ handleBits`. -/
  handleBits : Nat
  /-- `BLANK_HANDLE` (R14). -/
  blankHandle : Handle
  /-- `POOL` (R14). -/
  pool : List Handle
  /-- `QF_CAP` (R14). -/
  qfCap : Nat
  /-- `QR_CAP` (R14). -/
  qrCap : Nat
  /-- `PS_COUNT_SATURATES` (D9, U1): the alternative reading of the last-slot overwrite; its default is false. -/
  psCountSaturates : Bool
deriving DecidableEq, Repr

/-- FREE VALUE (R160, D8): the contents of the TMDS table of the machine after reset. No body: nothing can be proved of a
symbol (notes/assumptions/3.md). -/
opaque Config.freeTmdsSymbol : LutIndex → Symbol

end Sys2Proof
end

