-- ==== Sys2Proof/Syntax.lean ====
section
/-! DEFINITION. The sixteen instructions: the seven host commands (30_encoding.md R102) and the nine sequencer phases
(30_encoding.md R110), one constructor per row of spec/opcode_table.json, and the two position types of the sequencer. -/

namespace Sys2Proof

/-- The instructions. Each operand has the width its encoding gives it (R104). -/
inductive Instr where
  /-- `COL2IDX c` (R130). -/
  | col2idx (c : Colour)
  /-- `PALRESET` (R136). -/
  | palreset
  /-- `INVERT f` (R139). -/
  | invert (f : Bool)
  /-- `IDX2COL i` (R142). -/
  | idx2col (i : PalIndex)
  /-- `SGSTART` (R230). -/
  | sgstart
  /-- `SGSTOP` (R231). -/
  | sgstop
  /-- `RDSTAT` (R232). -/
  | rdstat
  /-- Phase `IDLE` (R176). -/
  | idle
  /-- Phase `POLL` (R177). -/
  | poll
  /-- Phase `WAITFREE` (R179). -/
  | waitfree
  /-- Phase `FILL` (R182). -/
  | fill
  /-- Phase `RETFREE` (R190). -/
  | retfree
  /-- Phase `EMITA` (R210). -/
  | emita
  /-- Phase `EMITB` (R211). -/
  | emitb
  /-- Phase `ADV` (R212). -/
  | adv
  /-- Phase `HALT` (R178). -/
  | halt
deriving DecidableEq, Repr

/-- The nine values of `SGPHASE` (R28, R110); codes 0x9 to 0xF are never held (U19). -/
inductive Phase where
  | idle | poll | waitfree | fill | retfree | emita | emitb | adv | halt
deriving DecidableEq, Repr

/-- The four values of `FSUB` (R31, R111): the sub-step of one column of phase FILL. -/
inductive FillSub where
  | idx | red | grn | blu
deriving DecidableEq, Repr

end Sys2Proof
end

