-- ==== Sys2Proof/Decode.lean ====
section
/-! DEFINITION. Decoding and encoding (30_encoding.md R101, R102, R105, R110): a command is one 32-bit word on the command port, a
phase one 4-bit code in `SGPHASE`. Decoding is total and rejects every reserved encoding by name. -/

namespace Sys2Proof

/-- What is decoded: the 32-bit word on the command port, or the 4-bit code of the sequencer's phase (R100, R110). -/
inductive Code where
  | command (w : Word)
  | phase (c : BitVec 4)
deriving DecidableEq, Repr

/-- Why an encoding is no instruction (R105; R110 and U19 for the phase codes). -/
inductive Reserved where
  /-- `op = 0x00` or `op >= 0x08`. -/
  | operation (op : BitVec 8)
  /-- `rsv != 0`. -/
  | reservedField (rsv : BitVec 8)
  /-- A must-be-zero bit of `arg` is set. -/
  | operand (arg : BitVec 16)
  /-- A phase code 0x9 to 0xF. -/
  | phaseCode (c : BitVec 4)
deriving DecidableEq, Repr

/-- `op = w[31:24]` (R101). -/
def opField (w : Word) : BitVec 8 := w.extractLsb' 24 8
/-- `rsv = w[23:16]` (R101). -/
def rsvField (w : Word) : BitVec 8 := w.extractLsb' 16 8
/-- `arg = w[15:0]` (R101). -/
def argField (w : Word) : BitVec 16 := w.extractLsb' 0 16

/-- An operand that must be 0 entirely (R102). -/
def noOperand (arg : BitVec 16) (i : Instr) : Except Reserved Instr :=
  if arg = 0 then .ok i else .error (.operand arg)

/-- The command of an operation code and an operand (R102, R104). -/
def decodeOp (op : BitVec 8) (arg : BitVec 16) : Except Reserved Instr :=
  if op = 0x01 then .ok (.col2idx arg)
  else if op = 0x02 then noOperand arg .palreset
  else if op = 0x03 then
    if arg.extractLsb' 1 15 = 0 then .ok (.invert (arg.getLsbD 0)) else .error (.operand arg)
  else if op = 0x04 then
    if arg.extractLsb' 8 8 = 0 then .ok (.idx2col (arg.extractLsb' 0 8)) else .error (.operand arg)
  else if op = 0x05 then noOperand arg .sgstart
  else if op = 0x06 then noOperand arg .sgstop
  else if op = 0x07 then noOperand arg .rdstat
  else .error (.operation op)

/-- The command a 32-bit word stands for (R101, R102, R105). -/
def decodeCommand (w : Word) : Except Reserved Instr :=
  if rsvField w = 0 then decodeOp (opField w) (argField w) else .error (.reservedField (rsvField w))

/-- The phase of a 4-bit code (R110). -/
def phaseOfCode (c : BitVec 4) : Option Phase :=
  if c = 0x0 then some .idle
  else if c = 0x1 then some .poll
  else if c = 0x2 then some .waitfree
  else if c = 0x3 then some .fill
  else if c = 0x4 then some .retfree
  else if c = 0x5 then some .emita
  else if c = 0x6 then some .emitb
  else if c = 0x7 then some .adv
  else if c = 0x8 then some .halt
  else none

/-- The 4-bit code of a phase (R110), as `SGPHASE` holds it and RDSTAT shows it. -/
def Phase.code : Phase → BitVec 4
  | .idle => 0x0
  | .poll => 0x1
  | .waitfree => 0x2
  | .fill => 0x3
  | .retfree => 0x4
  | .emita => 0x5
  | .emitb => 0x6
  | .adv => 0x7
  | .halt => 0x8

/-- The 2-bit code of a sub-step (R111). -/
def FillSub.code : FillSub → BitVec 2
  | .idx => 0
  | .red => 1
  | .grn => 2
  | .blu => 3

/-- The step a phase selects (R110). -/
def Phase.instr : Phase → Instr
  | .idle => .idle
  | .poll => .poll
  | .waitfree => .waitfree
  | .fill => .fill
  | .retfree => .retfree
  | .emita => .emita
  | .emitb => .emitb
  | .adv => .adv
  | .halt => .halt

/-- The instruction a phase code stands for. -/
def decodePhase (c : BitVec 4) : Except Reserved Instr :=
  match phaseOfCode c with
  | some p => .ok p.instr
  | none => .error (.phaseCode c)

/-- The decoder of both encodings. -/
def decode : Code → Except Reserved Instr
  | .command w => decodeCommand w
  | .phase c => decodePhase c

/-- The command word of fields `op`, `rsv = 0`, `arg` (R101). -/
def commandWord (op : BitVec 8) (arg : BitVec 16) : Word := op ++ 0#8 ++ arg

/-- The encoder: the word of a command (R102), the code of a phase (R110). -/
def encode : Instr → Code
  | .col2idx c => .command (commandWord 0x01 c)
  | .palreset => .command (commandWord 0x02 0)
  | .invert f => .command (commandWord 0x03 ((BitVec.ofBool f).setWidth 16))
  | .idx2col i => .command (commandWord 0x04 (i.setWidth 16))
  | .sgstart => .command (commandWord 0x05 0)
  | .sgstop => .command (commandWord 0x06 0)
  | .rdstat => .command (commandWord 0x07 0)
  | .idle => .phase 0x0
  | .poll => .phase 0x1
  | .waitfree => .phase 0x2
  | .fill => .phase 0x3
  | .retfree => .phase 0x4
  | .emita => .phase 0x5
  | .emitb => .phase 0x6
  | .adv => .phase 0x7
  | .halt => .phase 0x8

/-- The encoding of an instruction of spec/opcode_table.json from its bits: a row of at most 8 bits is a phase code, any other
row a command word. -/
def codeOfTableWord (nbits w : Nat) : Option Code :=
  if nbits ≤ 8 then (if w < 16 then some (.phase (BitVec.ofNat 4 w)) else none)
  else if w < 2 ^ 32 then some (.command (BitVec.ofNat 32 w)) else none

/-- The instruction the decoder reads from the bits of a table row; none where it refuses. -/
def decodeTableWord (nbits w : Nat) : Option Instr :=
  match codeOfTableWord nbits w with
  | none => none
  | some c =>
    match decode c with
    | .ok i => some i
    | .error _ => none

/-- The mnemonic of an instruction, as spec/opcode_table.json spells it (R102, R110). -/
def Instr.mnemonic : Instr → String
  | .col2idx _ => "COL2IDX"
  | .palreset => "PALRESET"
  | .invert _ => "INVERT"
  | .idx2col _ => "IDX2COL"
  | .sgstart => "SGSTART"
  | .sgstop => "SGSTOP"
  | .rdstat => "RDSTAT"
  | .idle => "IDLE"
  | .poll => "POLL"
  | .waitfree => "WAITFREE"
  | .fill => "FILL"
  | .retfree => "RETFREE"
  | .emita => "EMITA"
  | .emitb => "EMITB"
  | .adv => "ADV"
  | .halt => "HALT"

/-- The text form of a command (R107): the mnemonic and, where there is one, its operand as a decimal numeral. -/
def Instr.text : Instr → String
  | .col2idx c => "COL2IDX " ++ toString c.toNat
  | .palreset => "PALRESET"
  | .invert f => "INVERT " ++ toString f.toNat
  | .idx2col i => "IDX2COL " ++ toString i.toNat
  | .sgstart => "SGSTART"
  | .sgstop => "SGSTOP"
  | .rdstat => "RDSTAT"
  | .idle => "IDLE"
  | .poll => "POLL"
  | .waitfree => "WAITFREE"
  | .fill => "FILL"
  | .retfree => "RETFREE"
  | .emita => "EMITA"
  | .emitb => "EMITB"
  | .adv => "ADV"
  | .halt => "HALT"

end Sys2Proof
end

