-- ==== Sys2Proof/Machine/Params.lean ====
section
/-! DEFINITION. The derived parameters (00_scope.md R8, R11, R15), the access to a palette array by its 8-bit index, and the
configuration of the machine after reset. -/

namespace Sys2Proof

namespace Config

/-- `L = floor(ALC / VREP)`: the logical scanlines of a frame (R11). -/
def lines (c : Config) : Nat := c.activeLines / c.vrep

/-- `W = A / SPW`: the words of one channel segment (R11). -/
def segWords (c : Config) : Nat := c.activeWidth / c.symbolsPerWord

/-- `BUFWORDS = 3 * W` (R11). -/
def bufWords (c : Config) : Nat := 3 * c.segWords

/-- `ILACE = (VREP == 1)` (R11, 43_interlace_controller.md R209). -/
def ilace (c : Config) : Bool := c.vrep == 1

/-- `CW * CH`: the number of canvas bytes (20_memory.md R60). -/
def canvasBytes (c : Config) : Nat := c.canvasWidth * c.canvasHeight

end Config

/-- The position of a channel in `SEGORDER` (R13, 20_memory.md R64). -/
def SegOrder.pos : SegOrder → Channel → Nat
  | .rgb, .red => 0 | .rgb, .green => 1 | .rgb, .blue => 2
  | .rbg, .red => 0 | .rbg, .blue => 1 | .rbg, .green => 2
  | .grb, .green => 0 | .grb, .red => 1 | .grb, .blue => 2
  | .gbr, .green => 0 | .gbr, .blue => 1 | .gbr, .red => 2
  | .brg, .blue => 0 | .brg, .red => 1 | .brg, .green => 2
  | .bgr, .blue => 0 | .bgr, .green => 1 | .bgr, .red => 2

/-- The element of a palette array at an 8-bit index; always in range (20_memory.md R62). -/
def palGet {α : Type} (v : PalArray α) (i : PalIndex) : α := v[i.toNat]'i.isLt

/-- A palette array with the element at an 8-bit index replaced. -/
def palSet {α : Type} (v : PalArray α) (i : PalIndex) (x : α) : PalArray α := v.set i.toNat x i.isLt

/-- A palette array whose first sixteen elements are given and whose others are all `rest` (10_state.md R26). -/
def palInit {α : Type} (first : Vector α 16) (rest : α) : PalArray α :=
  ⟨(first.toList ++ List.replicate 240 rest).toArray, by
    rw [List.size_toArray, List.length_append, List.length_replicate, Vector.length_toList]⟩

/-- The masks `M_1`, `M_2`, `M_3` of the masked-similarity search: the lowest `t` bits of the 5, 6 and 5 bit fields are
cleared (R8). -/
def similarityMask (t : Nat) : Colour :=
  let low : Colour := BitVec.ofNat 16 (2 ^ t - 1)
  ~~~ (low <<< 11 ||| low <<< 5 ||| low)

/-- The default of `STD16` (10_state.md R27; PRESUMED general knowledge, notes/assumptions/4.md): black, navy, dark-green,
dark-cyan, maroon, purple, olive, light-grey, dark-grey, blue, green, cyan, red, magenta, yellow, white. -/
def Config.defaultStd16 : Vector Colour 16 :=
  #v[0x0000, 0x000F, 0x03E0, 0x03EF, 0x7800, 0x780F, 0x7BE0, 0xC618,
     0x7BEF, 0x001F, 0x07E0, 0x07FF, 0xF800, 0xF81F, 0xFFE0, 0xFFFF]

/-- The TMDS table of the machine after reset: every entry the free value (R160, notes/assumptions/3.md). -/
def Config.freeTmdsLut : Vector Symbol 64 :=
  ⟨((List.range 64).map fun k => Config.freeTmdsSymbol (BitVec.ofNat 6 k)).toArray, by simp⟩

/-- The configuration of the machine after reset (DESIGN CHOICE, notes/assumptions/2.md): the geometry, pool and queue
capacities of program P3 of 95_test_vectors.md, the default `SEGORDER`, the default width of a handle and the default
`PS_COUNT_SATURATES`. -/
def Config.default : Config where
  activeWidth := 2
  activeLines := 4
  symbolsPerWord := 1
  vrep := 1
  canvasWidth := 2
  canvasHeight := 4
  tmdsLut := Config.freeTmdsLut
  std16 := Config.defaultStd16
  segOrder := .rgb
  handleBits := 32
  blankHandle := 0
  pool := [1, 2]
  qfCap := 6
  qrCap := 4
  psCountSaturates := false

end Sys2Proof
end

