-- ==== Sys2Proof/Machine/Tmds.lean ====
section
/-! DEFINITION. The TMDS table lookup and the function from a colour to its triplet of symbols (41_tmds_encoding.md R160 to R165),
and the constants of black (00_scope.md R15, 20_memory.md R67). Stateless: these are the functions the commands call. -/

namespace Sys2Proof

/-- The three symbols `(r10, g10, b10)` that encode one colour. -/
structure Triplet where
  r : Symbol
  g : Symbol
  b : Symbol
deriving DecidableEq, Repr

/-- `LutRead(v) = TMDS_LUT[v]` (R163). -/
def lutRead (lut : Vector Symbol 64) (v : LutIndex) : Symbol := lut[v.toNat]'v.isLt

/-- `R5 = c[15:11]` (R161). -/
def red5 (c : Colour) : BitVec 5 := c.extractLsb' 11 5
/-- `G6 = c[10:5]` (R161). -/
def green6 (c : Colour) : BitVec 6 := c.extractLsb' 5 6
/-- `B5 = c[4:0]` (R161). -/
def blue5 (c : Colour) : BitVec 5 := c.extractLsb' 0 5

/-- A 5-bit field aligned to six bits: the vacated low bit is 0 (R162). -/
def align5 (f : BitVec 5) : LutIndex := f ++ 0#1

/-- `encodeTriplet(c, inv)` (R164): the colour is complemented before field extraction when `inv` is set. -/
def encodeTriplet (lut : Vector Symbol 64) (c : Colour) (inv : Bool) : Triplet :=
  let c' := if inv then ~~~ c else c
  { r := lutRead lut (align5 (red5 c')), g := lutRead lut (green6 c'), b := lutRead lut (align5 (blue5 c')) }

/-- The symbol of one channel of a triplet. -/
def Triplet.chan (t : Triplet) : Channel → Symbol
  | .red => t.r
  | .green => t.g
  | .blue => t.b

/-- `COLOR` after RESET and after PALRESET: the standard colours, then 0x0000 (10_state.md R26). -/
def resetColors (c : Config) : PalArray Colour := palInit c.std16 0

/-- The triplet array of one channel after RESET and after PALRESET: the symbols of the standard colours, encoded with
inversion off, then 0x000 (10_state.md R26, 40_palette_store.md R137). -/
def resetSymbols (c : Config) (ch : Channel) : PalArray Symbol :=
  palInit ⟨(c.std16.toList.map fun k => (encodeTriplet c.tmdsLut k false).chan ch).toArray, by simp⟩ 0

/-- A 10-bit symbol moved to slot `k` of a 32-bit word: bits `10k+9 : 10k` (20_memory.md R65). -/
def slotBits (k : Nat) (v : Symbol) : Word := v.setWidth 32 <<< (10 * k)

/-- The word made of the symbols `s 0 .. s (n-1)`, the lower column in the lower bits (20_memory.md R67). The slots do not
overlap, so the sum of the rule is their union. -/
def packWord (s : Nat → Symbol) : Nat → Word
  | 0 => 0
  | n + 1 => packWord s n ||| slotBits n (s n)

/-- `BLACKSYM = TMDS_LUT[0]` (R15). -/
def Config.blackSym (c : Config) : Symbol := lutRead c.tmdsLut 0

/-- `BLACKWORD`: `SPW` copies of `BLACKSYM` (R15, R67). -/
def Config.blackWord (c : Config) : Word := packWord (fun _ => c.blackSym) c.symbolsPerWord

end Sys2Proof
end

