-- ==== Sys2Proof/Machine/State.lean ====
section
/-! DEFINITION. The state of the block and of its environment as plain data (10_state.md R20, 20_memory.md R60), the reasons a step
can stop, and the state after RESET (70_reset_and_hazards.md R294). -/

namespace Sys2Proof.Machine

open Sys2Proof

/-- A memory of `w`-bit elements: (address, value) pairs in one canonical form (`Memory.wf`, Ops.lean). `Memory 8` is a list of
`Host.Cell`. -/
abbrev Memory (w : Nat) := List (Nat × BitVec w)

/-- One write of a command to one element of `RTMDS`, `GTMDS` or `BTMDS`: a separate atomic event (20_memory.md R70, R71). -/
structure ElemWrite where
  chan : Channel
  index : PalIndex
  value : Symbol
deriving DecidableEq, Repr

/-- A command between its arrival and its response (30_encoding.md R100): the element writes it has still to make, in any
order (20_memory.md R71), and the response it sends after the last of them. -/
structure Command where
  writes : List ElemWrite
  response : Word
deriving DecidableEq, Repr

/-- One turn of one party in the total order of accesses (20_memory.md R72). -/
inductive Event where
  /-- The host presents a command word (R100). -/
  | host (w : Word)
  /-- The command agent goes on with its command: it makes pending element write number `k`, or, with none pending, responds (R71). -/
  | agent (k : Nat)
  /-- The sequencer takes its step (R175). -/
  | sg
  /-- The transport pops the head of `READYQ` (R273). -/
  | pop
  /-- The transport pushes a handle it holds to `FREEQ` (R273). -/
  | push (h : Handle)
  /-- The drawing layer writes the canvas byte at column `x`, row `y` (R274). -/
  | draw (x y : Nat) (b : Byte)
  /-- `RESET` is applied (R290). -/
  | reset
deriving DecidableEq, Repr

/-- The state. The first group is the block's (R20), the second the environment's (R20, R60, R272), the third the command port,
the response port and the order of turns (notes/assumptions/9.md, 11.md, 13.md). `filled` is the model's record of R295 (notes/assumptions/36.md). -/
structure State where
  /-- The parameters (R9): read only, changed by no step (notes/assumptions/1.md). -/
  cfg : Config
  /-- `COLOR` (R21). -/
  color : PalArray Colour
  /-- `RTMDS` (R22). -/
  rtmds : PalArray Symbol
  /-- `GTMDS` (R22). -/
  gtmds : PalArray Symbol
  /-- `BTMDS` (R22). -/
  btmds : PalArray Symbol
  /-- `COUNT` (R23). -/
  count : BitVec 9
  /-- `INVERTED` (R24). -/
  inverted : Bool
  /-- `BLANKBUF` (R35). -/
  blankbuf : List Word
  /-- `SGPHASE` (R28). -/
  sgphase : Phase
  /-- `Y` (R29). -/
  y : BitVec 15
  /-- `X` (R30). -/
  x : Nat
  /-- `FSUB` (R31). -/
  fsub : FillSub
  /-- `IDXREG` (R31). Outside a column of FILL the spec leaves it, `RSYM` and `GSYM` unspecified (R31, U7); DESIGN CHOICE: each keeps the
  value the last column gave it (notes/assumptions/5.md). -/
  idxreg : PalIndex
  /-- `RSYM` (R31); outside a column as `idxreg`. -/
  rsym : Symbol
  /-- `GSYM` (R31); outside a column as `idxreg`. -/
  gsym : Symbol
  /-- `HELD` (R32). -/
  held : Option Handle
  /-- `EXIT` (R33). -/
  exit : Bool
  /-- `FIELD` (R34): false even, true odd. -/
  field : Bool
  /-- `CANVAS` (R63), by address `y * CW + x`. -/
  canvas : Memory 8
  /-- `BUF` (R64), by `bufKey` of handle and word number. -/
  buf : Memory 32
  /-- `FREEQ`, head first (R74, R270). -/
  freeq : List Handle
  /-- `READYQ`, head first (R74, R271). -/
  readyq : List Handle
  /-- The handles with the transport: popped from `READYQ`, not yet pushed to `FREEQ` (R272). -/
  xheld : List Handle
  /-- The pool handles whose buffer a FILL has completed since RESET, without repeats: the words of the others hold no value
  (70_reset_and_hazards.md R295; notes/assumptions/36.md). -/
  filled : List Handle
  /-- The command in progress, if any. -/
  cmd : Option Command
  /-- The responses sent, oldest first (R100). -/
  rsp : List Word
  /-- The turns to come, next first. -/
  agenda : List Event
deriving DecidableEq, Repr

/-- Why a step stops with a fault. The block itself has no fault (60_exceptions.md R260); each of these names an access to
something the spec says does not exist. All are safe (notes/assumptions/18.md, 26.md). -/
inductive Fault where
  /-- Raised by FILL (sub-step BLU, padding), RETFREE, EMITA and EMITB when they need `HELD` and it is none: excluded by R32. Safe. -/
  | noBufferHeld
  /-- Raised by FILL when `HELD` is no pool handle, so that `BUF[HELD]` does not exist: excluded by R182. Safe. -/
  | notPoolBuffer
  /-- Raised by FILL when it would write a slot `X >= A`: excluded by R182. Safe. -/
  | slotOutsideBuffer
  /-- Raised by FILL when it would read a row `Y >= CH` (excluded by R182), and by a drawing-layer write outside the canvas
  (R274 has writes of canvas bytes only). Safe. -/
  | outsideCanvas
deriving DecidableEq, Repr

/-- Why a step is refused: the model has no meaning for it. -/
inductive Refusal where
  /-- Raised by `exec` for an instruction that has no meaning yet. Safe. -/
  | notModelled (mnemonic : String)
  /-- Raised by `step` when the configuration is ill formed (U16). Safe. -/
  | illFormedConfig
  /-- Raised when the host presents a command before the previous one has responded (U17). Safe. -/
  | commandBeforeResponse
  /-- Raised when the transport pushes a handle it does not hold (U18). Safe. -/
  | transportBreach
  /-- Raised when RESET is applied while a command is in progress, which R290 excludes. Safe. -/
  | resetDuringCommand
deriving DecidableEq, Repr


/-- The block and its environment right after RESET under the parameters `c` (R294), before the transport and the drawing layer have
done anything (R297): `CANVAS` and `BUF` with nothing listed, the queues empty, every pool handle with the transport. -/
def State.resetOf (c : Config) : State where
  cfg := c
  color := resetColors c
  rtmds := resetSymbols c .red
  gtmds := resetSymbols c .green
  btmds := resetSymbols c .blue
  count := 16
  inverted := false
  blankbuf := List.replicate c.bufWords c.blackWord
  sgphase := .idle
  y := 0
  x := 0
  fsub := .idx
  idxreg := 0
  rsym := 0
  gsym := 0
  held := none
  exit := false
  field := false
  canvas := []
  buf := []
  freeq := []
  readyq := []
  xheld := c.pool
  filled := []
  cmd := none
  rsp := []
  agenda := []

/-- The machine right after reset (R294). -/
def State.reset : State := State.resetOf Config.default

end Sys2Proof.Machine
end

