-- ==== Sys2Proof/Machine/Ops.lean ====
section
/-! DEFINITION. The shared operations: the canonical memory, the canvas, the scanline buffers, the queues, the triplet arrays, and
a command's life from acceptance to response. The block has no exception to take and none to return from (60_exceptions.md R260,
R277); the one shared entry of that kind is the refusal of a reserved command word (`State.refuseCommand`, R236). -/

namespace Sys2Proof.Machine

open Sys2Proof

/-! ## The canonical memory -/

/-- What an unlisted address reads as (notes/assumptions/6.md, 7.md). -/
def Memory.unlisted {w : Nat} : BitVec w := 0

/-- The element at an address. -/
def Memory.read {w : Nat} : Memory w → Nat → BitVec w
  | [], _ => Memory.unlisted
  | (k, v) :: m, a => if a < k then Memory.unlisted else if a = k then v else Memory.read m a

/-- The memory with the element at an address replaced: no entry is kept for the unlisted value. -/
def Memory.write {w : Nat} : Memory w → Nat → BitVec w → Memory w
  | [], a, u => if u = Memory.unlisted then [] else [(a, u)]
  | (k, v) :: m, a, u =>
    if a < k then (if u = Memory.unlisted then (k, v) :: m else (a, u) :: (k, v) :: m)
    else if a = k then (if u = Memory.unlisted then m else (a, u) :: m)
    else (k, v) :: Memory.write m a u

/-- The canonical form: addresses strictly rising, no entry equal to what an unlisted address reads as. -/
def Memory.wf {w : Nat} (m : Memory w) : Bool :=
  decide (m.Pairwise fun p q => p.1 < q.1) && m.all fun p => p.2 != Memory.unlisted

/-! ## The canvas (20_memory.md R63) -/

/-- The address of the canvas byte at row `y`, column `x` (R63). -/
def canvasKey (c : Config) (y x : Nat) : Nat := y * c.canvasWidth + x

/-- `CanvasRead(y, x)` (R17, R63). -/
def State.canvasRead (s : State) (y x : Nat) : Byte := Memory.read s.canvas (canvasKey s.cfg y x)

/-- Column `x`, row `y` is inside the canvas (R63). -/
def inCanvas (c : Config) (x y : Nat) : Bool := decide (x < c.canvasWidth) && decide (y < c.canvasHeight)

/-- `CanvasWrite(x, y, b)` of the drawing layer: one single-byte store (45_color_interception.md, R70). -/
def State.canvasWrite (s : State) (x y : Nat) (b : Byte) : State :=
  { s with canvas := Memory.write s.canvas (canvasKey s.cfg y x) b }

/-! ## The scanline buffers (20_memory.md R64 to R67) -/

/-- The key of word `n` of the buffer with handle `h` in `State.buf`: a pairing, no address of the block's
(notes/assumptions/22.md). -/
def bufKey (c : Config) (h : Handle) (n : Nat) : Nat := h * c.bufWords + n

/-- `BufWord(h, n)` (R17, R64). -/
def State.bufWord (s : State) (h : Handle) (n : Nat) : Word := Memory.read s.buf (bufKey s.cfg h n)

/-- The word of a buffer that holds slot `x` of a channel: `seg*W + floor(x / SPW)` (R66). -/
def slotWord (c : Config) (ch : Channel) (x : Nat) : Nat := c.segOrder.pos ch * c.segWords + x / c.symbolsPerWord

/-- A word with the symbol in slot `k` replaced; slot 0 first sets the whole word to zero (R66). -/
def setSlot (w : Word) (k : Nat) (v : Symbol) : Word :=
  if k = 0 then slotBits 0 v else (w &&& ~~~ (slotBits k 0x3FF)) ||| slotBits k v

/-- The symbol in slot `k` of a word: bits `10k+9 : 10k` (R65). -/
def getSlot (w : Word) (k : Nat) : Symbol := w.extractLsb' (10 * k) 10

/-- `SymWrite(h, ch, x, v)` (R66). -/
def State.symWrite (s : State) (h : Handle) (ch : Channel) (x : Nat) (v : Symbol) : State :=
  let n := slotWord s.cfg ch x
  { s with buf := Memory.write s.buf (bufKey s.cfg h n) (setSlot (s.bufWord h n) (x % s.cfg.symbolsPerWord) v) }

/-- The three slot writes of one column, in the order of R186 and R187. -/
def State.columnWrite (s : State) (h : Handle) (x : Nat) (t : Triplet) : State :=
  ((s.symWrite h .red x t.r).symWrite h .green x t.g).symWrite h .blue x t.b

/-- What the transport reads at word `n` of a buffer whose handle it holds: `BUF[h]`, or `BLANKBUF` for `BLANK_HANDLE` (R273); none
where it may not read, and none from a pool buffer that no FILL has completed since RESET, whose words hold no value
(70_reset_and_hazards.md R295; notes/assumptions/36.md). The read changes nothing (R70). -/
def State.transportRead (s : State) (h : Handle) (n : Nat) : Option Word :=
  if s.xheld.contains h && decide (n < s.cfg.bufWords) then
    if h = s.cfg.blankHandle then s.blankbuf[n]?
    else if s.filled.contains h then some (s.bufWord h n)
    else none
  else none

/-! ## The queues (20_memory.md R74, R75) -/

/-- `FreePush` is enabled: `FREEQ` holds fewer than `QF_CAP` handles (R75). -/
def State.freeHasRoom (s : State) : Bool := decide (s.freeq.length < s.cfg.qfCap)

/-- `ReadyPush` is enabled: `READYQ` holds fewer than `QR_CAP` handles (R75). -/
def State.readyHasRoom (s : State) : Bool := decide (s.readyq.length < s.cfg.qrCap)

/-- `FreePush(h)` (R17, R74). -/
def State.freePush (s : State) (h : Handle) : State := { s with freeq := s.freeq ++ [h] }

/-- `ReadyPush(h)` (R17, R74). -/
def State.readyPush (s : State) (h : Handle) : State := { s with readyq := s.readyq ++ [h] }

/-! ## The triplet arrays (10_state.md R22) -/

/-- The triplet array of a channel. -/
def State.symbols (s : State) : Channel → PalArray Symbol
  | .red => s.rtmds
  | .green => s.gtmds
  | .blue => s.btmds

/-- `(RTMDS[i], GTMDS[i], BTMDS[i])`. -/
def State.triplet (s : State) (i : PalIndex) : Triplet :=
  { r := palGet s.rtmds i, g := palGet s.gtmds i, b := palGet s.btmds i }

/-- One element write (R70). -/
def State.putSym (s : State) (e : ElemWrite) : State :=
  match e.chan with
  | .red => { s with rtmds := palSet s.rtmds e.index e.value }
  | .green => { s with gtmds := palSet s.gtmds e.index e.value }
  | .blue => { s with btmds := palSet s.btmds e.index e.value }

/-- Element writes made one after another. -/
def State.putAll (s : State) (ws : List ElemWrite) : State := ws.foldl State.putSym s

/-- The three element writes of one entry (R71). -/
def tripletWrites (i : PalIndex) (t : Triplet) : List ElemWrite :=
  [⟨.red, i, t.r⟩, ⟨.green, i, t.g⟩, ⟨.blue, i, t.b⟩]

/-- The element a write goes to. -/
def ElemWrite.target (e : ElemWrite) : Channel × PalIndex := (e.chan, e.index)

/-! ## A command's life (30_encoding.md R100, 20_memory.md R71) -/

/-- `respond(w)` (R17). -/
def State.respond (s : State) (w : Word) : State := { s with rsp := s.rsp ++ [w] }

/-- The response to a reserved command word: `ERR = 1`, `val = 0` (R103, R236). -/
def errResponse : Word := 0x80000000

/-- `refuse` (R17, R236): the response and no other change. -/
def State.refuseCommand (s : State) : State := s.respond errResponse

/-- The command is accepted with element writes to make before it responds (R71). -/
def State.startCommand (s : State) (ws : List ElemWrite) (w : Word) : State := { s with cmd := some ⟨ws, w⟩ }

/-- The element writes still pending. -/
def State.pending (s : State) : List ElemWrite :=
  match s.cmd with
  | none => []
  | some c => c.writes

/-- The command agent's turn: pending element write number `k` is made, whichever `k` the turn names (every order is admitted,
R71, D15); with none pending the response is sent; with no command, or no such write, nothing is enabled. -/
def State.agentStep (s : State) (k : Nat) : State :=
  match s.cmd with
  | none => s
  | some ⟨[], w⟩ => { s with cmd := none }.respond w
  | some ⟨e :: ws, w⟩ =>
    match (e :: ws)[k]? with
    | none => s
    | some d => { s.putSym d with cmd := some ⟨(e :: ws).eraseIdx k, w⟩ }

/-- The state when the command in progress has made all its writes and responded, no other party having taken a turn. -/
def State.finish (s : State) : State :=
  match s.cmd with
  | none => s
  | some c => { s.putAll c.writes with cmd := none }.respond c.response

/-! ## RESET (70_reset_and_hazards.md R290 to R294) -/

/-- The buffer the SG owns: from the `FreePop` that returned it to the push that gives it away (20_memory.md R68). `HELD` keeps its
value after that push until ADV, and the handle is then no longer the SG's (DEDUCED, notes/assumptions/27.md). -/
def State.owned (s : State) : Option Handle :=
  match s.sgphase with
  | .fill | .retfree | .emita => s.held
  | .emitb => if s.field then s.held else none
  | .idle | .poll | .waitfree | .adv | .halt => none

/-- RESET: the block's state as R294 says; what R294 says the block does not set stays (canvas, buffers, queues), the responses and the
agenda too. No buffer counts as filled since RESET (R295). A pool handle the SG owned goes back to the transport, whose buffer it is (R272; notes/assumptions/16.md). -/
def State.applyReset (s : State) : State :=
  { State.resetOf s.cfg with
    canvas := s.canvas
    buf := s.buf
    freeq := s.freeq
    readyq := s.readyq
    xheld := s.xheld ++ s.owned.toList.filter (· != s.cfg.blankHandle)
    rsp := s.rsp
    agenda := s.agenda }

end Sys2Proof.Machine
end

