-- ==== Sys2Proof/Machine/Operands.lean ====
section
/-! DEFINITION. The response words of the commands (30_encoding.md R103, R104, R107; 44_system_ops.md R232) and the searches
their operands drive (40_palette_store.md R131, R133). The operands themselves are typed by `Instr`. -/

namespace Sys2Proof.Machine

open Sys2Proof

/-! ## Response words (R103, R104) -/

/-- The response of an operation with no result (R103). -/
def noResult : Word := 0

/-- COL2IDX: `val[7:0]` the index, `val[8]` `EXH` (R104). -/
def indexResponse (i : PalIndex) (exh : Bool) : Word := (BitVec.ofBool exh ++ i).setWidth 32

/-- IDX2COL: `val[15:0]` the colour (R104). -/
def colourResponse (c : Colour) : Word := c.setWidth 32

/-- RDSTAT: `Y[30:16]`, `SGPHASE[15:12]`, `FIELD[11]`, `EXIT[10]`, `INVERTED[9]`, `COUNT[8:0]`, bit 31 zero (R232). -/
def statusResponse (s : State) : Word :=
  s.y.setWidth 32 <<< 16 ||| s.sgphase.code.setWidth 32 <<< 12 ||| (BitVec.ofBool s.field).setWidth 32 <<< 11 |||
    (BitVec.ofBool s.exit).setWidth 32 <<< 10 ||| (BitVec.ofBool s.inverted).setWidth 32 <<< 9 ||| s.count.setWidth 32

/-- `val[7:0]` of a response to COL2IDX (R104). -/
def responseIndex (w : Word) : PalIndex := w.extractLsb' 0 8

/-- `val[15:0]` of a response to IDX2COL (R104). -/
def responseColour (w : Word) : Colour := w.extractLsb' 0 16

/-- The last response sent; zero when none was. -/
def State.lastResponse (s : State) : Word := s.rsp.getLastD 0

/-- The text form of a COL2IDX response (R107). -/
def indexResponseText (w : Word) : String :=
  toString (responseIndex w).toNat ++ (if exhBit w then " EXH" else "")
where
  /-- `EXH = val[8]` (R104). -/
  exhBit (w : Word) : Bool := w.getLsbD 8

/-! ## Searches -/

/-- `COLOR[0..COUNT-1]`, the colours of the entries in use (10_state.md R21, R23). -/
def State.inUse (s : State) : List Colour := s.color.toList.take s.count.toNat

/-- The exact search: the lowest index in use whose colour equals `c` (R131). -/
def State.exactMatch (s : State) (c : Colour) : Option Nat := s.inUse.findIdx? (· == c)

/-- The masked search at tolerance `t`: the lowest index in use that matches under `M_t` (R133). -/
def State.maskedMatch (s : State) (t : Nat) (c : Colour) : Option Nat :=
  s.inUse.findIdx? fun d => d &&& similarityMask t == c &&& similarityMask t

/-- The masked-similarity search: tolerance is the outer loop, 1, then 2, then 3 (R133). -/
def State.similarMatch (s : State) (c : Colour) : Option Nat :=
  match s.maskedMatch 1 c with
  | some i => some i
  | none =>
    match s.maskedMatch 2 c with
    | some i => some i
    | none => s.maskedMatch 3 c

end Sys2Proof.Machine
end

