-- ==== Sys2Proof/Machine/Flags.lean ====
section
/-! DEFINITION. The flags and counters the instructions update: `COUNT` (10_state.md R23), and `Y` with `FIELD`
(43_interlace_controller.md R212). `INVERTED` and `EXIT` are set to an operand or a constant where the instruction says so. -/

namespace Sys2Proof.Machine

open Sys2Proof

/-- An append is still possible: `COUNT < SAT = 255` (00_scope.md R7, 40_palette_store.md R132). -/
def State.canAppend (s : State) : Bool := decide (s.count.toNat < 255)

/-- `COUNT` after a last-slot overwrite: 256 (R134), or, under the alternative reading `PS_COUNT_SATURATES` (D9, default false),
unchanged. -/
def State.countAfterOverwrite (s : State) : BitVec 9 := if s.cfg.psCountSaturates then s.count else 256

/-- `Y` and `FIELD` of the next iteration (R212). -/
def nextLine (c : Config) (y : Nat) (field : Bool) : Nat × Bool :=
  if !c.ilace then ((y + 1) % c.lines, field)
  else if y + 2 < c.lines then (y + 2, field)
  else ((!field).toNat, !field)

end Sys2Proof.Machine
end

