-- ==== Sys2Proof/Machine/Interlace.lean ====
section
/-! DEFINITION. The interlace controller's phases EMITA, EMITB, ADV (43_interlace_controller.md). -/

namespace Sys2Proof.Machine

open Sys2Proof

/-- The held line is pushed to the ready queue and the sequencer goes to `p`. -/
def State.emitHeld (s : State) (p : Phase) : Host.Outcome State Fault Refusal :=
  match s.held with
  | none => .fault .noBufferHeld
  | some h => .next { s.readyPush h with sgphase := p }

/-- The blank handle is pushed to the ready queue and the sequencer goes to `p`. -/
def State.emitBlank (s : State) (p : Phase) : Host.Outcome State Fault Refusal :=
  .next { s.readyPush s.cfg.blankHandle with sgphase := p }

/-- Phase EMITA (R210). -/
def execEmita (s : State) : Host.Outcome State Fault Refusal :=
  if s.readyHasRoom then
    if !s.cfg.ilace then s.emitHeld .adv
    else if !s.field then s.emitHeld .emitb
    else s.emitBlank .emitb
  else .next s

/-- Phase EMITB (R211). -/
def execEmitb (s : State) : Host.Outcome State Fault Refusal :=
  if s.readyHasRoom then
    if !s.field then s.emitBlank .adv else s.emitHeld .adv
  else .next s

/-- Phase ADV (R212). -/
def execAdv (s : State) : Host.Outcome State Fault Refusal :=
  let p := nextLine s.cfg s.y.toNat s.field
  .next { s with held := none, y := BitVec.ofNat 15 p.1, field := p.2, sgphase := .poll }

end Sys2Proof.Machine
end

