-- ==== Sys2Proof/Machine/Palette.lean ====
section
/-! DEFINITION. The four palette commands (40_palette_store.md). Each updates `COLOR`, `COUNT` and `INVERTED` in the accepting
step (20_memory.md R73) and leaves its writes to the triplet arrays pending, in the order the agenda picks, before it
responds (R71; notes/assumptions/11.md); a command without such writes responds at once (notes/assumptions/12.md). -/

namespace Sys2Proof.Machine

open Sys2Proof

/-- Entry `i` gets the colour `c`, its triplet under the current `INVERTED` is left to be written, and the response follows
(R132, R134). -/
def State.storeEntry (s : State) (i : PalIndex) (c : Colour) (count : BitVec 9) (w : Word) : State :=
  { s with color := palSet s.color i c, count := count }.startCommand
    (tripletWrites i (encodeTriplet s.cfg.tmdsLut c s.inverted)) w

/-- `COL2IDX c` (R130 to R135). -/
def execCol2idx (c : Colour) (s : State) : Host.Outcome State Fault Refusal :=
  match s.exactMatch c with
  | some i => .next (s.respond (indexResponse (BitVec.ofNat 8 i) false))
  | none =>
    if s.canAppend then
      let i : PalIndex := s.count.setWidth 8
      .next (s.storeEntry i c (s.count + 1) (indexResponse i false))
    else
      match s.similarMatch c with
      | some i => .next (s.respond (indexResponse (BitVec.ofNat 8 i) false))
      | none => .next (s.storeEntry 255 c s.countAfterOverwrite (indexResponse 255 true))

/-- The element writes of PALRESET: all three arrays at all 256 indices (R136). -/
def resetWrites (c : Config) : List ElemWrite :=
  (List.range 256).flatMap fun i =>
    tripletWrites (BitVec.ofNat 8 i)
      { r := palGet (resetSymbols c .red) (BitVec.ofNat 8 i),
        g := palGet (resetSymbols c .green) (BitVec.ofNat 8 i),
        b := palGet (resetSymbols c .blue) (BitVec.ofNat 8 i) }

/-- `PALRESET` (R136 to R138). -/
def execPalreset (s : State) : Host.Outcome State Fault Refusal :=
  .next ({ s with inverted := false, count := 16, color := resetColors s.cfg }.startCommand (resetWrites s.cfg) noResult)

/-- The element writes of an effective `INVERT f`: the triplets of all entries in use under the new flag (R139). -/
def State.invertWrites (s : State) (f : Bool) : List ElemWrite :=
  s.inUse.zipIdx.flatMap fun p => tripletWrites (BitVec.ofNat 8 p.2) (encodeTriplet s.cfg.tmdsLut p.1 f)

/-- `INVERT f` (R139 to R141). -/
def execInvert (f : Bool) (s : State) : Host.Outcome State Fault Refusal :=
  if f = s.inverted then .next (s.respond noResult)
  else .next ({ s with inverted := f }.startCommand (s.invertWrites f) noResult)

/-- `IDX2COL i` (R142, R143): the stored colour of the slot as it is, in use or not. -/
def execIdx2col (i : PalIndex) (s : State) : Host.Outcome State Fault Refusal :=
  .next (s.respond (colourResponse (palGet s.color i)))

end Sys2Proof.Machine
end

