-- ==== Sys2Proof/Machine/Scanline.lean ====
section
/-! DEFINITION. The scanline generator's phases IDLE, POLL, WAITFREE, FILL, RETFREE, HALT (42_scanline_generator.md). A phase that
is not enabled leaves the state as it is: the SG waits (20_memory.md R75; notes/assumptions/10.md). -/

namespace Sys2Proof.Machine

open Sys2Proof

/-- Phase IDLE (R176): no step is enabled. -/
def execIdle (s : State) : Host.Outcome State Fault Refusal := .next s

/-- Phase POLL (R177). -/
def execPoll (s : State) : Host.Outcome State Fault Refusal :=
  .next { s with sgphase := if s.exit then .halt else .waitfree }

/-- Phase HALT (R178): no step is enabled. -/
def execHalt (s : State) : Host.Outcome State Fault Refusal := .next s

/-- Phase WAITFREE (R179 to R181): waits on an empty free queue; discards the blank handle; else takes the buffer, to fill it or to
return it. -/
def execWaitfree (s : State) : Host.Outcome State Fault Refusal :=
  match s.freeq with
  | [] => .next s
  | h :: q =>
    if h = s.cfg.blankHandle then .next { s with freeq := q, sgphase := .poll }
    else if s.y.toNat < s.cfg.canvasHeight then
      .next { s with freeq := q, held := some h, x := 0, fsub := .idx, sgphase := .fill }
    else .next { s with freeq := q, held := some h, sgphase := .retfree }

/-- The end of a column (R186, R187): its three slots are written, then the next column, or, after column `A-1`, EMITA, the buffer then
being filled (R188, R295). From here to the next column `IDXREG`, `RSYM` and `GSYM` are unspecified (R31, U7); DESIGN CHOICE: they
keep this column's values (notes/assumptions/5.md). -/
def State.fillColumn (s : State) (t : Triplet) : Host.Outcome State Fault Refusal :=
  match s.held with
  | none => .fault .noBufferHeld
  | some h =>
    if !s.cfg.pool.contains h then .fault .notPoolBuffer
    else if s.cfg.activeWidth ≤ s.x then .fault .slotOutsideBuffer
    else
      .next { s.columnWrite h s.x t with
        fsub := .idx
        x := s.x + 1
        sgphase := if s.x + 1 = s.cfg.activeWidth then .emita else s.sgphase
        filled := if s.x + 1 = s.cfg.activeWidth then s.filled.insert h else s.filled }

/-- Phase FILL (R182 to R188): one sub-step of one column, or a whole padding column. -/
def execFill (s : State) : Host.Outcome State Fault Refusal :=
  match s.fsub with
  | .idx =>
    if s.x < s.cfg.canvasWidth then
      if s.y.toNat < s.cfg.canvasHeight then .next { s with idxreg := s.canvasRead s.y.toNat s.x, fsub := .red }
      else .fault .outsideCanvas
    else s.fillColumn ⟨s.cfg.blackSym, s.cfg.blackSym, s.cfg.blackSym⟩
  | .red => .next { s with rsym := palGet s.rtmds s.idxreg, fsub := .grn }
  | .grn => .next { s with gsym := palGet s.gtmds s.idxreg, fsub := .blu }
  | .blu => s.fillColumn ⟨s.rsym, s.gsym, palGet s.btmds s.idxreg⟩

/-- Phase RETFREE (R190): waits on a full free queue; else returns the buffer unwritten and takes the blank handle. -/
def execRetfree (s : State) : Host.Outcome State Fault Refusal :=
  if s.freeHasRoom then
    match s.held with
    | none => .fault .noBufferHeld
    | some h => .next { s.freePush h with held := some s.cfg.blankHandle, sgphase := .emita }
  else .next s

end Sys2Proof.Machine
end

