-- ==== Sys2Proof/Machine/System.lean ====
section
/-! DEFINITION. The three commands that control and observe the generator (44_system_ops.md). -/

namespace Sys2Proof.Machine

open Sys2Proof

/-- `SGSTART` (R230): effective only in IDLE. -/
def execSgstart (s : State) : Host.Outcome State Fault Refusal :=
  .next ({ s with sgphase := if s.sgphase = Phase.idle then Phase.poll else s.sgphase }.respond noResult)

/-- `SGSTOP` (R231). -/
def execSgstop (s : State) : Host.Outcome State Fault Refusal :=
  .next ({ s with exit := true }.respond noResult)

/-- `RDSTAT` (R232): the six fields sampled in one atomic step. -/
def execRdstat (s : State) : Host.Outcome State Fault Refusal :=
  .next (s.respond (statusResponse s))

end Sys2Proof.Machine
end

