-- ==== Sys2Proof/Machine/Dispatch.lean ====
section
/-! DEFINITION. The meaning of every instruction: one arm per constructor of Instr. -/

namespace Sys2Proof.Machine

open Sys2Proof

def exec (i : Instr) (s : State) : Host.Outcome State Fault Refusal :=
  match i with
  | .col2idx c => Sys2Proof.Machine.execCol2idx c s
  | .palreset => Sys2Proof.Machine.execPalreset s
  | .invert f => Sys2Proof.Machine.execInvert f s
  | .idx2col k => Sys2Proof.Machine.execIdx2col k s
  | .sgstart => Sys2Proof.Machine.execSgstart s
  | .sgstop => Sys2Proof.Machine.execSgstop s
  | .rdstat => Sys2Proof.Machine.execRdstat s
  | .idle => Sys2Proof.Machine.execIdle s
  | .poll => Sys2Proof.Machine.execPoll s
  | .waitfree => Sys2Proof.Machine.execWaitfree s
  | .fill => Sys2Proof.Machine.execFill s
  | .retfree => Sys2Proof.Machine.execRetfree s
  | .emita => Sys2Proof.Machine.execEmita s
  | .emitb => Sys2Proof.Machine.execEmitb s
  | .adv => Sys2Proof.Machine.execAdv s
  | .halt => Sys2Proof.Machine.execHalt s

end Sys2Proof.Machine
end

