-- ==== Sys2Proof/WellFormed.lean ====
section
/-! DEFINITION. What is well formed. Every term of `Instr` is: each operand is typed at exactly the width its encoding admits, and
words outside the seven commands decode to no term (Decode.lean). What can be ill formed on this hardware is the
configuration (00_scope.md R10 to R14; 93_implementation_defined.md U16): `Config.wf` is the list of its checks. -/

namespace Sys2Proof

/-- The checks of a configuration (R10 to R14, U16; `L <= 32768` is R29's width of `Y`). -/
def Config.checks (c : Config) : List Bool :=
  [ decide (1 ≤ c.activeWidth),
    decide (1 ≤ c.activeLines),
    decide (1 ≤ c.symbolsPerWord),
    decide (c.symbolsPerWord ≤ 3),
    c.activeWidth % c.symbolsPerWord == 0,
    decide (1 ≤ c.vrep),
    decide (1 ≤ c.lines),
    decide (c.lines ≤ 32768),
    !c.ilace || c.lines % 2 == 0,
    decide (1 ≤ c.canvasWidth),
    decide (c.canvasWidth ≤ c.activeWidth),
    decide (1 ≤ c.canvasHeight),
    c.std16[0] == 0,
    decide c.std16.toList.Nodup,
    !c.pool.contains c.blankHandle,
    decide c.pool.Nodup,
    decide (1 ≤ c.qfCap),
    decide (1 ≤ c.qrCap),
    decide (c.blankHandle < 2 ^ c.handleBits),
    decide (∀ h ∈ c.pool, h < 2 ^ c.handleBits) ]

/-- A configuration is well formed when every check holds. -/
def Config.wf (c : Config) : Bool := c.checks.all id

end Sys2Proof
end

