-- ==== Sys2Proof/Machine/Agents.lean ====
section
/-! DEFINITION. The turns of the parties (60_exceptions.md R266 to R276, 70_reset_and_hazards.md R290): which party moves next, what is
fetched and decoded, and what each turn does. -/

namespace Sys2Proof.Machine

open Sys2Proof

/-- The turn taken when the agenda names none (DESIGN CHOICE, notes/assumptions/9.md): the command agent goes on with its command
if it has one, its first pending write first; else the free-running sequencer takes its step. -/
def State.defaultEvent (s : State) : Event := if s.cmd.isSome then .agent 0 else .sg

/-- The turn to be taken. -/
def State.nextEvent (s : State) : Event := s.agenda.headD s.defaultEvent

/-- The state with the turn taken off the agenda. -/
def State.dropEvent (s : State) : State := { s with agenda := s.agenda.tail }

/-- The instruction of the sequencer's phase, read from its code (30_encoding.md R110). -/
def State.fetchPhase (s : State) : Except Reserved Instr := decode (.phase s.sgphase.code)

/-- The host presents a command word: it is accepted only when no command is in progress (R100, U17); a reserved word is refused on
the response port (R105, R236). -/
def hostTurn (w : Word) (s : State) : Host.Outcome State Fault Refusal :=
  if s.cmd.isSome then .refused .commandBeforeResponse
  else
    match decode (.command w) with
    | .ok i => exec i s
    | .error _ => .next s.refuseCommand

/-- The sequencer's step: the instruction of its phase (R175). No phase has a reserved code, so the second arm is unreachable
(`decode_phase_code`, Laws/Decode.lean). -/
def sgTurn (s : State) : Host.Outcome State Fault Refusal :=
  match s.fetchPhase with
  | .ok i => exec i s
  | .error _ => .next s

/-- The transport pops the head of `READYQ` and holds it (R273); on an empty queue nothing is enabled. -/
def popTurn (s : State) : Host.Outcome State Fault Refusal :=
  match s.readyq with
  | [] => .next s
  | h :: q => .next { s with readyq := q, xheld := s.xheld ++ [h] }

/-- The transport pushes a handle it holds to `FREEQ` (R273); on a full queue nothing is enabled; a handle it does not hold is a
breach of its duties (R276, U18). -/
def pushTurn (h : Handle) (s : State) : Host.Outcome State Fault Refusal :=
  if !s.xheld.contains h then .refused .transportBreach
  else if s.freeHasRoom then .next { s.freePush h with xheld := s.xheld.erase h }
  else .next s

/-- The drawing layer writes a canvas byte (R274). -/
def drawTurn (x y : Nat) (b : Byte) (s : State) : Host.Outcome State Fault Refusal :=
  if inCanvas s.cfg x y then .next (s.canvasWrite x y b) else .fault .outsideCanvas

/-- RESET (R290): no command overlaps it. -/
def resetTurn (s : State) : Host.Outcome State Fault Refusal :=
  if s.cmd.isSome then .refused .resetDuringCommand else .next s.applyReset

/-- What a turn does. -/
def act : Event → State → Host.Outcome State Fault Refusal
  | .host w, s => hostTurn w s
  | .agent k, s => .next (s.agentStep k)
  | .sg, s => sgTurn s
  | .pop, s => popTurn s
  | .push h, s => pushTurn h s
  | .draw x y b, s => drawTurn x y b s
  | .reset, s => resetTurn s

/-- The phases that use a held buffer (10_state.md R32). -/
def holdsBuffer : Phase → Bool
  | .fill | .retfree | .emita | .emitb | .adv => true
  | .idle | .poll | .waitfree | .halt => false

/-- A state whose next turn fetches and runs the instruction of a code: a command word is the next one the host presents, no
command being in progress; a phase code is in `SGPHASE` and the turn is the sequencer's. A phase that uses a held buffer is
given the first pool buffer where none is held (notes/assumptions/24.md). -/
def State.withCode (s : State) : Code → State
  | .command w => { s with cmd := none, agenda := .host w :: s.agenda }
  | .phase c =>
    match phaseOfCode c with
    | none => s
    | some p =>
      { s with
        sgphase := p
        held := if holdsBuffer p && s.held.isNone then s.cfg.pool.head? else s.held
        agenda := .sg :: s.agenda }

end Sys2Proof.Machine
end

