-- ==== Sys2Proof/Machine/Step.lean ====
section
/-! DEFINITION. One step of the machine: the turn the agenda names (20_memory.md R72). -/

namespace Sys2Proof.Machine

open Sys2Proof

/-- One step: an ill-formed configuration is refused (93_implementation_defined.md U16); else the next turn is taken off the agenda and
done. -/
def step (s : State) : Host.Outcome State Fault Refusal :=
  if s.cfg.wf then act s.nextEvent s.dropEvent else .refused .illFormedConfig

/-- `s` with the instruction of a row of spec/opcode_table.json placed where `step` fetches its next instruction; bits that are no
code of the row's kind place nothing. -/
def State.withFetchWord (s : State) (nbits w : Nat) : State :=
  match codeOfTableWord nbits w with
  | none => s
  | some c => s.withCode c

end Sys2Proof.Machine
end

