-- ==== Sys2Proof/Machine/Drawing.lean ====
section
/-! DEFINITION. The drawing layer's pseudo-operations (45_color_interception.md R245 to R252): fixed sequences of commands and canvas
accesses, here with no other party's turn between them (one of the admitted interleavings; notes/assumptions/25.md). -/

namespace Sys2Proof.Machine

open Sys2Proof

/-- A command presented, executed to its response. -/
def runCommand (i : Instr) (s : State) : Host.Outcome State Fault Refusal :=
  if s.cmd.isSome then .refused .commandBeforeResponse
  else
    match exec i s with
    | .next t => .next t.finish
    | .fault f => .fault f
    | .refused r => .refused r

/-- `COL2IDX c`, then what the drawing layer does with the index (R245: the colour is mapped first). -/
def withIndex (c : Colour) (k : PalIndex → State → State) (s : State) : Host.Outcome State Fault Refusal :=
  match runCommand (.col2idx c) s with
  | .next t => .next (k (responseIndex t.lastResponse) t)
  | .fault f => .fault f
  | .refused r => .refused r

/-- A canvas write that the drawing layer clips to the canvas (R245). -/
def State.clippedWrite (s : State) (x y : Nat) (b : Byte) : State :=
  if inCanvas s.cfg x y then s.canvasWrite x y b else s

/-- The byte `b` written at each of a list of (column, row) positions, clipped. -/
def State.drawAll (s : State) (ps : List (Nat × Nat)) (b : Byte) : State :=
  ps.foldl (fun t p => t.clippedWrite p.1 p.2 b) s

/-- `drawPixel(x, y, c)` (R245). -/
def drawPixel (x y : Nat) (c : Colour) (s : State) : Host.Outcome State Fault Refusal :=
  withIndex c (fun i t => t.clippedWrite x y i) s

/-- `drawFastVLine(x, y, h, c)` (R247). -/
def drawFastVLine (x y h : Nat) (c : Colour) (s : State) : Host.Outcome State Fault Refusal :=
  withIndex c (fun i t => t.drawAll ((List.range h).map fun k => (x, y + k)) i) s

/-- `drawFastHLine(x, y, w, c)` (R248). -/
def drawFastHLine (x y w : Nat) (c : Colour) (s : State) : Host.Outcome State Fault Refusal :=
  withIndex c (fun i t => t.drawAll ((List.range w).map fun k => (x + k, y)) i) s

/-- Every (column, row) position of the canvas. -/
def canvasCells (c : Config) : List (Nat × Nat) :=
  (List.range c.canvasHeight).flatMap fun y => (List.range c.canvasWidth).map fun x => (x, y)

/-- `fillScreen(c)` (R246): PALRESET, COL2IDX, then every canvas byte. -/
def fillScreen (c : Colour) (s : State) : Host.Outcome State Fault Refusal :=
  match runCommand .palreset s with
  | .next t => withIndex c (fun i u => u.drawAll (canvasCells u.cfg) i) t
  | .fault f => .fault f
  | .refused r => .refused r

/-- `getPixel(x, y)` (R249): the state after it and the colour; outside the canvas no command is issued. -/
def getPixel (x y : Nat) (s : State) : Host.Outcome (State × Colour) Fault Refusal :=
  if inCanvas s.cfg x y then
    match runCommand (.idx2col (s.canvasRead y x)) s with
    | .next t => .next (t, responseColour t.lastResponse)
    | .fault f => .fault f
    | .refused r => .refused r
  else .next (s, 0)

/-- The display-inversion toggle (R250). -/
def invertDisplay (f : Bool) (s : State) : Host.Outcome State Fault Refusal := runCommand (.invert f) s

/-- Explicit colour insertion (R251). -/
def insertColour (c : Colour) (s : State) : Host.Outcome State Fault Refusal := runCommand (.col2idx c) s

/-- Explicit palette reset (R252). -/
def resetPalette (s : State) : Host.Outcome State Fault Refusal := runCommand .palreset s

end Sys2Proof.Machine
end

