-- ==== Sys2Proof/Safety.lean ====
section
/-! DEFINITION. What the spec says holds in every state after reset, as one invariant of named parts, and the vocabulary of the
claims: runs of the sequencer, what a search finds, what a filled column leaves. -/

namespace Sys2Proof.Machine

open Sys2Proof

/-! ## The invariant -/

/-- The memories keep their canonical form, and the canvas lists no address outside it (20_memory.md R60, R63). -/
structure State.MemoryOk (s : State) : Prop where
  canvas : Memory.wf s.canvas = true
  inside : ∀ p ∈ s.canvas, p.1 < s.cfg.canvasBytes
  buf : Memory.wf s.buf = true

/-- `16 <= COUNT <= 256`, indices 0 to 15 hold the standard colours, the colours in use are pairwise distinct
(10_state.md R23, R25; 40_palette_store.md R152, R153). -/
structure State.PaletteOk (s : State) : Prop where
  atLeast : 16 ≤ s.count.toNat
  atMost : s.count.toNat ≤ 256
  standard : ∀ i : Fin 16, palGet s.color (BitVec.ofNat 8 i.val) = s.cfg.std16[i.val]
  distinct : s.inUse.Nodup

/-- The triplet R22 gives slot `i`: the encoding of its colour when in use, else three times 0x000. -/
def State.dueTriplet (s : State) (i : PalIndex) : Triplet :=
  if i.toNat < s.count.toNat then encodeTriplet s.cfg.tmdsLut (palGet s.color i) s.inverted else ⟨0, 0, 0⟩

/-- Once the pending writes of the command in progress are made, every slot has the triplet R22 gives it (10_state.md R22,
40_palette_store.md R151); the pending writes go to different elements. Under the alternative reading `PS_COUNT_SATURATES` (D9)
slot 255 is never in use, and nothing is said of it. -/
structure State.TripletsOk (s : State) : Prop where
  due : ∀ i : PalIndex, ¬ (s.cfg.psCountSaturates = true ∧ i = 255) → (s.putAll s.pending).triplet i = s.dueTriplet i
  apart : (s.pending.map ElemWrite.target).Nodup

/-- `Y < L`; interlaced, `Y mod 2 = FIELD`; progressive, `FIELD = 0` (43_interlace_controller.md R213 to R215). -/
structure State.LineOk (s : State) : Prop where
  range : s.y.toNat < s.cfg.lines
  parity : s.cfg.ilace = true → s.y.toNat % 2 = s.field.toNat
  even : s.cfg.ilace = false → s.field = false

/-- What `HELD` is in each phase, and where FILL stands (10_state.md R30, R32; 42_scanline_generator.md R182;
43_interlace_controller.md R211). -/
def State.PositionOk (s : State) : Prop :=
  s.x ≤ s.cfg.activeWidth ∧
  match s.sgphase with
  | .idle | .poll | .waitfree | .halt => s.held = none
  | .fill =>
    (∃ h ∈ s.cfg.pool, s.held = some h) ∧ s.y.toNat < s.cfg.canvasHeight ∧ s.x < s.cfg.activeWidth ∧
      (s.fsub ≠ .idx → s.x < s.cfg.canvasWidth)
  | .retfree => (∃ h ∈ s.cfg.pool, s.held = some h) ∧ s.cfg.canvasHeight ≤ s.y.toNat
  | .emita | .adv => ∃ h, s.held = some h ∧ (h ∈ s.cfg.pool ∨ h = s.cfg.blankHandle)
  | .emitb => s.cfg.ilace = true ∧ ∃ h, s.held = some h ∧ (h ∈ s.cfg.pool ∨ h = s.cfg.blankHandle)

/-- Every pool handle is in exactly one place: `FREEQ`, owned by the SG, `READYQ`, or with the transport (60_exceptions.md R272). -/
def State.HandlesOk (s : State) : Prop :=
  ((s.freeq ++ s.owned.toList ++ s.readyq ++ s.xheld).filter (· != s.cfg.blankHandle)).Perm s.cfg.pool

/-- The invariant of the machine: what the spec says of every state after reset. -/
structure State.Inv (s : State) : Prop where
  config : s.cfg.wf = true
  memory : s.MemoryOk
  palette : s.PaletteOk
  triplets : s.TripletsOk
  line : s.LineOk
  position : s.PositionOk
  /-- Every word of `BLANKBUF` is `BLACKWORD` (10_state.md R35). -/
  blank : s.blankbuf = List.replicate s.cfg.bufWords s.cfg.blackWord
  handles : s.HandlesOk
  /-- The queues hold at most their capacities (20_memory.md R60). -/
  queues : s.freeq.length ≤ s.cfg.qfCap ∧ s.readyq.length ≤ s.cfg.qrCap

/-! ## Vocabulary of the claims -/

/-- The block's rows of the table of R294, but for the three registers it leaves unspecified. -/
structure State.IsReset (s : State) : Prop where
  standardColours : ∀ i : Fin 16, palGet s.color (BitVec.ofNat 8 i.val) = s.cfg.std16[i.val]
  otherColours : ∀ i : PalIndex, 16 ≤ i.toNat → palGet s.color i = 0
  standardTriplets : ∀ i : Fin 16,
    s.triplet (BitVec.ofNat 8 i.val) = encodeTriplet s.cfg.tmdsLut s.cfg.std16[i.val] false
  otherTriplets : ∀ i : PalIndex, 16 ≤ i.toNat → s.triplet i = ⟨0, 0, 0⟩
  count : s.count = 16
  inverted : s.inverted = false
  blank : s.blankbuf = List.replicate s.cfg.bufWords s.cfg.blackWord
  sgphase : s.sgphase = .idle
  y : s.y = 0
  x : s.x = 0
  fsub : s.fsub = .idx
  held : s.held = none
  exit : s.exit = false
  field : s.field = false

/-- No entry in use has the colour `c`: the exact search of R131 fails. -/
def State.Absent (s : State) (c : Colour) : Prop :=
  ∀ j : PalIndex, j.toNat < s.count.toNat → palGet s.color j ≠ c

/-- Colours `a` and `b` agree under the mask `M_t` (R133). -/
def SameUnder (t : Nat) (a b : Colour) : Prop := a &&& similarityMask t = b &&& similarityMask t

/-- No entry in use matches `c` at tolerance `t` (R133). -/
def State.NoneSimilar (s : State) (t : Nat) (c : Colour) : Prop :=
  ∀ j : PalIndex, j.toNat < s.count.toNat → ¬ SameUnder t (palGet s.color j) c

/-- `n` steps of the sequencer with no other party between them. -/
def runSg : Nat → State → Host.Outcome State Fault Refusal
  | 0, s => .next s
  | n + 1, s =>
    match sgTurn s with
    | .next t => runSg n t
    | .fault f => .fault f
    | .refused r => .refused r

/-- `n` steps of the machine, each the turn its agenda names. -/
def runSteps : Nat → State → Host.Outcome State Fault Refusal
  | 0, s => .next s
  | n + 1, s =>
    match step s with
    | .next t => runSteps n t
    | .fault f => .fault f
    | .refused r => .refused r

/-- `n` executions of one instruction, one after another. -/
def runInstr (i : Instr) : Nat → State → Host.Outcome State Fault Refusal
  | 0, s => .next s
  | n + 1, s =>
    match exec i s with
    | .next t => runInstr i n t
    | .fault f => .fault f
    | .refused r => .refused r

/-- `t` agrees with `s` on everything a command may not touch: the generator's and the environment's state, `BLANKBUF`, the
parameters and the agenda (20_memory.md R73, 42_scanline_generator.md R175). -/
structure SameGenerator (s t : State) : Prop where
  cfg : t.cfg = s.cfg
  blankbuf : t.blankbuf = s.blankbuf
  y : t.y = s.y
  x : t.x = s.x
  fsub : t.fsub = s.fsub
  idxreg : t.idxreg = s.idxreg
  rsym : t.rsym = s.rsym
  gsym : t.gsym = s.gsym
  held : t.held = s.held
  field : t.field = s.field
  canvas : t.canvas = s.canvas
  buf : t.buf = s.buf
  freeq : t.freeq = s.freeq
  readyq : t.readyq = s.readyq
  xheld : t.xheld = s.xheld
  filled : t.filled = s.filled
  agenda : t.agenda = s.agenda

/-- `t` agrees with `s` on everything a step of the sequencer may not touch: the palette, `EXIT`, `BLANKBUF`, the canvas, the
transport's handles, the command port, the responses, the parameters and the agenda (42_scanline_generator.md R175). -/
structure SamePalette (s t : State) : Prop where
  cfg : t.cfg = s.cfg
  color : t.color = s.color
  rtmds : t.rtmds = s.rtmds
  gtmds : t.gtmds = s.gtmds
  btmds : t.btmds = s.btmds
  count : t.count = s.count
  inverted : t.inverted = s.inverted
  blankbuf : t.blankbuf = s.blankbuf
  exit : t.exit = s.exit
  canvas : t.canvas = s.canvas
  xheld : t.xheld = s.xheld
  cmd : t.cmd = s.cmd
  rsp : t.rsp = s.rsp
  agenda : t.agenda = s.agenda

/-- What writing column `x` of buffer `h` with a triplet does to the buffers: each channel's word gets its slot (R66), every other word
of every buffer reads as before. -/
structure ColumnWritten (s t : State) (h : Handle) (x : Nat) (tr : Triplet) : Prop where
  slots : ∀ ch : Channel,
    t.bufWord h (slotWord s.cfg ch x) =
      setSlot (s.bufWord h (slotWord s.cfg ch x)) (x % s.cfg.symbolsPerWord) (tr.chan ch)
  others : ∀ (g : Handle) (n : Nat), n < s.cfg.bufWords → (∀ ch, ¬ (g = h ∧ n = slotWord s.cfg ch x)) →
    t.bufWord g n = s.bufWord g n

/-- The symbol R188 gives slot `x` of channel `ch` when neither the canvas row nor the triplet arrays change during the FILL. -/
def State.rowSymbol (s : State) (ch : Channel) (x : Nat) : Symbol :=
  if x < s.cfg.canvasWidth then palGet (s.symbols ch) (s.canvasRead s.y.toNat x) else s.cfg.blackSym

/-- The words of the buffer `h` after a FILL that nothing disturbed (R188). -/
def RowFilled (s t : State) (h : Handle) : Prop :=
  ∀ (ch : Channel) (w : Nat), w < s.cfg.segWords →
    t.bufWord h (s.cfg.segOrder.pos ch * s.cfg.segWords + w) =
      packWord (fun k => s.rowSymbol ch (w * s.cfg.symbolsPerWord + k)) s.cfg.symbolsPerWord

/-- Every word of every buffer but `h` reads as before. -/
def OtherBuffersKept (s t : State) (h : Handle) : Prop :=
  ∀ (g : Handle) (n : Nat), n < s.cfg.bufWords → g ≠ h → t.bufWord g n = s.bufWord g n

/-- Every pool handle published, or about to be, was filled since RESET (42_scanline_generator.md R194 case 3,
70_reset_and_hazards.md R295). -/
structure State.PublishedOk (s : State) : Prop where
  ready : ∀ h ∈ s.readyq, h ∈ s.cfg.pool → h ∈ s.filled
  emitting : s.sgphase = .emita ∨ s.sgphase = .emitb → ∀ h, s.held = some h → h ∈ s.cfg.pool → h ∈ s.filled

/-- The handles an iteration with the real line `h` pushes to the ready queue, in order (R192, R216). -/
def State.emission (s : State) (h : Handle) : List Handle :=
  if !s.cfg.ilace then [h] else if !s.field then [h, s.cfg.blankHandle] else [s.cfg.blankHandle, h]

end Sys2Proof.Machine
end

