-- ==== Sys2Proof/Certificates/Slice0/Obligations.lean ====
section
/-! DEFINITION. The statements for the provers. Each docstring names the rule of spec/ it formalises, or says that it is derived. -/

open Sys2Proof Sys2Proof.Machine

/-! ## Reset, the invariant, the stops -/

/-- R294: RESET leaves the block's state as the table says, and what the table says the block does not set as it was. The machine
after reset is such a state. -/
def Obligations.ResetGivesTheResetTable : Prop :=
  State.reset.IsReset ∧
  ∀ (s : State) (es : List Event), s.cfg.wf = true → s.cmd = none → s.agenda = .reset :: es →
    ∃ t, step s = .next t ∧ t.IsReset ∧ t.cfg = s.cfg ∧ t.canvas = s.canvas ∧ t.buf = s.buf ∧ t.freeq = s.freeq ∧
      t.readyq = s.readyq ∧ t.cmd = none

/-- Derived (R22, R23, R25, R29, R32, R35): the invariant holds after reset, for every well-formed configuration and for the
machine's own. It rests on notes/assumptions/8.md (the transport holds the pool) and 2.md (the configuration). -/
def Obligations.InvariantHoldsAtReset : Prop :=
  (∀ c : Config, c.wf = true → (State.resetOf c).Inv) ∧ State.reset.Inv

/-- Derived (R22, R23, R25, R32, R35, R151, R152, R153, R214, R215, R272): every step, whichever party takes it, keeps the
invariant. Three parts of it are the model's choice: that a RESET gives the handle the sequencer owned back to the transport
(notes/assumptions/16.md), that handles are placed by ownership and not by `HELD` (27.md), and that slot 255 is left out under
`PS_COUNT_SATURATES` (19.md). -/
def Obligations.StepKeepsInvariant : Prop :=
  ∀ s t : State, s.Inv → step s = .next t → t.Inv

/-- Derived (R260, R62): from a state meeting the invariant no command and no step of the sequencer faults; only a
drawing-layer write outside the canvas does, and that this one faults is the model's choice (notes/assumptions/26.md). -/
def Obligations.OnlyADrawOutsideTheCanvasFaults : Prop :=
  ∀ (s : State) (f : Fault), s.Inv →
    (step s = .fault f ↔ f = .outsideCanvas ∧ ∃ x y b, s.nextEvent = .draw x y b ∧ inCanvas s.cfg x y = false)

/-- Derived (R300 H12, R100, R276, R290; U16, U17, U18): the refusals are exactly an ill-formed configuration, a second command
before the response, a handle pushed that the transport does not hold, and a RESET during a command. -/
def Obligations.StepRefusesExactlyBreaches : Prop :=
  ∀ (s : State) (r : Refusal), step s = .refused r ↔
    (s.cfg.wf = false ∧ r = .illFormedConfig) ∨
    (s.cfg.wf = true ∧ r = .commandBeforeResponse ∧ s.cmd ≠ none ∧ ∃ w, s.nextEvent = .host w) ∨
    (s.cfg.wf = true ∧ r = .transportBreach ∧ ∃ h, s.nextEvent = .push h ∧ h ∉ s.xheld) ∨
    (s.cfg.wf = true ∧ r = .resetDuringCommand ∧ s.cmd ≠ none ∧ s.nextEvent = .reset)

/-! ## Steps run the decoded instruction; encodings -/

/-- Derived (R100, R102): the host's turn runs the command its word decodes to, with the turn taken off the agenda. -/
def Obligations.HostTurnRunsTheDecodedCommand : Prop :=
  ∀ (s : State) (w : Word) (es : List Event) (i : Instr), s.cfg.wf = true → s.cmd = none → s.agenda = .host w :: es →
    decode (.command w) = .ok i → step s = exec i { s with agenda := es }

/-- Derived (R110, R175): the sequencer's turn runs the instruction its phase code decodes to. With no turn named and no command in
progress it is the sequencer's turn (the model's choice, notes/assumptions/9.md). -/
def Obligations.SequencerTurnRunsItsPhase : Prop :=
  ∀ s : State, s.cfg.wf = true →
    ∃ i, decode (.phase s.sgphase.code) = .ok i ∧
      (∀ es, s.agenda = .sg :: es → step s = exec i { s with agenda := es }) ∧
      (s.agenda = [] → s.cmd = none → step s = exec i s)

/-- R236: a reserved command word answers `0x80000000` and changes no register, array, queue or memory. -/
def Obligations.ReservedWordIsRefused : Prop :=
  ∀ (s : State) (w : Word) (es : List Event) (r : Reserved), s.cfg.wf = true → s.cmd = none →
    s.agenda = .host w :: es → decode (.command w) = .error r →
    step s = .next { s with agenda := es, rsp := s.rsp ++ [0x80000000] }

/-- R102: a word selects a command exactly when its masked bits equal the row's match, and the operands are the bits the rows
give them; a word that matches no row decodes to none (R105). -/
def Obligations.CommandsAreSelectedByMatchAndMask : Prop :=
  ∀ w : Word,
    (w &&& 0xFFFF0000 = 0x01000000 ↔ decode (.command w) = .ok (.col2idx (w.extractLsb' 0 16))) ∧
    (w &&& 0xFFFFFFFF = 0x02000000 ↔ decode (.command w) = .ok .palreset) ∧
    (w &&& 0xFFFFFFFE = 0x03000000 ↔ decode (.command w) = .ok (.invert (w.getLsbD 0))) ∧
    (w &&& 0xFFFFFF00 = 0x04000000 ↔ decode (.command w) = .ok (.idx2col (w.extractLsb' 0 8))) ∧
    (w &&& 0xFFFFFFFF = 0x05000000 ↔ decode (.command w) = .ok .sgstart) ∧
    (w &&& 0xFFFFFFFF = 0x06000000 ↔ decode (.command w) = .ok .sgstop) ∧
    (w &&& 0xFFFFFFFF = 0x07000000 ↔ decode (.command w) = .ok .rdstat) ∧
    ((∃ r, decode (.command w) = .error r) ↔
      w &&& 0xFFFF0000 ≠ 0x01000000 ∧ w ≠ 0x02000000 ∧ w &&& 0xFFFFFFFE ≠ 0x03000000 ∧
        w &&& 0xFFFFFF00 ≠ 0x04000000 ∧ w ≠ 0x05000000 ∧ w ≠ 0x06000000 ∧ w ≠ 0x07000000)

/-- Derived (R101, R102, R110): decoding the encoding of an instruction gives it back, with every operand. -/
def Obligations.DecodingAnEncodingGivesTheInstruction : Prop :=
  ∀ i : Instr, decode (encode i) = .ok i

/-- Derived (R102, R110): a word or code that decodes is the encoding of what it decodes to, so each instruction has one. -/
def Obligations.DecodableCodesAreEncodings : Prop :=
  ∀ (c : Code) (i : Instr), decode c = .ok i → encode i = c

/-- R106: the worked encodings, and the words it lists as reserved. -/
def Obligations.WorkedEncodingsDecode : Prop :=
  decode (.command 0x0100F800) = .ok (.col2idx 0xF800) ∧ decode (.command 0x01000000) = .ok (.col2idx 0x0000) ∧
  decode (.command 0x02000000) = .ok .palreset ∧ decode (.command 0x03000001) = .ok (.invert true) ∧
  decode (.command 0x03000000) = .ok (.invert false) ∧ decode (.command 0x0400000C) = .ok (.idx2col 12) ∧
  decode (.command 0x05000000) = .ok .sgstart ∧ decode (.command 0x06000000) = .ok .sgstop ∧
  decode (.command 0x07000000) = .ok .rdstat ∧
  ∀ w ∈ [0x00000000, 0x08000000, 0x01010000, 0x03000002, 0x04000100, 0x02000001],
    ∃ r, decode (.command w) = .error r

/-! ## COL2IDX -/

/-- R131: an entry in use with the colour answers its index, the lowest first, and nothing else changes. -/
def Obligations.ExactMatchAnswersItsIndex : Prop :=
  ∀ (s : State) (c : Colour) (i : PalIndex), i.toNat < s.count.toNat → palGet s.color i = c →
    (∀ j : PalIndex, j.toNat < i.toNat → palGet s.color j ≠ c) →
    exec (.col2idx c) s = .next { s with rsp := s.rsp ++ [i.setWidth 32] }

/-- Derived (R132; R71, R73): with fewer than 255 entries in use a new colour goes to index `COUNT`, with its triplet under the current
inversion, and `COUNT` grows by one. That `COLOR` and `COUNT` change in the accepting step, the triplet writes being left pending, is
the model's choice (notes/assumptions/11.md); the last clause is the state when they are made and the response is sent, with no other
turn between. -/
def Obligations.NewColourIsAppended : Prop :=
  ∀ (s : State) (c : Colour), s.count.toNat < 255 → s.Absent c →
    let i : PalIndex := s.count.setWidth 8
    let tr := encodeTriplet s.cfg.tmdsLut c s.inverted
    ∃ t, exec (.col2idx c) s = .next t ∧
      t = { s with color := palSet s.color i c, count := s.count + 1, cmd := t.cmd } ∧
      t.finish = { s with
        color := palSet s.color i c
        count := s.count + 1
        rtmds := palSet s.rtmds i tr.r
        gtmds := palSet s.gtmds i tr.g
        btmds := palSet s.btmds i tr.b
        cmd := none
        rsp := s.rsp ++ [s.count.setWidth 32] }

/-- R8, R133: the masks are `M_1 = 0xF7DE`, `M_2 = 0xE79C`, `M_3 = 0xC718`; with at least 255 entries in use and no exact match, the
first index that matches under the mask of the tightest tolerance at which any does is answered, `EXH = 0`, and nothing else changes. -/
def Obligations.SimilarColourAnswersItsIndex : Prop :=
  (∀ a b : Colour,
    (SameUnder 1 a b ↔ a &&& 0xF7DE = b &&& 0xF7DE) ∧ (SameUnder 2 a b ↔ a &&& 0xE79C = b &&& 0xE79C) ∧
    (SameUnder 3 a b ↔ a &&& 0xC718 = b &&& 0xC718)) ∧
  ∀ (s : State) (c : Colour) (t : Nat) (i : PalIndex), 255 ≤ s.count.toNat → s.Absent c → 1 ≤ t → t ≤ 3 →
    (∀ u, 1 ≤ u → u < t → s.NoneSimilar u c) → i.toNat < s.count.toNat → SameUnder t (palGet s.color i) c →
    (∀ j : PalIndex, j.toNat < i.toNat → ¬ SameUnder t (palGet s.color j) c) →
    exec (.col2idx c) s = .next { s with rsp := s.rsp ++ [i.setWidth 32] }

/-- Derived (R134; D9; R71, R73): with no match at any tolerance slot 255 is overwritten, `COUNT` becomes 256, and the response is index 255
with `EXH = 1`. Under the alternative reading `PS_COUNT_SATURATES` of D9 `COUNT` stays (the model's choice to cover both,
notes/assumptions/19.md). That `COLOR` and `COUNT` change in the accepting step, the triplet writes being left pending, is the
model's choice (11.md); the last clause is the state when they are made and the response is sent. -/
def Obligations.UnmatchedColourOverwritesTheLastSlot : Prop :=
  ∀ (s : State) (c : Colour), 255 ≤ s.count.toNat → s.Absent c →
    (∀ t, 1 ≤ t → t ≤ 3 → s.NoneSimilar t c) →
    let tr := encodeTriplet s.cfg.tmdsLut c s.inverted
    let n : BitVec 9 := if s.cfg.psCountSaturates then s.count else 256
    ∃ t, exec (.col2idx c) s = .next t ∧
      t = { s with color := palSet s.color 255 c, count := n, cmd := t.cmd } ∧
      t.finish = { s with
        color := palSet s.color 255 c
        count := n
        rtmds := palSet s.rtmds 255 tr.r
        gtmds := palSet s.gtmds 255 tr.g
        btmds := palSet s.btmds 255 tr.b
        cmd := none
        rsp := s.rsp ++ [0x000001FF] }

/-- Derived (R261, R104): COL2IDX always answers an index, and reports exhaustion exactly when `COUNT >= 255` and the colour
matches no entry in use, exactly or under any mask; the index is then 255. -/
def Obligations.ExhaustionIsReportedExactlyOnOverwrite : Prop :=
  ∀ (s : State) (c : Colour), s.cmd = none →
    ∃ t w, exec (.col2idx c) s = .next t ∧ t.finish.rsp = s.rsp ++ [w] ∧
      (w.getLsbD 8 = true ↔
        255 ≤ s.count.toNat ∧ s.Absent c ∧ ∀ t, 1 ≤ t → t ≤ 3 → s.NoneSimilar t c) ∧
      (w.getLsbD 8 = true → w.extractLsb' 0 8 = 255) ∧ w.extractLsb' 9 23 = 0

/-! ## The other palette commands, and every command -/

/-- Derived (R136, R137; R71, R73): PALRESET gives the palette its reset contents, encoded with inversion off whatever it was before,
answers 0, and changes nothing else. That `INVERTED`, `COUNT` and `COLOR` change in the accepting step, the triplet writes being left
pending, is the model's choice (notes/assumptions/11.md); `t.finish` is the state when they are made with no other turn between. -/
def Obligations.PalresetGivesTheResetPalette : Prop :=
  ∀ s : State, ∃ t, exec .palreset s = .next t ∧
    t = { s with inverted := false, count := 16, color := t.color, cmd := t.cmd } ∧
    (∀ i : Fin 16, palGet t.color (BitVec.ofNat 8 i.val) = s.cfg.std16[i.val]) ∧
    (∀ i : PalIndex, 16 ≤ i.toNat → palGet t.color i = 0) ∧
    (∀ i : Fin 16,
      t.finish.triplet (BitVec.ofNat 8 i.val) = encodeTriplet s.cfg.tmdsLut s.cfg.std16[i.val] false) ∧
    (∀ i : PalIndex, 16 ≤ i.toNat → t.finish.triplet i = ⟨0, 0, 0⟩) ∧
    t.finish = { t with
      rtmds := t.finish.rtmds
      gtmds := t.finish.gtmds
      btmds := t.finish.btmds
      cmd := none
      rsp := s.rsp ++ [0] }

/-- Derived (R139; R71, R73): INVERT with the current flag only answers; with the other it sets the flag and recomputes the triplet of every
entry in use, leaving the other slots, the colours and everything else as they were. That the flag changes in the accepting step, the
triplet writes being left pending, is the model's choice (notes/assumptions/11.md); `t.finish` is the state when they are made with
no other turn between. -/
def Obligations.InvertRecomputesEntriesInUse : Prop :=
  ∀ (s : State) (f : Bool),
    (f = s.inverted → exec (.invert f) s = .next { s with rsp := s.rsp ++ [0] }) ∧
    (f ≠ s.inverted → ∃ t, exec (.invert f) s = .next t ∧ t = { s with inverted := f, cmd := t.cmd } ∧
      (∀ i : PalIndex, t.finish.triplet i =
        if i.toNat < s.count.toNat then encodeTriplet s.cfg.tmdsLut (palGet s.color i) f else s.triplet i) ∧
      t.finish = { s with
        inverted := f
        rtmds := t.finish.rtmds
        gtmds := t.finish.gtmds
        btmds := t.finish.btmds
        cmd := none
        rsp := s.rsp ++ [0] })

/-- Derived (R141): from a state whose entries in use hold their non-inverted triplets, `INVERT 1` then `INVERT 0` restores the
state, the two responses apart. -/
def Obligations.InversionRoundTripRestoresTheState : Prop :=
  ∀ s : State, s.cmd = none → s.inverted = false →
    (∀ i : PalIndex, i.toNat < s.count.toNat →
      s.triplet i = encodeTriplet s.cfg.tmdsLut (palGet s.color i) false) →
    ∃ t u, exec (.invert true) s = .next t ∧ exec (.invert false) t.finish = .next u ∧
      u.finish = { s with rsp := s.rsp ++ [0, 0] }

/-- R142: IDX2COL answers the stored colour of the slot, zero-extended, and changes nothing else. -/
def Obligations.Idx2colAnswersTheStoredColour : Prop :=
  ∀ (s : State) (i : PalIndex), exec (.idx2col i) s = .next { s with rsp := s.rsp ++ [(palGet s.color i).setWidth 32] }

/-- Derived (R100, R104, R71): every command, accepted when none is in progress, answers exactly one response, with `ERR = 0`, after its last
element write; and turns of the command agent bring it there: some number of them makes its writes and sends its response. That the
state `t.finish` is reached with no other party's turn between is one of the admitted schedules (notes/assumptions/9.md, 11.md). -/
def Obligations.EveryCommandRespondsOnceWithoutError : Prop :=
  ∀ (s : State) (i : Instr) (w : Word), encode i = .command w → s.cmd = none →
    ∃ t v, exec i s = .next t ∧ t.finish.rsp = s.rsp ++ [v] ∧ t.finish.cmd = none ∧ v.getLsbD 31 = false ∧
      (t.cmd = none ∨ t.rsp = s.rsp) ∧
      (s.cfg.wf = true → ∀ es : List Event, ∃ n,
        runSteps n { t with agenda := List.replicate n (.agent 0) ++ es } = .next { t.finish with agenda := es })

/-- Derived (R71, R154): whichever pending element write the command agent makes next, the command ends in the same state, the
pending writes going to different elements; and in whatever order its turns name them, one turn for each write and one for the
response lead the machine to that state. -/
def Obligations.WriteOrderDoesNotMatter : Prop :=
  (∀ (s : State) (k : Nat), (s.pending.map ElemWrite.target).Nodup → (s.agentStep k).finish = s.finish) ∧
  ∀ (s : State) (c : Command) (ks : List Nat) (es : List Event), s.cfg.wf = true → s.cmd = some c →
    (c.writes.map ElemWrite.target).Nodup → ks.length = c.writes.length + 1 →
    (∀ i k, ks[i]? = some k → i < c.writes.length → k + i < c.writes.length) →
    s.agenda = ks.map Event.agent ++ es → runSteps ks.length s = .next { s.finish with agenda := es }

/-- Derived (R73, R175): a command touches nothing of the generator's and the environment's state, in its accepting step or
later; only SGSTART writes `SGPHASE` and only SGSTOP writes `EXIT`. That the accepting step writes no triplet is the model's choice
(notes/assumptions/11.md: the triplet writes are left pending). -/
def Obligations.CommandsLeaveTheGenerator : Prop :=
  ∀ (s t : State) (i : Instr) (w : Word), encode i = .command w → exec i s = .next t →
    SameGenerator s t ∧ SameGenerator s t.finish ∧
    (i ≠ .sgstart → t.sgphase = s.sgphase) ∧ (i ≠ .sgstop → t.exit = s.exit) ∧
    t.rtmds = s.rtmds ∧ t.gtmds = s.gtmds ∧ t.btmds = s.btmds ∧
    ((∀ c, i ≠ .col2idx c) → i ≠ .palreset → t.color = s.color ∧ t.count = s.count)

/-! ## System commands -/

/-- R230: SGSTART moves the sequencer from IDLE to POLL and in any other phase changes nothing; it answers 0. -/
def Obligations.SgstartStartsOnlyFromIdle : Prop :=
  ∀ s : State,
    (s.sgphase = .idle → exec .sgstart s = .next { s with sgphase := .poll, rsp := s.rsp ++ [0] }) ∧
    (s.sgphase ≠ .idle → exec .sgstart s = .next { s with rsp := s.rsp ++ [0] })

/-- R231: SGSTOP sets `EXIT`, answers 0 and changes nothing else; no command clears `EXIT`. -/
def Obligations.SgstopRaisesExit : Prop :=
  (∀ s : State, exec .sgstop s = .next { s with exit := true, rsp := s.rsp ++ [0] }) ∧
  (∀ (s t : State) (i : Instr) (w : Word), encode i = .command w → exec i s = .next t → s.exit = true → t.exit = true)

/-- R232: RDSTAT answers the six fields at their bits, bit 31 zero, and changes nothing else. -/
def Obligations.RdstatAnswersTheStatusFields : Prop :=
  ∀ s : State, ∃ w : Word, exec .rdstat s = .next { s with rsp := s.rsp ++ [w] } ∧
    w.extractLsb' 0 9 = s.count ∧ w.getLsbD 9 = s.inverted ∧ w.getLsbD 10 = s.exit ∧ w.getLsbD 11 = s.field ∧
    w.extractLsb' 12 4 = s.sgphase.code ∧ w.extractLsb' 16 15 = s.y ∧ w.getLsbD 31 = false

/-! ## The scanline generator -/

/-- Derived (R175): a step of the sequencer touches neither the palette nor `EXIT`, `BLANKBUF`, the canvas, the transport's
handles or the command agent's state. -/
def Obligations.SequencerLeavesThePalette : Prop :=
  ∀ (s t : State) (i : Instr) (c : BitVec 4), encode i = .phase c → exec i s = .next t → SamePalette s t

/-- R176, R178: IDLE and HALT do nothing; IDLE is left only by SGSTART, to POLL; HALT is left only by RESET, and holds no buffer. -/
def Obligations.IdleAndHaltWait : Prop :=
  (∀ s : State, exec .idle s = .next s ∧ exec .halt s = .next s) ∧
  (∀ s t : State, step s = .next t → s.sgphase = .idle → t.sgphase ≠ .idle →
    t.sgphase = .poll ∧ ∃ w, s.nextEvent = .host w ∧ decode (.command w) = .ok .sgstart) ∧
  (∀ s t : State, step s = .next t → s.sgphase = .halt → t.sgphase ≠ .halt → s.nextEvent = .reset) ∧
  (∀ s : State, s.Inv → s.sgphase = .halt → s.held = none)

/-- R177: POLL goes to HALT when `EXIT` is set, else to WAITFREE; no other step enters HALT. -/
def Obligations.PollIsTheOnlyWayToHalt : Prop :=
  (∀ s : State, exec .poll s = .next { s with sgphase := if s.exit then .halt else .waitfree }) ∧
  (∀ s t : State, step s = .next t → s.sgphase ≠ .halt → t.sgphase = .halt → s.sgphase = .poll ∧ s.exit = true)

/-- R179, R180: WAITFREE waits on an empty free queue; else it pops the head: the blank handle is dropped and the iteration ends; a
buffer is taken to be filled when `Y < CH`, else to be returned. -/
def Obligations.WaitfreeTakesOrDiscards : Prop :=
  (∀ s : State, s.freeq = [] → exec .waitfree s = .next s) ∧
  ∀ (s : State) (h : Handle) (q : List Handle), s.freeq = h :: q →
    (h = s.cfg.blankHandle → exec .waitfree s = .next { s with freeq := q, sgphase := .poll }) ∧
    (h ≠ s.cfg.blankHandle → s.y.toNat < s.cfg.canvasHeight →
      exec .waitfree s = .next { s with freeq := q, held := some h, x := 0, fsub := .idx, sgphase := .fill }) ∧
    (h ≠ s.cfg.blankHandle → s.cfg.canvasHeight ≤ s.y.toNat →
      exec .waitfree s = .next { s with freeq := q, held := some h, sgphase := .retfree })

/-- R183, R184, R185: sub-step IDX reads the canvas byte, RED and GRN read one triplet element each; nothing else changes. -/
def Obligations.FillReadsCanvasThenRedThenGreen : Prop :=
  ∀ s : State,
    (s.fsub = .idx → s.x < s.cfg.canvasWidth → s.y.toNat < s.cfg.canvasHeight →
      exec .fill s = .next { s with
        idxreg := Memory.read s.canvas (s.y.toNat * s.cfg.canvasWidth + s.x)
        fsub := .red }) ∧
    (s.fsub = .red → exec .fill s = .next { s with rsym := palGet s.rtmds s.idxreg, fsub := .grn }) ∧
    (s.fsub = .grn → exec .fill s = .next { s with gsym := palGet s.gtmds s.idxreg, fsub := .blu })

/-- Derived (R186): sub-step BLU reads the blue element, writes the three slots of column `X`, and goes to the next column or, after the
last, to EMITA; every other word of every buffer reads as before. That `IDXREG`, `RSYM` and `GSYM` keep their values at the end of
the column, where R31 leaves them unspecified, is the model's choice (notes/assumptions/5.md); the model's record of filled buffers
(36.md) has a statement of its own. -/
def Obligations.FillBluWritesTheColumn : Prop :=
  ∀ (s : State) (h : Handle), s.cfg.wf = true → Memory.wf s.buf = true → s.fsub = .blu → s.held = some h →
    h ∈ s.cfg.pool → s.x < s.cfg.activeWidth →
    ∃ t, exec .fill s = .next t ∧
      t = { s with
        buf := t.buf
        fsub := .idx
        x := s.x + 1
        sgphase := if s.x + 1 = s.cfg.activeWidth then .emita else s.sgphase
        filled := t.filled } ∧
      ColumnWritten s t h s.x ⟨s.rsym, s.gsym, palGet s.btmds s.idxreg⟩

/-- Derived (R187): a padding column writes the constant black symbol to its three slots, reads nothing, and goes on as R186 does. That
`IDXREG`, `RSYM` and `GSYM` keep their values, where R31 leaves them unspecified, is the model's choice (notes/assumptions/5.md); the
model's record of filled buffers (36.md) has a statement of its own. -/
def Obligations.FillPadsWithBlack : Prop :=
  ∀ (s : State) (h : Handle), s.cfg.wf = true → Memory.wf s.buf = true → s.fsub = .idx →
    s.cfg.canvasWidth ≤ s.x → s.held = some h → h ∈ s.cfg.pool → s.x < s.cfg.activeWidth →
    ∃ t, exec .fill s = .next t ∧
      t = { s with
        buf := t.buf
        x := s.x + 1
        sgphase := if s.x + 1 = s.cfg.activeWidth then .emita else s.sgphase
        filled := t.filled } ∧
      ColumnWritten s t h s.x
        ⟨lutRead s.cfg.tmdsLut 0, lutRead s.cfg.tmdsLut 0, lutRead s.cfg.tmdsLut 0⟩

/-- Derived (R65, R66): writing slot `k` of a word puts the symbol at bits `10k+9 : 10k`; slot 0 clears every other bit, the others keep
every other bit. -/
def Obligations.SlotWriteSetsTenBits : Prop :=
  ∀ (w : Word) (k : Nat) (v : Symbol), k < 3 →
    (setSlot w k v).extractLsb' (10 * k) 10 = v ∧
    ∀ i, i < 32 → i < 10 * k ∨ 10 * k + 10 ≤ i →
      (setSlot w k v).getLsbD i = if k = 0 then false else w.getLsbD i

/-- Derived (R188): a FILL that nothing disturbs takes `4*CW + (A - CW)` steps, ends with `X = A`, `FSUB = 0`, `SGPHASE = EMITA`, and leaves in
every word of the buffer the packed symbols of the row and the padding; no other buffer's word changes. The buffer
counts as filled then (the model's record, notes/assumptions/36.md). -/
def Obligations.UndisturbedFillWritesTheRow : Prop :=
  ∀ (s : State) (h : Handle), s.Inv → s.sgphase = .fill → s.held = some h → s.x = 0 → s.fsub = .idx →
    ∃ t, runSg (4 * s.cfg.canvasWidth + (s.cfg.activeWidth - s.cfg.canvasWidth)) s = .next t ∧
      t = { s with
        buf := t.buf
        x := s.cfg.activeWidth
        idxreg := t.idxreg
        rsym := t.rsym
        gsym := t.gsym
        sgphase := .emita
        filled := s.filled.insert h } ∧
      RowFilled s t h ∧ OtherBuffersKept s t h

/-- R190: RETFREE waits on a full free queue; else it gives the buffer back to the tail of the queue unwritten, takes the blank handle as
the line to emit, and goes to EMITA. -/
def Obligations.RetfreeReturnsTheBuffer : Prop :=
  (∀ s : State, s.cfg.qfCap ≤ s.freeq.length → exec .retfree s = .next s) ∧
  ∀ (s : State) (h : Handle), s.held = some h → s.freeq.length < s.cfg.qfCap →
    exec .retfree s =
      .next { s with freeq := s.freeq ++ [h], held := some s.cfg.blankHandle, sgphase := .emita }

/-! ## The interlace controller -/

/-- R210: EMITA waits on a full ready queue; else it publishes the real line, or, interlaced in the odd field, the blank; the real line
is a pool buffer or the blank handle. -/
def Obligations.EmitaPublishesTheFirstLine : Prop :=
  (∀ s : State, s.cfg.qrCap ≤ s.readyq.length → exec .emita s = .next s) ∧
  (∀ s : State, s.Inv → s.sgphase = .emita → ∃ h, s.held = some h ∧ (h ∈ s.cfg.pool ∨ h = s.cfg.blankHandle)) ∧
  ∀ (s : State) (h : Handle), s.held = some h → s.readyq.length < s.cfg.qrCap →
    (s.cfg.ilace = false → exec .emita s = .next { s with readyq := s.readyq ++ [h], sgphase := .adv }) ∧
    (s.cfg.ilace = true → s.field = false →
      exec .emita s = .next { s with readyq := s.readyq ++ [h], sgphase := .emitb }) ∧
    (s.cfg.ilace = true → s.field = true →
      exec .emita s = .next { s with readyq := s.readyq ++ [s.cfg.blankHandle], sgphase := .emitb })

/-- R211: EMITB waits on a full ready queue; else it publishes the blank in the even field, the real line in the odd; it is reached only
from EMITA and only when interlaced. -/
def Obligations.EmitbPublishesTheSecondLine : Prop :=
  (∀ s : State, s.cfg.qrCap ≤ s.readyq.length → exec .emitb s = .next s) ∧
  (∀ (s : State) (h : Handle), s.held = some h → s.readyq.length < s.cfg.qrCap →
    (s.field = false →
      exec .emitb s = .next { s with readyq := s.readyq ++ [s.cfg.blankHandle], sgphase := .adv }) ∧
    (s.field = true → exec .emitb s = .next { s with readyq := s.readyq ++ [h], sgphase := .adv })) ∧
  (∀ s t : State, step s = .next t → s.sgphase ≠ .emitb → t.sgphase = .emitb →
    s.sgphase = .emita ∧ s.cfg.ilace = true)

/-- R212: ADV drops the held handle, advances `Y` and `FIELD` in one step, and goes to POLL. -/
def Obligations.AdvAdvancesTheLine : Prop :=
  ∀ s : State, s.cfg.wf = true →
    ∃ t, exec .adv s = .next t ∧ t = { s with held := none, y := t.y, field := t.field, sgphase := .poll } ∧
      (s.cfg.ilace = false → t.y.toNat = (s.y.toNat + 1) % s.cfg.lines ∧ t.field = s.field) ∧
      (s.cfg.ilace = true → s.y.toNat + 2 < s.cfg.lines → t.y.toNat = s.y.toNat + 2 ∧ t.field = s.field) ∧
      (s.cfg.ilace = true → s.cfg.lines ≤ s.y.toNat + 2 → t.field = !s.field ∧ t.y.toNat = t.field.toNat)

/-- Derived (R214, R216): from line 0 of the even field, `k` advances reach line `k mod L` when progressive; when interlaced the even lines in
order, then the odd lines, and after `L` advances line 0 of the even field again. -/
def Obligations.LinesAreVisitedFieldByField : Prop :=
  ∀ s : State, s.cfg.wf = true → s.y = 0 → s.field = false → ∀ k : Nat,
    ∃ t, runInstr .adv k s = .next t ∧
      (s.cfg.ilace = false → t.y.toNat = k % s.cfg.lines ∧ t.field = false) ∧
      (s.cfg.ilace = true →
        let m := k % s.cfg.lines
        if m < s.cfg.lines / 2 then t.y.toNat = 2 * m ∧ t.field = false
        else t.y.toNat = 2 * (m - s.cfg.lines / 2) + 1 ∧ t.field = true)

/-- Derived (R192, R216, R313): an undisturbed iteration with a row of the canvas takes the buffer at the head of the free queue, fills
it with the row, publishes it (with the blank after it in an even field, before it in an odd field, when interlaced), advances, and
is back at POLL, in the number of steps R313 gives. The buffer counts as filled then (the model's record, notes/assumptions/36.md). -/
def Obligations.RealIterationPublishesTheFilledBuffer : Prop :=
  ∀ (s : State) (h : Handle) (q : List Handle), s.Inv → s.sgphase = .poll → s.exit = false → s.freeq = h :: q →
    h ≠ s.cfg.blankHandle → s.y.toNat < s.cfg.canvasHeight →
    s.readyq.length + (s.emission h).length ≤ s.cfg.qrCap →
    ∃ t, runSg (4 * s.cfg.canvasWidth + (s.cfg.activeWidth - s.cfg.canvasWidth) + (s.emission h).length + 3) s =
        .next t ∧
      t = { s with
        freeq := q
        readyq := s.readyq ++ s.emission h
        buf := t.buf
        filled := s.filled.insert h
        x := s.cfg.activeWidth
        fsub := .idx
        idxreg := t.idxreg
        rsym := t.rsym
        gsym := t.gsym
        y := t.y
        field := t.field } ∧
      (t.y.toNat, t.field) = nextLine s.cfg s.y.toNat s.field ∧ RowFilled s t h ∧ OtherBuffersKept s t h

/-- Derived (R190, R191, R192, R219): an undisturbed iteration below the canvas returns the buffer to the tail of the free queue and
publishes the blank handle, twice when interlaced; no buffer is written. -/
def Obligations.PaddingIterationPublishesTheBlank : Prop :=
  ∀ (s : State) (h : Handle) (q : List Handle), s.Inv → s.sgphase = .poll → s.exit = false → s.freeq = h :: q →
    h ≠ s.cfg.blankHandle → s.cfg.canvasHeight ≤ s.y.toNat →
    s.readyq.length + (s.emission s.cfg.blankHandle).length ≤ s.cfg.qrCap →
    ∃ t, runSg ((s.emission s.cfg.blankHandle).length + 4) s = .next t ∧
      t = { s with
        freeq := q ++ [h]
        readyq := s.readyq ++ List.replicate (s.emission h).length s.cfg.blankHandle
        y := t.y
        field := t.field } ∧
      (t.y.toNat, t.field) = nextLine s.cfg s.y.toNat s.field

/-- Derived (R180, R192): an iteration that pops the blank handle drops it and changes nothing else. -/
def Obligations.DiscardIterationOnlyDropsTheBlank : Prop :=
  ∀ (s : State) (q : List Handle), s.sgphase = .poll → s.exit = false → s.freeq = s.cfg.blankHandle :: q →
    runSg 2 s = .next { s with freeq := q }

/-! ## The whole machine -/

/-- R9: no command and no step, of any party, changes a parameter. -/
def Obligations.NoStepChangesAParameter : Prop :=
  ∀ s t : State, step s = .next t → t.cfg = s.cfg

/-- R35: `BLANKBUF` is `BUFWORDS` black words from reset on; no step but RESET writes it, whatever `INVERTED` is; the transport reads it
through `BLANK_HANDLE`. R15: `TMDS_LUT[0]` is the symbol of black in every channel, and a
black word holds it in each of its `SPW` slots, with 0 above them (R67). -/
def Obligations.BlankLineIsNeverWritten : Prop :=
  (∀ c : Config, c.wf = true →
    encodeTriplet c.tmdsLut 0x0000 false = ⟨c.tmdsLut[0], c.tmdsLut[0], c.tmdsLut[0]⟩ ∧
    (∀ k, k < c.symbolsPerWord → c.blackWord.extractLsb' (10 * k) 10 = c.tmdsLut[0]) ∧
    ∀ i, 10 * c.symbolsPerWord ≤ i → c.blackWord.getLsbD i = false) ∧
  (∀ c : Config, (State.resetOf c).blankbuf = List.replicate c.bufWords c.blackWord) ∧
  (∀ s t : State, step s = .next t → s.nextEvent ≠ .reset → t.blankbuf = s.blankbuf) ∧
  (∀ s t : State, s.Inv → step s = .next t → t.blankbuf.length = t.cfg.bufWords ∧ ∀ w ∈ t.blankbuf, w = t.cfg.blackWord) ∧
  (∀ (s : State) (n : Nat), s.Inv → s.cfg.blankHandle ∈ s.xheld → n < s.cfg.bufWords →
    s.transportRead s.cfg.blankHandle n = some s.cfg.blackWord)

/-- Derived (R33, R231): `EXIT` is set only by SGSTOP and cleared only by RESET. -/
def Obligations.ExitIsClearedOnlyByReset : Prop :=
  ∀ s t : State, step s = .next t →
    (s.exit = true → t.exit = false → s.nextEvent = .reset) ∧
    (s.exit = false → t.exit = true → ∃ w, s.nextEvent = .host w ∧ decode (.command w) = .ok .sgstop)

/-- Derived (R23): `COUNT` falls only on PALRESET and RESET, and then to 16. -/
def Obligations.CountFallsOnlyOnReset : Prop :=
  ∀ s t : State, s.Inv → step s = .next t → t.count.toNat < s.count.toNat →
    t.count = 16 ∧
      (s.nextEvent = .reset ∨ ∃ w, s.nextEvent = .host w ∧ decode (.command w) = .ok .palreset)

/-- Derived (R273, R74): the transport pops the head of the ready queue and holds it, and pushes a handle it holds to the tail of the free
queue when there is room; nothing else changes. -/
def Obligations.TransportMovesHandles : Prop :=
  ∀ (s : State) (h : Handle) (es : List Event), s.cfg.wf = true →
    (∀ q, s.agenda = .pop :: es → s.readyq = h :: q →
      step s = .next { s with agenda := es, readyq := q, xheld := s.xheld ++ [h] }) ∧
    (s.agenda = .push h :: es → h ∈ s.xheld → s.freeq.length < s.cfg.qfCap →
      step s = .next { s with agenda := es, freeq := s.freeq ++ [h], xheld := s.xheld.erase h }) ∧
    (s.agenda = .push h :: es → h ∈ s.xheld → s.cfg.qfCap ≤ s.freeq.length → step s = .next { s with agenda := es })

/-- Derived (R274, R63, R70): the drawing layer's write of a canvas byte is read back, every other canvas byte is unchanged, and so is
everything else. -/
def Obligations.CanvasWriteIsReadBack : Prop :=
  ∀ (s : State) (x y : Nat) (b : Byte) (es : List Event), s.cfg.wf = true → Memory.wf s.canvas = true →
    s.agenda = .draw x y b :: es → x < s.cfg.canvasWidth → y < s.cfg.canvasHeight →
    ∃ t, step s = .next t ∧ t = { s with agenda := es, canvas := t.canvas } ∧ t.canvasRead y x = b ∧
      ∀ u v, u < s.cfg.canvasWidth → v < s.cfg.canvasHeight → ¬ (u = x ∧ v = y) →
        t.canvasRead v u = s.canvasRead v u

/-! ## Drawing calls and the encoding -/

/-- Derived (R245, R130): `drawPixel` maps its colour first, whether or not the pixel is inside the canvas, answers one response,
and writes inside the canvas the index answered, whose colour is then the one asked for or one similar to it; no other canvas byte
changes. -/
def Obligations.DrawPixelMapsThenWrites : Prop :=
  ∀ (s : State) (x y : Nat) (c : Colour), s.cmd = none → Memory.wf s.canvas = true →
    ∃ t w, drawPixel x y c s = .next t ∧ t.rsp = s.rsp ++ [w] ∧
      (palGet t.color (responseIndex w) = c ∨ ∃ k, 1 ≤ k ∧ k ≤ 3 ∧ SameUnder k (palGet t.color (responseIndex w)) c) ∧
      (inCanvas s.cfg x y = true → t.canvasRead y x = responseIndex w) ∧
      ∀ u v, u < s.cfg.canvasWidth → v < s.cfg.canvasHeight → ¬ (inCanvas s.cfg x y = true ∧ u = x ∧ v = y) →
        t.canvasRead v u = s.canvasRead v u

/-- Derived (R247, R248, R130): the fast lines map their colour once, answer one response, whose index then holds the colour asked for or
one similar to it, and write that index to exactly their cells inside the canvas. That no other turn stands between their accesses
is the model's choice (notes/assumptions/25.md). -/
def Obligations.FastLinesMapOnce : Prop :=
  ∀ (s : State) (x y n : Nat) (c : Colour), s.cmd = none → Memory.wf s.canvas = true →
    (∃ t w, drawFastHLine x y n c s = .next t ∧ t.rsp = s.rsp ++ [w] ∧
      (palGet t.color (responseIndex w) = c ∨ ∃ k, 1 ≤ k ∧ k ≤ 3 ∧ SameUnder k (palGet t.color (responseIndex w)) c) ∧
      ∀ u v, u < s.cfg.canvasWidth → v < s.cfg.canvasHeight →
        t.canvasRead v u = if v = y ∧ x ≤ u ∧ u < x + n then responseIndex w else s.canvasRead v u) ∧
    (∃ t w, drawFastVLine x y n c s = .next t ∧ t.rsp = s.rsp ++ [w] ∧
      (palGet t.color (responseIndex w) = c ∨ ∃ k, 1 ≤ k ∧ k ≤ 3 ∧ SameUnder k (palGet t.color (responseIndex w)) c) ∧
      ∀ u v, u < s.cfg.canvasWidth → v < s.cfg.canvasHeight →
        t.canvasRead v u = if u = x ∧ y ≤ v ∧ v < y + n then responseIndex w else s.canvasRead v u)

/-- Derived (R246): after `fillScreen(c)` inversion is off, `COUNT` is 16 when `c` is a standard colour and 17 otherwise, and every
canvas byte is the index of `c`. -/
def Obligations.FillScreenLeavesOneColour : Prop :=
  ∀ (s : State) (c : Colour), s.cmd = none → Memory.wf s.canvas = true →
    ∃ t, ∃ i : PalIndex, fillScreen c s = .next t ∧ t.inverted = false ∧ palGet t.color i = c ∧
      (c ∈ s.cfg.std16.toList → t.count = 16 ∧ i.toNat < 16) ∧
      (c ∉ s.cfg.std16.toList → t.count = 17 ∧ i = 16) ∧
      ∀ x y, x < s.cfg.canvasWidth → y < s.cfg.canvasHeight → t.canvasRead y x = i

/-- Derived (R249): `getPixel` answers 0x0000 outside the canvas with no command issued, and inside it the stored colour at the index
the canvas holds. That the canvas read and the IDX2COL have no other turn between them is the model's choice
(notes/assumptions/25.md). -/
def Obligations.GetPixelReadsTheStoredColour : Prop :=
  ∀ (s : State) (x y : Nat),
    (inCanvas s.cfg x y = false → getPixel x y s = .next (s, 0x0000)) ∧
    (inCanvas s.cfg x y = true → s.cmd = none →
      getPixel x y s =
        .next ({ s with rsp := s.rsp ++ [(palGet s.color (s.canvasRead y x)).setWidth 32] },
          palGet s.color (s.canvasRead y x)))

/-- R164 (with R161, R162, R163): the colour, complemented when `inv` is set, gives the table indices `2 * R5`, `G6`, `2 * B5`, and the
triplet is the table's symbols there. -/
def Obligations.TripletIsReadAtTheAlignedFields : Prop :=
  ∀ (lut : Vector Symbol 64) (c : Colour) (inv : Bool),
    let n := if inv then 65535 - c.toNat else c.toNat
    lut[2 * (n / 2048)]? = some (encodeTriplet lut c inv).r ∧
    lut[n / 32 % 64]? = some (encodeTriplet lut c inv).g ∧
    lut[2 * (n % 32)]? = some (encodeTriplet lut c inv).b

/-- R165: with inversion the table indices are `62 - r6`, `63 - g6`, `62 - b6`, and the triplet is that of the complement. -/
def Obligations.InvertedIndicesAreComplements : Prop :=
  ∀ (lut : Vector Symbol 64) (c : Colour),
    encodeTriplet lut c true = encodeTriplet lut (~~~ c) false ∧
    (align5 (red5 (~~~ c))).toNat = 62 - (align5 (red5 c)).toNat ∧
    (green6 (~~~ c)).toNat = 63 - (green6 c).toNat ∧
    (align5 (blue5 (~~~ c))).toNat = 62 - (align5 (blue5 c)).toNat

/-! ## What the transport sees -/

/-- Derived (R295, R188): a buffer becomes filled only when FILL writes its last column, a RESET leaves none filled, and the transport reads
no word of a pool buffer that is not filled; so after a RESET it reads none of the pool. The record of filled buffers is the model's form
of R295 (notes/assumptions/36.md). -/
def Obligations.UnfilledBuffersAreNotRead : Prop :=
  (∀ s t : State, step s = .next t → s.nextEvent ≠ .reset →
    t.filled = s.filled ∨
      ∃ h, s.sgphase = .fill ∧ s.held = some h ∧ s.x + 1 = s.cfg.activeWidth ∧ t.filled = s.filled.insert h) ∧
  (∀ s t : State, step s = .next t → s.nextEvent = .reset →
    t.filled = [] ∧ ∀ h ∈ t.cfg.pool, ∀ n, t.transportRead h n = none) ∧
  ∀ (s : State) (h : Handle) (n : Nat), h ≠ s.cfg.blankHandle → h ∉ s.filled → s.transportRead h n = none

/-- Derived (R194, R295, R271, R273): a pool handle is published only after a complete FILL since RESET, given that `READYQ` is empty
when RESET is applied (R271), so of a buffer the transport pops it reads every word, as the block wrote it. -/
def Obligations.PublishedBuffersAreFilled : Prop :=
  (∀ c : Config, (State.resetOf c).PublishedOk) ∧
  (∀ s t : State, s.PublishedOk → step s = .next t → (s.nextEvent = .reset → s.readyq = []) → t.PublishedOk) ∧
  ∀ (s : State) (h : Handle) (q : List Handle) (es : List Event) (n : Nat), s.Inv → s.PublishedOk →
    s.agenda = .pop :: es → s.readyq = h :: q → n < s.cfg.bufWords →
    ∃ t, step s = .next t ∧
      t.transportRead h n = some (if h = s.cfg.blankHandle then s.cfg.blackWord else s.bufWord h n)

/-! ## The command agent's turn -/

/-- Derived (R71, R100, R103): a turn of the command agent that names a pending element write makes exactly that write, in one atomic step,
and takes it off the pending ones; with no write left the turn sends the response and ends the command; that a turn with no command in
progress, or one that names no pending write, changes nothing is the model's choice (notes/assumptions/10.md), and so is the form of
the pending part (11.md). -/
def Obligations.AgentTurnMakesOneWriteOrResponds : Prop :=
  ∀ (s : State) (k : Nat) (es : List Event), s.cfg.wf = true → s.agenda = .agent k :: es →
    (∀ (ws : List ElemWrite) (w : Word) (e : ElemWrite), s.cmd = some ⟨ws, w⟩ → ws[k]? = some e →
      ∃ t, step s = .next t ∧
        t = { s with
          agenda := es
          cmd := some ⟨ws.eraseIdx k, w⟩
          rtmds := t.rtmds
          gtmds := t.gtmds
          btmds := t.btmds } ∧
        palGet (t.symbols e.chan) e.index = e.value ∧
        ∀ (ch : Channel) (j : PalIndex), ¬ (ch = e.chan ∧ j = e.index) →
          palGet (t.symbols ch) j = palGet (s.symbols ch) j) ∧
    (∀ w : Word, s.cmd = some ⟨[], w⟩ →
      step s = .next { s with agenda := es, cmd := none, rsp := s.rsp ++ [w] }) ∧
    (∀ (ws : List ElemWrite) (w : Word), s.cmd = some ⟨ws, w⟩ → ws ≠ [] → ws.length ≤ k →
      step s = .next { s with agenda := es }) ∧
    (s.cmd = none → step s = .next { s with agenda := es })
end

