-- ==== Sys2Proof/Laws/Config.lean ====
section
/-! SUPPORT. What a well-formed configuration gives: one lemma per constraint of 00_scope.md R10 to R14. -/

namespace Sys2Proof

theorem Config.wf_iff (c : Config) : c.wf = true ↔
    1 ≤ c.activeWidth ∧ 1 ≤ c.activeLines ∧ 1 ≤ c.symbolsPerWord ∧ c.symbolsPerWord ≤ 3 ∧
    c.activeWidth % c.symbolsPerWord = 0 ∧ 1 ≤ c.vrep ∧ 1 ≤ c.lines ∧ c.lines ≤ 32768 ∧
    (c.ilace = true → c.lines % 2 = 0) ∧ 1 ≤ c.canvasWidth ∧ c.canvasWidth ≤ c.activeWidth ∧ 1 ≤ c.canvasHeight ∧
    c.std16[0] = 0 ∧ c.std16.toList.Nodup ∧ c.blankHandle ∉ c.pool ∧ c.pool.Nodup ∧ 1 ≤ c.qfCap ∧ 1 ≤ c.qrCap ∧
    c.blankHandle < 2 ^ c.handleBits ∧ ∀ h ∈ c.pool, h < 2 ^ c.handleBits := by
  simp only [Config.wf, Config.checks, List.all_cons, List.all_nil, id, Bool.and_eq_true, decide_eq_true_eq,
    beq_iff_eq, Bool.or_eq_true, Bool.not_eq_true', and_true, List.contains_eq_mem, decide_eq_false_iff_not]
  have : (c.ilace = false ∨ c.lines % 2 = 0) ↔ (c.ilace = true → c.lines % 2 = 0) := by
    cases c.ilace <;> simp
  rw [this]

variable {c : Config}

theorem Config.width_pos (h : c.wf = true) : 1 ≤ c.activeWidth := ((Config.wf_iff c).1 h).1
theorem Config.spw_pos (h : c.wf = true) : 1 ≤ c.symbolsPerWord := ((Config.wf_iff c).1 h).2.2.1
theorem Config.spw_le (h : c.wf = true) : c.symbolsPerWord ≤ 3 := ((Config.wf_iff c).1 h).2.2.2.1
theorem Config.spw_dvd (h : c.wf = true) : c.symbolsPerWord ∣ c.activeWidth :=
  Nat.dvd_of_mod_eq_zero ((Config.wf_iff c).1 h).2.2.2.2.1
theorem Config.lines_pos (h : c.wf = true) : 1 ≤ c.lines := ((Config.wf_iff c).1 h).2.2.2.2.2.2.1
theorem Config.lines_le (h : c.wf = true) : c.lines ≤ 32768 := ((Config.wf_iff c).1 h).2.2.2.2.2.2.2.1
theorem Config.lines_even (h : c.wf = true) (hi : c.ilace = true) : c.lines % 2 = 0 :=
  ((Config.wf_iff c).1 h).2.2.2.2.2.2.2.2.1 hi
theorem Config.canvas_narrow (h : c.wf = true) : c.canvasWidth ≤ c.activeWidth :=
  ((Config.wf_iff c).1 h).2.2.2.2.2.2.2.2.2.2.1
theorem Config.std16_black (h : c.wf = true) : c.std16[0] = 0 := ((Config.wf_iff c).1 h).2.2.2.2.2.2.2.2.2.2.2.2.1
theorem Config.std16_distinct (h : c.wf = true) : c.std16.toList.Nodup :=
  ((Config.wf_iff c).1 h).2.2.2.2.2.2.2.2.2.2.2.2.2.1
theorem Config.blank_not_pool (h : c.wf = true) : c.blankHandle ∉ c.pool :=
  ((Config.wf_iff c).1 h).2.2.2.2.2.2.2.2.2.2.2.2.2.2.1
theorem Config.pool_nodup (h : c.wf = true) : c.pool.Nodup :=
  ((Config.wf_iff c).1 h).2.2.2.2.2.2.2.2.2.2.2.2.2.2.2.1

/-- A pool handle is not the blank handle. -/
theorem Config.pool_ne_blank (h : c.wf = true) {k : Handle} (hk : k ∈ c.pool) : k ≠ c.blankHandle := by
  rintro rfl; exact Config.blank_not_pool h hk

/-- `W * SPW = A`. -/
theorem Config.segWords_mul (h : c.wf = true) : c.segWords * c.symbolsPerWord = c.activeWidth :=
  Nat.div_mul_cancel (Config.spw_dvd h)

/-- A column lies in a word of its segment. -/
theorem Config.column_word_lt (h : c.wf = true) {x : Nat} (hx : x < c.activeWidth) :
    x / c.symbolsPerWord < c.segWords := by
  rw [Nat.div_lt_iff_lt_mul (Config.spw_pos h), Config.segWords_mul h]
  exact hx

theorem SegOrder.pos_lt (o : SegOrder) (ch : Channel) : o.pos ch < 3 := by cases o <;> cases ch <;> decide

theorem SegOrder.pos_inj (o : SegOrder) {a b : Channel} (h : o.pos a = o.pos b) : a = b := by
  cases o <;> cases a <;> cases b <;> first | rfl | (exact absurd h (by decide))

end Sys2Proof
end

