-- ==== Sys2Proof/Laws/Memory.lean ====
section
/-! SUPPORT. The laws of the canonical memory: a read after a write, and that every write keeps the canonical form. -/

namespace Sys2Proof.Machine

open Sys2Proof

variable {w : Nat}

@[simp] theorem Memory.read_nil (a : Nat) : Memory.read ([] : Memory w) a = Memory.unlisted := rfl

theorem Memory.read_cons (k : Nat) (v : BitVec w) (m : Memory w) (a : Nat) :
    Memory.read ((k, v) :: m) a =
      if a < k then Memory.unlisted else if a = k then v else Memory.read m a := rfl

theorem Memory.wf_nil : Memory.wf ([] : Memory w) = true := rfl

/-- The canonical form, one entry at a time. -/
theorem Memory.wf_cons (k : Nat) (v : BitVec w) (m : Memory w) :
    Memory.wf ((k, v) :: m) = true ↔ (∀ p ∈ m, k < p.1) ∧ v ≠ Memory.unlisted ∧ Memory.wf m = true := by
  simp only [Memory.wf, List.pairwise_cons, List.all_cons, Bool.and_eq_true, decide_eq_true_eq, bne_iff_ne]
  tauto

/-- An address below every listed one is unlisted. -/
theorem Memory.read_below {m : Memory w} {a : Nat} (h : ∀ p ∈ m, a < p.1) :
    Memory.read m a = Memory.unlisted := by
  cases m with
  | nil => rfl
  | cons p m => obtain ⟨k, v⟩ := p; simp [Memory.read_cons, h (k, v) (by simp)]

/-- Every address a write lists was listed before or is the one written. -/
theorem Memory.mem_write {m : Memory w} {a : Nat} {u : BitVec w} {p : Nat × BitVec w}
    (h : p ∈ Memory.write m a u) : p ∈ m ∨ p = (a, u) := by
  induction m with
  | nil => simp only [Memory.write] at h; split at h <;> simp_all
  | cons q m ih =>
    obtain ⟨k, v⟩ := q
    simp only [Memory.write] at h
    split at h
    · split at h <;> simp_all
      tauto
    · split at h
      · split at h <;> simp_all
        tauto
      · simp only [List.mem_cons] at h ⊢
        rcases h with rfl | h
        · exact .inl (.inl rfl)
        · rcases ih h with h | h
          · exact .inl (.inr h)
          · exact .inr h

/-- A write keeps the canonical form. -/
theorem Memory.wf_write {m : Memory w} (a : Nat) (u : BitVec w) (h : Memory.wf m = true) :
    Memory.wf (Memory.write m a u) = true := by
  induction m with
  | nil =>
    simp only [Memory.write]
    split
    · exact h
    · rw [Memory.wf_cons]; exact ⟨by simp, ‹_›, h⟩
  | cons q m ih =>
    obtain ⟨k, v⟩ := q
    obtain ⟨h1, h2, h3⟩ := (Memory.wf_cons k v m).1 h
    simp only [Memory.write]
    split
    · split
      · exact h
      · rw [Memory.wf_cons]
        refine ⟨?_, ‹_›, h⟩
        intro p hp
        rcases List.mem_cons.1 hp with rfl | hp
        · assumption
        · have := h1 p hp; omega
    · split
      · subst a
        split
        · exact h3
        · rw [Memory.wf_cons]; exact ⟨h1, ‹_›, h3⟩
      · rw [Memory.wf_cons]
        refine ⟨?_, h2, ih h3⟩
        intro p hp
        rcases Memory.mem_write hp with hp | rfl
        · exact h1 p hp
        · show k < a; omega

/-- A read of the address just written. -/
theorem Memory.read_write_same {m : Memory w} (a : Nat) (u : BitVec w) (h : Memory.wf m = true) :
    Memory.read (Memory.write m a u) a = u := by
  induction m with
  | nil => simp only [Memory.write]; split <;> simp_all [Memory.read_cons]
  | cons q m ih =>
    obtain ⟨k, v⟩ := q
    obtain ⟨h1, h2, h3⟩ := (Memory.wf_cons k v m).1 h
    simp only [Memory.write]
    split
    · split <;> simp_all [Memory.read_cons]
    · split
      · subst a
        split
        · rename_i hu; rw [Memory.read_below h1, hu]
        · simp [Memory.read_cons]
      · rename_i hlt hne
        simp [Memory.read_cons, hlt, hne, ih h3]

/-- A read of any other address. -/
theorem Memory.read_write_other {m : Memory w} {a b : Nat} (u : BitVec w) (h : Memory.wf m = true) (hab : b ≠ a) :
    Memory.read (Memory.write m a u) b = Memory.read m b := by
  induction m with
  | nil =>
    simp only [Memory.write]
    split
    · rfl
    · simp only [Memory.read_cons, Memory.read_nil]; split <;> simp_all
  | cons q m ih =>
    obtain ⟨k, v⟩ := q
    obtain ⟨h1, h2, h3⟩ := (Memory.wf_cons k v m).1 h
    simp only [Memory.write]
    split
    · split
      · rfl
      · simp only [Memory.read_cons]
        by_cases hb : b < a
        · have : b < k := by omega
          simp [hb, this]
        · simp [hb, hab]
    · split
      · subst a
        split
        · simp only [Memory.read_cons]
          by_cases hb : b < k
          · have : ∀ p ∈ m, b < p.1 := fun p hp => by have := h1 p hp; omega
            simp [hb, Memory.read_below this]
          · simp [hb, hab]
        · simp [Memory.read_cons, hab]
      · simp only [Memory.read_cons, ih h3]

end Sys2Proof.Machine
end

