-- ==== Sys2Proof/Laws/State.lean ====
section
/-! SUPPORT. The fields of the state after each shared update: one lemma per field per update, so that no proof unfolds a record
update. -/

namespace Sys2Proof.Machine

open Sys2Proof

/-! ## `State.respond` -/

@[simp] theorem State.respond_cfg (s : State) (w : Word) : (s.respond w).cfg = s.cfg := rfl
@[simp] theorem State.respond_color (s : State) (w : Word) : (s.respond w).color = s.color := rfl
@[simp] theorem State.respond_rtmds (s : State) (w : Word) : (s.respond w).rtmds = s.rtmds := rfl
@[simp] theorem State.respond_gtmds (s : State) (w : Word) : (s.respond w).gtmds = s.gtmds := rfl
@[simp] theorem State.respond_btmds (s : State) (w : Word) : (s.respond w).btmds = s.btmds := rfl
@[simp] theorem State.respond_count (s : State) (w : Word) : (s.respond w).count = s.count := rfl
@[simp] theorem State.respond_inverted (s : State) (w : Word) : (s.respond w).inverted = s.inverted := rfl
@[simp] theorem State.respond_blankbuf (s : State) (w : Word) : (s.respond w).blankbuf = s.blankbuf := rfl
@[simp] theorem State.respond_sgphase (s : State) (w : Word) : (s.respond w).sgphase = s.sgphase := rfl
@[simp] theorem State.respond_y (s : State) (w : Word) : (s.respond w).y = s.y := rfl
@[simp] theorem State.respond_x (s : State) (w : Word) : (s.respond w).x = s.x := rfl
@[simp] theorem State.respond_fsub (s : State) (w : Word) : (s.respond w).fsub = s.fsub := rfl
@[simp] theorem State.respond_idxreg (s : State) (w : Word) : (s.respond w).idxreg = s.idxreg := rfl
@[simp] theorem State.respond_rsym (s : State) (w : Word) : (s.respond w).rsym = s.rsym := rfl
@[simp] theorem State.respond_gsym (s : State) (w : Word) : (s.respond w).gsym = s.gsym := rfl
@[simp] theorem State.respond_held (s : State) (w : Word) : (s.respond w).held = s.held := rfl
@[simp] theorem State.respond_exit (s : State) (w : Word) : (s.respond w).exit = s.exit := rfl
@[simp] theorem State.respond_field (s : State) (w : Word) : (s.respond w).field = s.field := rfl
@[simp] theorem State.respond_canvas (s : State) (w : Word) : (s.respond w).canvas = s.canvas := rfl
@[simp] theorem State.respond_buf (s : State) (w : Word) : (s.respond w).buf = s.buf := rfl
@[simp] theorem State.respond_freeq (s : State) (w : Word) : (s.respond w).freeq = s.freeq := rfl
@[simp] theorem State.respond_readyq (s : State) (w : Word) : (s.respond w).readyq = s.readyq := rfl
@[simp] theorem State.respond_xheld (s : State) (w : Word) : (s.respond w).xheld = s.xheld := rfl
@[simp] theorem State.respond_filled (s : State) (w : Word) : (s.respond w).filled = s.filled := rfl
@[simp] theorem State.respond_cmd (s : State) (w : Word) : (s.respond w).cmd = s.cmd := rfl
@[simp] theorem State.respond_rsp (s : State) (w : Word) : (s.respond w).rsp = s.rsp ++ [w] := rfl
@[simp] theorem State.respond_agenda (s : State) (w : Word) : (s.respond w).agenda = s.agenda := rfl

/-! ## `State.refuseCommand` -/

@[simp] theorem State.refuseCommand_cfg (s : State) : (s.refuseCommand).cfg = s.cfg := rfl
@[simp] theorem State.refuseCommand_color (s : State) : (s.refuseCommand).color = s.color := rfl
@[simp] theorem State.refuseCommand_rtmds (s : State) : (s.refuseCommand).rtmds = s.rtmds := rfl
@[simp] theorem State.refuseCommand_gtmds (s : State) : (s.refuseCommand).gtmds = s.gtmds := rfl
@[simp] theorem State.refuseCommand_btmds (s : State) : (s.refuseCommand).btmds = s.btmds := rfl
@[simp] theorem State.refuseCommand_count (s : State) : (s.refuseCommand).count = s.count := rfl
@[simp] theorem State.refuseCommand_inverted (s : State) : (s.refuseCommand).inverted = s.inverted := rfl
@[simp] theorem State.refuseCommand_blankbuf (s : State) : (s.refuseCommand).blankbuf = s.blankbuf := rfl
@[simp] theorem State.refuseCommand_sgphase (s : State) : (s.refuseCommand).sgphase = s.sgphase := rfl
@[simp] theorem State.refuseCommand_y (s : State) : (s.refuseCommand).y = s.y := rfl
@[simp] theorem State.refuseCommand_x (s : State) : (s.refuseCommand).x = s.x := rfl
@[simp] theorem State.refuseCommand_fsub (s : State) : (s.refuseCommand).fsub = s.fsub := rfl
@[simp] theorem State.refuseCommand_idxreg (s : State) : (s.refuseCommand).idxreg = s.idxreg := rfl
@[simp] theorem State.refuseCommand_rsym (s : State) : (s.refuseCommand).rsym = s.rsym := rfl
@[simp] theorem State.refuseCommand_gsym (s : State) : (s.refuseCommand).gsym = s.gsym := rfl
@[simp] theorem State.refuseCommand_held (s : State) : (s.refuseCommand).held = s.held := rfl
@[simp] theorem State.refuseCommand_exit (s : State) : (s.refuseCommand).exit = s.exit := rfl
@[simp] theorem State.refuseCommand_field (s : State) : (s.refuseCommand).field = s.field := rfl
@[simp] theorem State.refuseCommand_canvas (s : State) : (s.refuseCommand).canvas = s.canvas := rfl
@[simp] theorem State.refuseCommand_buf (s : State) : (s.refuseCommand).buf = s.buf := rfl
@[simp] theorem State.refuseCommand_freeq (s : State) : (s.refuseCommand).freeq = s.freeq := rfl
@[simp] theorem State.refuseCommand_readyq (s : State) : (s.refuseCommand).readyq = s.readyq := rfl
@[simp] theorem State.refuseCommand_xheld (s : State) : (s.refuseCommand).xheld = s.xheld := rfl
@[simp] theorem State.refuseCommand_filled (s : State) : (s.refuseCommand).filled = s.filled := rfl
@[simp] theorem State.refuseCommand_cmd (s : State) : (s.refuseCommand).cmd = s.cmd := rfl
@[simp] theorem State.refuseCommand_rsp (s : State) : (s.refuseCommand).rsp = s.rsp ++ [errResponse] := rfl
@[simp] theorem State.refuseCommand_agenda (s : State) : (s.refuseCommand).agenda = s.agenda := rfl

/-! ## `State.startCommand` -/

@[simp] theorem State.startCommand_cfg (s : State) (ws : List ElemWrite) (w : Word) : (s.startCommand ws w).cfg = s.cfg := rfl
@[simp] theorem State.startCommand_color (s : State) (ws : List ElemWrite) (w : Word) : (s.startCommand ws w).color = s.color := rfl
@[simp] theorem State.startCommand_rtmds (s : State) (ws : List ElemWrite) (w : Word) : (s.startCommand ws w).rtmds = s.rtmds := rfl
@[simp] theorem State.startCommand_gtmds (s : State) (ws : List ElemWrite) (w : Word) : (s.startCommand ws w).gtmds = s.gtmds := rfl
@[simp] theorem State.startCommand_btmds (s : State) (ws : List ElemWrite) (w : Word) : (s.startCommand ws w).btmds = s.btmds := rfl
@[simp] theorem State.startCommand_count (s : State) (ws : List ElemWrite) (w : Word) : (s.startCommand ws w).count = s.count := rfl
@[simp] theorem State.startCommand_inverted (s : State) (ws : List ElemWrite) (w : Word) : (s.startCommand ws w).inverted = s.inverted := rfl
@[simp] theorem State.startCommand_blankbuf (s : State) (ws : List ElemWrite) (w : Word) : (s.startCommand ws w).blankbuf = s.blankbuf := rfl
@[simp] theorem State.startCommand_sgphase (s : State) (ws : List ElemWrite) (w : Word) : (s.startCommand ws w).sgphase = s.sgphase := rfl
@[simp] theorem State.startCommand_y (s : State) (ws : List ElemWrite) (w : Word) : (s.startCommand ws w).y = s.y := rfl
@[simp] theorem State.startCommand_x (s : State) (ws : List ElemWrite) (w : Word) : (s.startCommand ws w).x = s.x := rfl
@[simp] theorem State.startCommand_fsub (s : State) (ws : List ElemWrite) (w : Word) : (s.startCommand ws w).fsub = s.fsub := rfl
@[simp] theorem State.startCommand_idxreg (s : State) (ws : List ElemWrite) (w : Word) : (s.startCommand ws w).idxreg = s.idxreg := rfl
@[simp] theorem State.startCommand_rsym (s : State) (ws : List ElemWrite) (w : Word) : (s.startCommand ws w).rsym = s.rsym := rfl
@[simp] theorem State.startCommand_gsym (s : State) (ws : List ElemWrite) (w : Word) : (s.startCommand ws w).gsym = s.gsym := rfl
@[simp] theorem State.startCommand_held (s : State) (ws : List ElemWrite) (w : Word) : (s.startCommand ws w).held = s.held := rfl
@[simp] theorem State.startCommand_exit (s : State) (ws : List ElemWrite) (w : Word) : (s.startCommand ws w).exit = s.exit := rfl
@[simp] theorem State.startCommand_field (s : State) (ws : List ElemWrite) (w : Word) : (s.startCommand ws w).field = s.field := rfl
@[simp] theorem State.startCommand_canvas (s : State) (ws : List ElemWrite) (w : Word) : (s.startCommand ws w).canvas = s.canvas := rfl
@[simp] theorem State.startCommand_buf (s : State) (ws : List ElemWrite) (w : Word) : (s.startCommand ws w).buf = s.buf := rfl
@[simp] theorem State.startCommand_freeq (s : State) (ws : List ElemWrite) (w : Word) : (s.startCommand ws w).freeq = s.freeq := rfl
@[simp] theorem State.startCommand_readyq (s : State) (ws : List ElemWrite) (w : Word) : (s.startCommand ws w).readyq = s.readyq := rfl
@[simp] theorem State.startCommand_xheld (s : State) (ws : List ElemWrite) (w : Word) : (s.startCommand ws w).xheld = s.xheld := rfl
@[simp] theorem State.startCommand_filled (s : State) (ws : List ElemWrite) (w : Word) : (s.startCommand ws w).filled = s.filled := rfl
@[simp] theorem State.startCommand_cmd (s : State) (ws : List ElemWrite) (w : Word) : (s.startCommand ws w).cmd = some ⟨ws, w⟩ := rfl
@[simp] theorem State.startCommand_rsp (s : State) (ws : List ElemWrite) (w : Word) : (s.startCommand ws w).rsp = s.rsp := rfl
@[simp] theorem State.startCommand_agenda (s : State) (ws : List ElemWrite) (w : Word) : (s.startCommand ws w).agenda = s.agenda := rfl

/-! ## `State.canvasWrite` -/

@[simp] theorem State.canvasWrite_cfg (s : State) (x y : Nat) (b : Byte) : (s.canvasWrite x y b).cfg = s.cfg := rfl
@[simp] theorem State.canvasWrite_color (s : State) (x y : Nat) (b : Byte) : (s.canvasWrite x y b).color = s.color := rfl
@[simp] theorem State.canvasWrite_rtmds (s : State) (x y : Nat) (b : Byte) : (s.canvasWrite x y b).rtmds = s.rtmds := rfl
@[simp] theorem State.canvasWrite_gtmds (s : State) (x y : Nat) (b : Byte) : (s.canvasWrite x y b).gtmds = s.gtmds := rfl
@[simp] theorem State.canvasWrite_btmds (s : State) (x y : Nat) (b : Byte) : (s.canvasWrite x y b).btmds = s.btmds := rfl
@[simp] theorem State.canvasWrite_count (s : State) (x y : Nat) (b : Byte) : (s.canvasWrite x y b).count = s.count := rfl
@[simp] theorem State.canvasWrite_inverted (s : State) (x y : Nat) (b : Byte) : (s.canvasWrite x y b).inverted = s.inverted := rfl
@[simp] theorem State.canvasWrite_blankbuf (s : State) (x y : Nat) (b : Byte) : (s.canvasWrite x y b).blankbuf = s.blankbuf := rfl
@[simp] theorem State.canvasWrite_sgphase (s : State) (x y : Nat) (b : Byte) : (s.canvasWrite x y b).sgphase = s.sgphase := rfl
@[simp] theorem State.canvasWrite_y (s : State) (x y : Nat) (b : Byte) : (s.canvasWrite x y b).y = s.y := rfl
@[simp] theorem State.canvasWrite_x (s : State) (x y : Nat) (b : Byte) : (s.canvasWrite x y b).x = s.x := rfl
@[simp] theorem State.canvasWrite_fsub (s : State) (x y : Nat) (b : Byte) : (s.canvasWrite x y b).fsub = s.fsub := rfl
@[simp] theorem State.canvasWrite_idxreg (s : State) (x y : Nat) (b : Byte) : (s.canvasWrite x y b).idxreg = s.idxreg := rfl
@[simp] theorem State.canvasWrite_rsym (s : State) (x y : Nat) (b : Byte) : (s.canvasWrite x y b).rsym = s.rsym := rfl
@[simp] theorem State.canvasWrite_gsym (s : State) (x y : Nat) (b : Byte) : (s.canvasWrite x y b).gsym = s.gsym := rfl
@[simp] theorem State.canvasWrite_held (s : State) (x y : Nat) (b : Byte) : (s.canvasWrite x y b).held = s.held := rfl
@[simp] theorem State.canvasWrite_exit (s : State) (x y : Nat) (b : Byte) : (s.canvasWrite x y b).exit = s.exit := rfl
@[simp] theorem State.canvasWrite_field (s : State) (x y : Nat) (b : Byte) : (s.canvasWrite x y b).field = s.field := rfl
@[simp] theorem State.canvasWrite_canvas (s : State) (x y : Nat) (b : Byte) : (s.canvasWrite x y b).canvas = Memory.write s.canvas (canvasKey s.cfg y x) b := rfl
@[simp] theorem State.canvasWrite_buf (s : State) (x y : Nat) (b : Byte) : (s.canvasWrite x y b).buf = s.buf := rfl
@[simp] theorem State.canvasWrite_freeq (s : State) (x y : Nat) (b : Byte) : (s.canvasWrite x y b).freeq = s.freeq := rfl
@[simp] theorem State.canvasWrite_readyq (s : State) (x y : Nat) (b : Byte) : (s.canvasWrite x y b).readyq = s.readyq := rfl
@[simp] theorem State.canvasWrite_xheld (s : State) (x y : Nat) (b : Byte) : (s.canvasWrite x y b).xheld = s.xheld := rfl
@[simp] theorem State.canvasWrite_filled (s : State) (x y : Nat) (b : Byte) : (s.canvasWrite x y b).filled = s.filled := rfl
@[simp] theorem State.canvasWrite_cmd (s : State) (x y : Nat) (b : Byte) : (s.canvasWrite x y b).cmd = s.cmd := rfl
@[simp] theorem State.canvasWrite_rsp (s : State) (x y : Nat) (b : Byte) : (s.canvasWrite x y b).rsp = s.rsp := rfl
@[simp] theorem State.canvasWrite_agenda (s : State) (x y : Nat) (b : Byte) : (s.canvasWrite x y b).agenda = s.agenda := rfl

/-! ## `State.symWrite` -/

@[simp] theorem State.symWrite_cfg (s : State) (h : Handle) (ch : Channel) (x : Nat) (v : Symbol) : (s.symWrite h ch x v).cfg = s.cfg := rfl
@[simp] theorem State.symWrite_color (s : State) (h : Handle) (ch : Channel) (x : Nat) (v : Symbol) : (s.symWrite h ch x v).color = s.color := rfl
@[simp] theorem State.symWrite_rtmds (s : State) (h : Handle) (ch : Channel) (x : Nat) (v : Symbol) : (s.symWrite h ch x v).rtmds = s.rtmds := rfl
@[simp] theorem State.symWrite_gtmds (s : State) (h : Handle) (ch : Channel) (x : Nat) (v : Symbol) : (s.symWrite h ch x v).gtmds = s.gtmds := rfl
@[simp] theorem State.symWrite_btmds (s : State) (h : Handle) (ch : Channel) (x : Nat) (v : Symbol) : (s.symWrite h ch x v).btmds = s.btmds := rfl
@[simp] theorem State.symWrite_count (s : State) (h : Handle) (ch : Channel) (x : Nat) (v : Symbol) : (s.symWrite h ch x v).count = s.count := rfl
@[simp] theorem State.symWrite_inverted (s : State) (h : Handle) (ch : Channel) (x : Nat) (v : Symbol) : (s.symWrite h ch x v).inverted = s.inverted := rfl
@[simp] theorem State.symWrite_blankbuf (s : State) (h : Handle) (ch : Channel) (x : Nat) (v : Symbol) : (s.symWrite h ch x v).blankbuf = s.blankbuf := rfl
@[simp] theorem State.symWrite_sgphase (s : State) (h : Handle) (ch : Channel) (x : Nat) (v : Symbol) : (s.symWrite h ch x v).sgphase = s.sgphase := rfl
@[simp] theorem State.symWrite_y (s : State) (h : Handle) (ch : Channel) (x : Nat) (v : Symbol) : (s.symWrite h ch x v).y = s.y := rfl
@[simp] theorem State.symWrite_x (s : State) (h : Handle) (ch : Channel) (x : Nat) (v : Symbol) : (s.symWrite h ch x v).x = s.x := rfl
@[simp] theorem State.symWrite_fsub (s : State) (h : Handle) (ch : Channel) (x : Nat) (v : Symbol) : (s.symWrite h ch x v).fsub = s.fsub := rfl
@[simp] theorem State.symWrite_idxreg (s : State) (h : Handle) (ch : Channel) (x : Nat) (v : Symbol) : (s.symWrite h ch x v).idxreg = s.idxreg := rfl
@[simp] theorem State.symWrite_rsym (s : State) (h : Handle) (ch : Channel) (x : Nat) (v : Symbol) : (s.symWrite h ch x v).rsym = s.rsym := rfl
@[simp] theorem State.symWrite_gsym (s : State) (h : Handle) (ch : Channel) (x : Nat) (v : Symbol) : (s.symWrite h ch x v).gsym = s.gsym := rfl
@[simp] theorem State.symWrite_held (s : State) (h : Handle) (ch : Channel) (x : Nat) (v : Symbol) : (s.symWrite h ch x v).held = s.held := rfl
@[simp] theorem State.symWrite_exit (s : State) (h : Handle) (ch : Channel) (x : Nat) (v : Symbol) : (s.symWrite h ch x v).exit = s.exit := rfl
@[simp] theorem State.symWrite_field (s : State) (h : Handle) (ch : Channel) (x : Nat) (v : Symbol) : (s.symWrite h ch x v).field = s.field := rfl
@[simp] theorem State.symWrite_canvas (s : State) (h : Handle) (ch : Channel) (x : Nat) (v : Symbol) : (s.symWrite h ch x v).canvas = s.canvas := rfl
@[simp] theorem State.symWrite_freeq (s : State) (h : Handle) (ch : Channel) (x : Nat) (v : Symbol) : (s.symWrite h ch x v).freeq = s.freeq := rfl
@[simp] theorem State.symWrite_readyq (s : State) (h : Handle) (ch : Channel) (x : Nat) (v : Symbol) : (s.symWrite h ch x v).readyq = s.readyq := rfl
@[simp] theorem State.symWrite_xheld (s : State) (h : Handle) (ch : Channel) (x : Nat) (v : Symbol) : (s.symWrite h ch x v).xheld = s.xheld := rfl
@[simp] theorem State.symWrite_filled (s : State) (h : Handle) (ch : Channel) (x : Nat) (v : Symbol) : (s.symWrite h ch x v).filled = s.filled := rfl
@[simp] theorem State.symWrite_cmd (s : State) (h : Handle) (ch : Channel) (x : Nat) (v : Symbol) : (s.symWrite h ch x v).cmd = s.cmd := rfl
@[simp] theorem State.symWrite_rsp (s : State) (h : Handle) (ch : Channel) (x : Nat) (v : Symbol) : (s.symWrite h ch x v).rsp = s.rsp := rfl
@[simp] theorem State.symWrite_agenda (s : State) (h : Handle) (ch : Channel) (x : Nat) (v : Symbol) : (s.symWrite h ch x v).agenda = s.agenda := rfl

/-! ## `State.columnWrite` -/

@[simp] theorem State.columnWrite_cfg (s : State) (h : Handle) (x : Nat) (t : Triplet) : (s.columnWrite h x t).cfg = s.cfg := rfl
@[simp] theorem State.columnWrite_color (s : State) (h : Handle) (x : Nat) (t : Triplet) : (s.columnWrite h x t).color = s.color := rfl
@[simp] theorem State.columnWrite_rtmds (s : State) (h : Handle) (x : Nat) (t : Triplet) : (s.columnWrite h x t).rtmds = s.rtmds := rfl
@[simp] theorem State.columnWrite_gtmds (s : State) (h : Handle) (x : Nat) (t : Triplet) : (s.columnWrite h x t).gtmds = s.gtmds := rfl
@[simp] theorem State.columnWrite_btmds (s : State) (h : Handle) (x : Nat) (t : Triplet) : (s.columnWrite h x t).btmds = s.btmds := rfl
@[simp] theorem State.columnWrite_count (s : State) (h : Handle) (x : Nat) (t : Triplet) : (s.columnWrite h x t).count = s.count := rfl
@[simp] theorem State.columnWrite_inverted (s : State) (h : Handle) (x : Nat) (t : Triplet) : (s.columnWrite h x t).inverted = s.inverted := rfl
@[simp] theorem State.columnWrite_blankbuf (s : State) (h : Handle) (x : Nat) (t : Triplet) : (s.columnWrite h x t).blankbuf = s.blankbuf := rfl
@[simp] theorem State.columnWrite_sgphase (s : State) (h : Handle) (x : Nat) (t : Triplet) : (s.columnWrite h x t).sgphase = s.sgphase := rfl
@[simp] theorem State.columnWrite_y (s : State) (h : Handle) (x : Nat) (t : Triplet) : (s.columnWrite h x t).y = s.y := rfl
@[simp] theorem State.columnWrite_x (s : State) (h : Handle) (x : Nat) (t : Triplet) : (s.columnWrite h x t).x = s.x := rfl
@[simp] theorem State.columnWrite_fsub (s : State) (h : Handle) (x : Nat) (t : Triplet) : (s.columnWrite h x t).fsub = s.fsub := rfl
@[simp] theorem State.columnWrite_idxreg (s : State) (h : Handle) (x : Nat) (t : Triplet) : (s.columnWrite h x t).idxreg = s.idxreg := rfl
@[simp] theorem State.columnWrite_rsym (s : State) (h : Handle) (x : Nat) (t : Triplet) : (s.columnWrite h x t).rsym = s.rsym := rfl
@[simp] theorem State.columnWrite_gsym (s : State) (h : Handle) (x : Nat) (t : Triplet) : (s.columnWrite h x t).gsym = s.gsym := rfl
@[simp] theorem State.columnWrite_held (s : State) (h : Handle) (x : Nat) (t : Triplet) : (s.columnWrite h x t).held = s.held := rfl
@[simp] theorem State.columnWrite_exit (s : State) (h : Handle) (x : Nat) (t : Triplet) : (s.columnWrite h x t).exit = s.exit := rfl
@[simp] theorem State.columnWrite_field (s : State) (h : Handle) (x : Nat) (t : Triplet) : (s.columnWrite h x t).field = s.field := rfl
@[simp] theorem State.columnWrite_canvas (s : State) (h : Handle) (x : Nat) (t : Triplet) : (s.columnWrite h x t).canvas = s.canvas := rfl
@[simp] theorem State.columnWrite_freeq (s : State) (h : Handle) (x : Nat) (t : Triplet) : (s.columnWrite h x t).freeq = s.freeq := rfl
@[simp] theorem State.columnWrite_readyq (s : State) (h : Handle) (x : Nat) (t : Triplet) : (s.columnWrite h x t).readyq = s.readyq := rfl
@[simp] theorem State.columnWrite_xheld (s : State) (h : Handle) (x : Nat) (t : Triplet) : (s.columnWrite h x t).xheld = s.xheld := rfl
@[simp] theorem State.columnWrite_filled (s : State) (h : Handle) (x : Nat) (t : Triplet) : (s.columnWrite h x t).filled = s.filled := rfl
@[simp] theorem State.columnWrite_cmd (s : State) (h : Handle) (x : Nat) (t : Triplet) : (s.columnWrite h x t).cmd = s.cmd := rfl
@[simp] theorem State.columnWrite_rsp (s : State) (h : Handle) (x : Nat) (t : Triplet) : (s.columnWrite h x t).rsp = s.rsp := rfl
@[simp] theorem State.columnWrite_agenda (s : State) (h : Handle) (x : Nat) (t : Triplet) : (s.columnWrite h x t).agenda = s.agenda := rfl

/-! ## `State.freePush` -/

@[simp] theorem State.freePush_cfg (s : State) (h : Handle) : (s.freePush h).cfg = s.cfg := rfl
@[simp] theorem State.freePush_color (s : State) (h : Handle) : (s.freePush h).color = s.color := rfl
@[simp] theorem State.freePush_rtmds (s : State) (h : Handle) : (s.freePush h).rtmds = s.rtmds := rfl
@[simp] theorem State.freePush_gtmds (s : State) (h : Handle) : (s.freePush h).gtmds = s.gtmds := rfl
@[simp] theorem State.freePush_btmds (s : State) (h : Handle) : (s.freePush h).btmds = s.btmds := rfl
@[simp] theorem State.freePush_count (s : State) (h : Handle) : (s.freePush h).count = s.count := rfl
@[simp] theorem State.freePush_inverted (s : State) (h : Handle) : (s.freePush h).inverted = s.inverted := rfl
@[simp] theorem State.freePush_blankbuf (s : State) (h : Handle) : (s.freePush h).blankbuf = s.blankbuf := rfl
@[simp] theorem State.freePush_sgphase (s : State) (h : Handle) : (s.freePush h).sgphase = s.sgphase := rfl
@[simp] theorem State.freePush_y (s : State) (h : Handle) : (s.freePush h).y = s.y := rfl
@[simp] theorem State.freePush_x (s : State) (h : Handle) : (s.freePush h).x = s.x := rfl
@[simp] theorem State.freePush_fsub (s : State) (h : Handle) : (s.freePush h).fsub = s.fsub := rfl
@[simp] theorem State.freePush_idxreg (s : State) (h : Handle) : (s.freePush h).idxreg = s.idxreg := rfl
@[simp] theorem State.freePush_rsym (s : State) (h : Handle) : (s.freePush h).rsym = s.rsym := rfl
@[simp] theorem State.freePush_gsym (s : State) (h : Handle) : (s.freePush h).gsym = s.gsym := rfl
@[simp] theorem State.freePush_held (s : State) (h : Handle) : (s.freePush h).held = s.held := rfl
@[simp] theorem State.freePush_exit (s : State) (h : Handle) : (s.freePush h).exit = s.exit := rfl
@[simp] theorem State.freePush_field (s : State) (h : Handle) : (s.freePush h).field = s.field := rfl
@[simp] theorem State.freePush_canvas (s : State) (h : Handle) : (s.freePush h).canvas = s.canvas := rfl
@[simp] theorem State.freePush_buf (s : State) (h : Handle) : (s.freePush h).buf = s.buf := rfl
@[simp] theorem State.freePush_freeq (s : State) (h : Handle) : (s.freePush h).freeq = s.freeq ++ [h] := rfl
@[simp] theorem State.freePush_readyq (s : State) (h : Handle) : (s.freePush h).readyq = s.readyq := rfl
@[simp] theorem State.freePush_xheld (s : State) (h : Handle) : (s.freePush h).xheld = s.xheld := rfl
@[simp] theorem State.freePush_filled (s : State) (h : Handle) : (s.freePush h).filled = s.filled := rfl
@[simp] theorem State.freePush_cmd (s : State) (h : Handle) : (s.freePush h).cmd = s.cmd := rfl
@[simp] theorem State.freePush_rsp (s : State) (h : Handle) : (s.freePush h).rsp = s.rsp := rfl
@[simp] theorem State.freePush_agenda (s : State) (h : Handle) : (s.freePush h).agenda = s.agenda := rfl

/-! ## `State.readyPush` -/

@[simp] theorem State.readyPush_cfg (s : State) (h : Handle) : (s.readyPush h).cfg = s.cfg := rfl
@[simp] theorem State.readyPush_color (s : State) (h : Handle) : (s.readyPush h).color = s.color := rfl
@[simp] theorem State.readyPush_rtmds (s : State) (h : Handle) : (s.readyPush h).rtmds = s.rtmds := rfl
@[simp] theorem State.readyPush_gtmds (s : State) (h : Handle) : (s.readyPush h).gtmds = s.gtmds := rfl
@[simp] theorem State.readyPush_btmds (s : State) (h : Handle) : (s.readyPush h).btmds = s.btmds := rfl
@[simp] theorem State.readyPush_count (s : State) (h : Handle) : (s.readyPush h).count = s.count := rfl
@[simp] theorem State.readyPush_inverted (s : State) (h : Handle) : (s.readyPush h).inverted = s.inverted := rfl
@[simp] theorem State.readyPush_blankbuf (s : State) (h : Handle) : (s.readyPush h).blankbuf = s.blankbuf := rfl
@[simp] theorem State.readyPush_sgphase (s : State) (h : Handle) : (s.readyPush h).sgphase = s.sgphase := rfl
@[simp] theorem State.readyPush_y (s : State) (h : Handle) : (s.readyPush h).y = s.y := rfl
@[simp] theorem State.readyPush_x (s : State) (h : Handle) : (s.readyPush h).x = s.x := rfl
@[simp] theorem State.readyPush_fsub (s : State) (h : Handle) : (s.readyPush h).fsub = s.fsub := rfl
@[simp] theorem State.readyPush_idxreg (s : State) (h : Handle) : (s.readyPush h).idxreg = s.idxreg := rfl
@[simp] theorem State.readyPush_rsym (s : State) (h : Handle) : (s.readyPush h).rsym = s.rsym := rfl
@[simp] theorem State.readyPush_gsym (s : State) (h : Handle) : (s.readyPush h).gsym = s.gsym := rfl
@[simp] theorem State.readyPush_held (s : State) (h : Handle) : (s.readyPush h).held = s.held := rfl
@[simp] theorem State.readyPush_exit (s : State) (h : Handle) : (s.readyPush h).exit = s.exit := rfl
@[simp] theorem State.readyPush_field (s : State) (h : Handle) : (s.readyPush h).field = s.field := rfl
@[simp] theorem State.readyPush_canvas (s : State) (h : Handle) : (s.readyPush h).canvas = s.canvas := rfl
@[simp] theorem State.readyPush_buf (s : State) (h : Handle) : (s.readyPush h).buf = s.buf := rfl
@[simp] theorem State.readyPush_freeq (s : State) (h : Handle) : (s.readyPush h).freeq = s.freeq := rfl
@[simp] theorem State.readyPush_readyq (s : State) (h : Handle) : (s.readyPush h).readyq = s.readyq ++ [h] := rfl
@[simp] theorem State.readyPush_xheld (s : State) (h : Handle) : (s.readyPush h).xheld = s.xheld := rfl
@[simp] theorem State.readyPush_filled (s : State) (h : Handle) : (s.readyPush h).filled = s.filled := rfl
@[simp] theorem State.readyPush_cmd (s : State) (h : Handle) : (s.readyPush h).cmd = s.cmd := rfl
@[simp] theorem State.readyPush_rsp (s : State) (h : Handle) : (s.readyPush h).rsp = s.rsp := rfl
@[simp] theorem State.readyPush_agenda (s : State) (h : Handle) : (s.readyPush h).agenda = s.agenda := rfl

/-! ## `State.dropEvent` -/

@[simp] theorem State.dropEvent_cfg (s : State) : (s.dropEvent).cfg = s.cfg := rfl
@[simp] theorem State.dropEvent_color (s : State) : (s.dropEvent).color = s.color := rfl
@[simp] theorem State.dropEvent_rtmds (s : State) : (s.dropEvent).rtmds = s.rtmds := rfl
@[simp] theorem State.dropEvent_gtmds (s : State) : (s.dropEvent).gtmds = s.gtmds := rfl
@[simp] theorem State.dropEvent_btmds (s : State) : (s.dropEvent).btmds = s.btmds := rfl
@[simp] theorem State.dropEvent_count (s : State) : (s.dropEvent).count = s.count := rfl
@[simp] theorem State.dropEvent_inverted (s : State) : (s.dropEvent).inverted = s.inverted := rfl
@[simp] theorem State.dropEvent_blankbuf (s : State) : (s.dropEvent).blankbuf = s.blankbuf := rfl
@[simp] theorem State.dropEvent_sgphase (s : State) : (s.dropEvent).sgphase = s.sgphase := rfl
@[simp] theorem State.dropEvent_y (s : State) : (s.dropEvent).y = s.y := rfl
@[simp] theorem State.dropEvent_x (s : State) : (s.dropEvent).x = s.x := rfl
@[simp] theorem State.dropEvent_fsub (s : State) : (s.dropEvent).fsub = s.fsub := rfl
@[simp] theorem State.dropEvent_idxreg (s : State) : (s.dropEvent).idxreg = s.idxreg := rfl
@[simp] theorem State.dropEvent_rsym (s : State) : (s.dropEvent).rsym = s.rsym := rfl
@[simp] theorem State.dropEvent_gsym (s : State) : (s.dropEvent).gsym = s.gsym := rfl
@[simp] theorem State.dropEvent_held (s : State) : (s.dropEvent).held = s.held := rfl
@[simp] theorem State.dropEvent_exit (s : State) : (s.dropEvent).exit = s.exit := rfl
@[simp] theorem State.dropEvent_field (s : State) : (s.dropEvent).field = s.field := rfl
@[simp] theorem State.dropEvent_canvas (s : State) : (s.dropEvent).canvas = s.canvas := rfl
@[simp] theorem State.dropEvent_buf (s : State) : (s.dropEvent).buf = s.buf := rfl
@[simp] theorem State.dropEvent_freeq (s : State) : (s.dropEvent).freeq = s.freeq := rfl
@[simp] theorem State.dropEvent_readyq (s : State) : (s.dropEvent).readyq = s.readyq := rfl
@[simp] theorem State.dropEvent_xheld (s : State) : (s.dropEvent).xheld = s.xheld := rfl
@[simp] theorem State.dropEvent_filled (s : State) : (s.dropEvent).filled = s.filled := rfl
@[simp] theorem State.dropEvent_cmd (s : State) : (s.dropEvent).cmd = s.cmd := rfl
@[simp] theorem State.dropEvent_rsp (s : State) : (s.dropEvent).rsp = s.rsp := rfl
@[simp] theorem State.dropEvent_agenda (s : State) : (s.dropEvent).agenda = s.agenda.tail := rfl

/-! ## `State.storeEntry` -/

@[simp] theorem State.storeEntry_cfg (s : State) (i : PalIndex) (c : Colour) (n : BitVec 9) (w : Word) : (s.storeEntry i c n w).cfg = s.cfg := rfl
@[simp] theorem State.storeEntry_color (s : State) (i : PalIndex) (c : Colour) (n : BitVec 9) (w : Word) : (s.storeEntry i c n w).color = palSet s.color i c := rfl
@[simp] theorem State.storeEntry_rtmds (s : State) (i : PalIndex) (c : Colour) (n : BitVec 9) (w : Word) : (s.storeEntry i c n w).rtmds = s.rtmds := rfl
@[simp] theorem State.storeEntry_gtmds (s : State) (i : PalIndex) (c : Colour) (n : BitVec 9) (w : Word) : (s.storeEntry i c n w).gtmds = s.gtmds := rfl
@[simp] theorem State.storeEntry_btmds (s : State) (i : PalIndex) (c : Colour) (n : BitVec 9) (w : Word) : (s.storeEntry i c n w).btmds = s.btmds := rfl
@[simp] theorem State.storeEntry_count (s : State) (i : PalIndex) (c : Colour) (n : BitVec 9) (w : Word) : (s.storeEntry i c n w).count = n := rfl
@[simp] theorem State.storeEntry_inverted (s : State) (i : PalIndex) (c : Colour) (n : BitVec 9) (w : Word) : (s.storeEntry i c n w).inverted = s.inverted := rfl
@[simp] theorem State.storeEntry_blankbuf (s : State) (i : PalIndex) (c : Colour) (n : BitVec 9) (w : Word) : (s.storeEntry i c n w).blankbuf = s.blankbuf := rfl
@[simp] theorem State.storeEntry_sgphase (s : State) (i : PalIndex) (c : Colour) (n : BitVec 9) (w : Word) : (s.storeEntry i c n w).sgphase = s.sgphase := rfl
@[simp] theorem State.storeEntry_y (s : State) (i : PalIndex) (c : Colour) (n : BitVec 9) (w : Word) : (s.storeEntry i c n w).y = s.y := rfl
@[simp] theorem State.storeEntry_x (s : State) (i : PalIndex) (c : Colour) (n : BitVec 9) (w : Word) : (s.storeEntry i c n w).x = s.x := rfl
@[simp] theorem State.storeEntry_fsub (s : State) (i : PalIndex) (c : Colour) (n : BitVec 9) (w : Word) : (s.storeEntry i c n w).fsub = s.fsub := rfl
@[simp] theorem State.storeEntry_idxreg (s : State) (i : PalIndex) (c : Colour) (n : BitVec 9) (w : Word) : (s.storeEntry i c n w).idxreg = s.idxreg := rfl
@[simp] theorem State.storeEntry_rsym (s : State) (i : PalIndex) (c : Colour) (n : BitVec 9) (w : Word) : (s.storeEntry i c n w).rsym = s.rsym := rfl
@[simp] theorem State.storeEntry_gsym (s : State) (i : PalIndex) (c : Colour) (n : BitVec 9) (w : Word) : (s.storeEntry i c n w).gsym = s.gsym := rfl
@[simp] theorem State.storeEntry_held (s : State) (i : PalIndex) (c : Colour) (n : BitVec 9) (w : Word) : (s.storeEntry i c n w).held = s.held := rfl
@[simp] theorem State.storeEntry_exit (s : State) (i : PalIndex) (c : Colour) (n : BitVec 9) (w : Word) : (s.storeEntry i c n w).exit = s.exit := rfl
@[simp] theorem State.storeEntry_field (s : State) (i : PalIndex) (c : Colour) (n : BitVec 9) (w : Word) : (s.storeEntry i c n w).field = s.field := rfl
@[simp] theorem State.storeEntry_canvas (s : State) (i : PalIndex) (c : Colour) (n : BitVec 9) (w : Word) : (s.storeEntry i c n w).canvas = s.canvas := rfl
@[simp] theorem State.storeEntry_buf (s : State) (i : PalIndex) (c : Colour) (n : BitVec 9) (w : Word) : (s.storeEntry i c n w).buf = s.buf := rfl
@[simp] theorem State.storeEntry_freeq (s : State) (i : PalIndex) (c : Colour) (n : BitVec 9) (w : Word) : (s.storeEntry i c n w).freeq = s.freeq := rfl
@[simp] theorem State.storeEntry_readyq (s : State) (i : PalIndex) (c : Colour) (n : BitVec 9) (w : Word) : (s.storeEntry i c n w).readyq = s.readyq := rfl
@[simp] theorem State.storeEntry_xheld (s : State) (i : PalIndex) (c : Colour) (n : BitVec 9) (w : Word) : (s.storeEntry i c n w).xheld = s.xheld := rfl
@[simp] theorem State.storeEntry_filled (s : State) (i : PalIndex) (c : Colour) (n : BitVec 9) (w : Word) : (s.storeEntry i c n w).filled = s.filled := rfl
@[simp] theorem State.storeEntry_cmd (s : State) (i : PalIndex) (c : Colour) (n : BitVec 9) (w : Word) : (s.storeEntry i c n w).cmd = some ⟨tripletWrites i (encodeTriplet s.cfg.tmdsLut c s.inverted), w⟩ := rfl
@[simp] theorem State.storeEntry_rsp (s : State) (i : PalIndex) (c : Colour) (n : BitVec 9) (w : Word) : (s.storeEntry i c n w).rsp = s.rsp := rfl
@[simp] theorem State.storeEntry_agenda (s : State) (i : PalIndex) (c : Colour) (n : BitVec 9) (w : Word) : (s.storeEntry i c n w).agenda = s.agenda := rfl

/-! ## `State.putSym` and `State.putAll` -/

@[simp] theorem State.putSym_cfg (s : State) (e : ElemWrite) : (s.putSym e).cfg = s.cfg := by
  obtain ⟨c, _, _⟩ := e
  cases c <;> rfl
@[simp] theorem State.putSym_color (s : State) (e : ElemWrite) : (s.putSym e).color = s.color := by
  obtain ⟨c, _, _⟩ := e
  cases c <;> rfl
@[simp] theorem State.putSym_count (s : State) (e : ElemWrite) : (s.putSym e).count = s.count := by
  obtain ⟨c, _, _⟩ := e
  cases c <;> rfl
@[simp] theorem State.putSym_inverted (s : State) (e : ElemWrite) : (s.putSym e).inverted = s.inverted := by
  obtain ⟨c, _, _⟩ := e
  cases c <;> rfl
@[simp] theorem State.putSym_blankbuf (s : State) (e : ElemWrite) : (s.putSym e).blankbuf = s.blankbuf := by
  obtain ⟨c, _, _⟩ := e
  cases c <;> rfl
@[simp] theorem State.putSym_sgphase (s : State) (e : ElemWrite) : (s.putSym e).sgphase = s.sgphase := by
  obtain ⟨c, _, _⟩ := e
  cases c <;> rfl
@[simp] theorem State.putSym_y (s : State) (e : ElemWrite) : (s.putSym e).y = s.y := by
  obtain ⟨c, _, _⟩ := e
  cases c <;> rfl
@[simp] theorem State.putSym_x (s : State) (e : ElemWrite) : (s.putSym e).x = s.x := by
  obtain ⟨c, _, _⟩ := e
  cases c <;> rfl
@[simp] theorem State.putSym_fsub (s : State) (e : ElemWrite) : (s.putSym e).fsub = s.fsub := by
  obtain ⟨c, _, _⟩ := e
  cases c <;> rfl
@[simp] theorem State.putSym_idxreg (s : State) (e : ElemWrite) : (s.putSym e).idxreg = s.idxreg := by
  obtain ⟨c, _, _⟩ := e
  cases c <;> rfl
@[simp] theorem State.putSym_rsym (s : State) (e : ElemWrite) : (s.putSym e).rsym = s.rsym := by
  obtain ⟨c, _, _⟩ := e
  cases c <;> rfl
@[simp] theorem State.putSym_gsym (s : State) (e : ElemWrite) : (s.putSym e).gsym = s.gsym := by
  obtain ⟨c, _, _⟩ := e
  cases c <;> rfl
@[simp] theorem State.putSym_held (s : State) (e : ElemWrite) : (s.putSym e).held = s.held := by
  obtain ⟨c, _, _⟩ := e
  cases c <;> rfl
@[simp] theorem State.putSym_exit (s : State) (e : ElemWrite) : (s.putSym e).exit = s.exit := by
  obtain ⟨c, _, _⟩ := e
  cases c <;> rfl
@[simp] theorem State.putSym_field (s : State) (e : ElemWrite) : (s.putSym e).field = s.field := by
  obtain ⟨c, _, _⟩ := e
  cases c <;> rfl
@[simp] theorem State.putSym_canvas (s : State) (e : ElemWrite) : (s.putSym e).canvas = s.canvas := by
  obtain ⟨c, _, _⟩ := e
  cases c <;> rfl
@[simp] theorem State.putSym_buf (s : State) (e : ElemWrite) : (s.putSym e).buf = s.buf := by
  obtain ⟨c, _, _⟩ := e
  cases c <;> rfl
@[simp] theorem State.putSym_freeq (s : State) (e : ElemWrite) : (s.putSym e).freeq = s.freeq := by
  obtain ⟨c, _, _⟩ := e
  cases c <;> rfl
@[simp] theorem State.putSym_readyq (s : State) (e : ElemWrite) : (s.putSym e).readyq = s.readyq := by
  obtain ⟨c, _, _⟩ := e
  cases c <;> rfl
@[simp] theorem State.putSym_xheld (s : State) (e : ElemWrite) : (s.putSym e).xheld = s.xheld := by
  obtain ⟨c, _, _⟩ := e
  cases c <;> rfl
@[simp] theorem State.putSym_filled (s : State) (e : ElemWrite) : (s.putSym e).filled = s.filled := by
  obtain ⟨c, _, _⟩ := e
  cases c <;> rfl
@[simp] theorem State.putSym_cmd (s : State) (e : ElemWrite) : (s.putSym e).cmd = s.cmd := by
  obtain ⟨c, _, _⟩ := e
  cases c <;> rfl
@[simp] theorem State.putSym_rsp (s : State) (e : ElemWrite) : (s.putSym e).rsp = s.rsp := by
  obtain ⟨c, _, _⟩ := e
  cases c <;> rfl
@[simp] theorem State.putSym_agenda (s : State) (e : ElemWrite) : (s.putSym e).agenda = s.agenda := by
  obtain ⟨c, _, _⟩ := e
  cases c <;> rfl

@[simp] theorem State.putAll_nil (s : State) : s.putAll [] = s := rfl

@[simp] theorem State.putAll_cons (s : State) (e : ElemWrite) (ws : List ElemWrite) :
    s.putAll (e :: ws) = (s.putSym e).putAll ws := rfl

@[simp] theorem State.putAll_cfg (s : State) (ws : List ElemWrite) : (s.putAll ws).cfg = s.cfg := by
  induction ws generalizing s with
  | nil => rfl
  | cons e ws ih => simp [ih]
@[simp] theorem State.putAll_color (s : State) (ws : List ElemWrite) : (s.putAll ws).color = s.color := by
  induction ws generalizing s with
  | nil => rfl
  | cons e ws ih => simp [ih]
@[simp] theorem State.putAll_count (s : State) (ws : List ElemWrite) : (s.putAll ws).count = s.count := by
  induction ws generalizing s with
  | nil => rfl
  | cons e ws ih => simp [ih]
@[simp] theorem State.putAll_inverted (s : State) (ws : List ElemWrite) : (s.putAll ws).inverted = s.inverted := by
  induction ws generalizing s with
  | nil => rfl
  | cons e ws ih => simp [ih]
@[simp] theorem State.putAll_blankbuf (s : State) (ws : List ElemWrite) : (s.putAll ws).blankbuf = s.blankbuf := by
  induction ws generalizing s with
  | nil => rfl
  | cons e ws ih => simp [ih]
@[simp] theorem State.putAll_sgphase (s : State) (ws : List ElemWrite) : (s.putAll ws).sgphase = s.sgphase := by
  induction ws generalizing s with
  | nil => rfl
  | cons e ws ih => simp [ih]
@[simp] theorem State.putAll_y (s : State) (ws : List ElemWrite) : (s.putAll ws).y = s.y := by
  induction ws generalizing s with
  | nil => rfl
  | cons e ws ih => simp [ih]
@[simp] theorem State.putAll_x (s : State) (ws : List ElemWrite) : (s.putAll ws).x = s.x := by
  induction ws generalizing s with
  | nil => rfl
  | cons e ws ih => simp [ih]
@[simp] theorem State.putAll_fsub (s : State) (ws : List ElemWrite) : (s.putAll ws).fsub = s.fsub := by
  induction ws generalizing s with
  | nil => rfl
  | cons e ws ih => simp [ih]
@[simp] theorem State.putAll_idxreg (s : State) (ws : List ElemWrite) : (s.putAll ws).idxreg = s.idxreg := by
  induction ws generalizing s with
  | nil => rfl
  | cons e ws ih => simp [ih]
@[simp] theorem State.putAll_rsym (s : State) (ws : List ElemWrite) : (s.putAll ws).rsym = s.rsym := by
  induction ws generalizing s with
  | nil => rfl
  | cons e ws ih => simp [ih]
@[simp] theorem State.putAll_gsym (s : State) (ws : List ElemWrite) : (s.putAll ws).gsym = s.gsym := by
  induction ws generalizing s with
  | nil => rfl
  | cons e ws ih => simp [ih]
@[simp] theorem State.putAll_held (s : State) (ws : List ElemWrite) : (s.putAll ws).held = s.held := by
  induction ws generalizing s with
  | nil => rfl
  | cons e ws ih => simp [ih]
@[simp] theorem State.putAll_exit (s : State) (ws : List ElemWrite) : (s.putAll ws).exit = s.exit := by
  induction ws generalizing s with
  | nil => rfl
  | cons e ws ih => simp [ih]
@[simp] theorem State.putAll_field (s : State) (ws : List ElemWrite) : (s.putAll ws).field = s.field := by
  induction ws generalizing s with
  | nil => rfl
  | cons e ws ih => simp [ih]
@[simp] theorem State.putAll_canvas (s : State) (ws : List ElemWrite) : (s.putAll ws).canvas = s.canvas := by
  induction ws generalizing s with
  | nil => rfl
  | cons e ws ih => simp [ih]
@[simp] theorem State.putAll_buf (s : State) (ws : List ElemWrite) : (s.putAll ws).buf = s.buf := by
  induction ws generalizing s with
  | nil => rfl
  | cons e ws ih => simp [ih]
@[simp] theorem State.putAll_freeq (s : State) (ws : List ElemWrite) : (s.putAll ws).freeq = s.freeq := by
  induction ws generalizing s with
  | nil => rfl
  | cons e ws ih => simp [ih]
@[simp] theorem State.putAll_readyq (s : State) (ws : List ElemWrite) : (s.putAll ws).readyq = s.readyq := by
  induction ws generalizing s with
  | nil => rfl
  | cons e ws ih => simp [ih]
@[simp] theorem State.putAll_xheld (s : State) (ws : List ElemWrite) : (s.putAll ws).xheld = s.xheld := by
  induction ws generalizing s with
  | nil => rfl
  | cons e ws ih => simp [ih]
@[simp] theorem State.putAll_filled (s : State) (ws : List ElemWrite) : (s.putAll ws).filled = s.filled := by
  induction ws generalizing s with
  | nil => rfl
  | cons e ws ih => simp [ih]
@[simp] theorem State.putAll_cmd (s : State) (ws : List ElemWrite) : (s.putAll ws).cmd = s.cmd := by
  induction ws generalizing s with
  | nil => rfl
  | cons e ws ih => simp [ih]
@[simp] theorem State.putAll_rsp (s : State) (ws : List ElemWrite) : (s.putAll ws).rsp = s.rsp := by
  induction ws generalizing s with
  | nil => rfl
  | cons e ws ih => simp [ih]
@[simp] theorem State.putAll_agenda (s : State) (ws : List ElemWrite) : (s.putAll ws).agenda = s.agenda := by
  induction ws generalizing s with
  | nil => rfl
  | cons e ws ih => simp [ih]

end Sys2Proof.Machine
end

