-- ==== Sys2Proof/Laws/Buffers.lean ====
section
/-! SUPPORT. The laws of the scanline buffers: slots within a word, words within a buffer, and what writing a column does. -/

namespace Sys2Proof.Machine

open Sys2Proof

/-! ## Slots of a word (20_memory.md R65, R66) -/

theorem slotBits_getLsbD (k : Nat) (v : Symbol) (i : Nat) :
    (slotBits k v).getLsbD i = (decide (i < 32) && (decide (10 * k ≤ i) && v.getLsbD (i - 10 * k))) := by
  simp only [slotBits, BitVec.getLsbD_shiftLeft, BitVec.getLsbD_setWidth]
  by_cases h1 : i < 32 <;> by_cases h2 : i < 10 * k <;>
    simp [h1, h2, Nat.not_le.2, Nat.not_lt.1]; try omega

/-- The bits of a word after a slot write: the slot's ten bits are the symbol's; others are cleared by slot 0, kept by the rest. -/
theorem setSlot_getLsbD (w : Word) (k : Nat) (v : Symbol) (i : Nat) (hi : i < 32) :
    (setSlot w k v).getLsbD i =
      if 10 * k ≤ i ∧ i < 10 * k + 10 then v.getLsbD (i - 10 * k) else (decide (k ≠ 0) && w.getLsbD i) := by
  unfold setSlot
  by_cases hk : k = 0
  · subst hk
    rw [if_pos rfl, slotBits_getLsbD]
    by_cases h : i < 10
    · simp [h, hi]
    · have : v.getLsbD i = false := BitVec.getLsbD_of_ge _ _ (by omega)
      simp [h, this]
  · rw [if_neg hk]
    simp only [BitVec.getLsbD_or, BitVec.getLsbD_and, BitVec.getLsbD_not, slotBits_getLsbD, hi, decide_true,
      Bool.true_and, ne_eq, hk, not_false_eq_true]
    by_cases h1 : 10 * k ≤ i
    · by_cases h2 : i < 10 * k + 10
      · have h3 : i - 10 * k < 10 := by omega
        have h4 : (0x3FF#10).getLsbD (i - 10 * k) = true := by
          generalize i - 10 * k = j at h3
          revert j; decide
        simp [h1, h2, h4]
      · have h3 : (0x3FF#10).getLsbD (i - 10 * k) = false := BitVec.getLsbD_of_ge _ _ (by omega)
        have h4 : v.getLsbD (i - 10 * k) = false := BitVec.getLsbD_of_ge _ _ (by omega)
        simp [h1, h2, h3, h4]
    · simp [h1]

/-! ## Words of a buffer (20_memory.md R64) -/

/-- Keys of words inside buffers are equal only for the same word of the same buffer. -/
theorem bufKey_inj {c : Config} {g h : Handle} {m n : Nat} (hm : m < c.bufWords) (hn : n < c.bufWords)
    (he : bufKey c g m = bufKey c h n) : g = h ∧ m = n := by
  unfold bufKey at he
  have hp : 0 < c.bufWords := by omega
  have h1 : g = h := by
    have := congrArg (· / c.bufWords) he
    simpa [Nat.mul_comm _ c.bufWords, Nat.mul_add_div hp, Nat.div_eq_of_lt hm, Nat.div_eq_of_lt hn] using this
  subst h1
  exact ⟨rfl, by omega⟩

theorem slotWord_lt {c : Config} (hc : c.wf = true) (ch : Channel) {x : Nat} (hx : x < c.activeWidth) :
    slotWord c ch x < c.bufWords := by
  have h1 := SegOrder.pos_lt c.segOrder ch
  have h2 := Config.column_word_lt hc hx
  have h3 : c.segOrder.pos ch * c.segWords ≤ 2 * c.segWords := Nat.mul_le_mul_right _ (by omega)
  unfold slotWord Config.bufWords
  omega

/-- Words of different channels are different words. -/
theorem slotWord_inj {c : Config} (hc : c.wf = true) {a b : Channel} {x z : Nat} (hx : x < c.activeWidth)
    (hz : z < c.activeWidth) (he : slotWord c a x = slotWord c b z) :
    a = b ∧ x / c.symbolsPerWord = z / c.symbolsPerWord := by
  have h1 := Config.column_word_lt hc hx
  have h2 := Config.column_word_lt hc hz
  have hp : 0 < c.segWords := Nat.lt_of_le_of_lt (Nat.zero_le _) h1
  unfold slotWord at he
  have h3 : c.segOrder.pos a = c.segOrder.pos b := by
    have := congrArg (· / c.segWords) he
    simpa [Nat.mul_comm _ c.segWords, Nat.mul_add_div hp, Nat.div_eq_of_lt h1, Nat.div_eq_of_lt h2] using this
  rw [h3] at he
  exact ⟨SegOrder.pos_inj _ h3, Nat.add_left_cancel he⟩

/-- One slot write: its own word changes, every other word of every buffer reads as before. -/
theorem State.symWrite_bufWord {s : State} (hb : Memory.wf s.buf = true) (hc : s.cfg.wf = true) {h g : Handle}
    {ch : Channel} {x n : Nat} (v : Symbol) (hx : x < s.cfg.activeWidth) (hn : n < s.cfg.bufWords) :
    (s.symWrite h ch x v).bufWord g n =
      if g = h ∧ n = slotWord s.cfg ch x then setSlot (s.bufWord h n) (x % s.cfg.symbolsPerWord) v
      else s.bufWord g n := by
  show Memory.read (Memory.write s.buf _ _) (bufKey s.cfg g n) = _
  split
  · rename_i he
    obtain ⟨rfl, rfl⟩ := he
    exact Memory.read_write_same _ _ hb
  · rename_i he
    apply Memory.read_write_other _ hb
    intro hk
    exact he (bufKey_inj hn (slotWord_lt hc ch hx) hk)

theorem State.symWrite_buf_wf {s : State} (h : Handle) (ch : Channel) (x : Nat) (v : Symbol)
    (hb : Memory.wf s.buf = true) : Memory.wf (s.symWrite h ch x v).buf = true :=
  Memory.wf_write _ _ hb

theorem State.columnWrite_buf_wf {s : State} (h : Handle) (x : Nat) (t : Triplet) (hb : Memory.wf s.buf = true) :
    Memory.wf (s.columnWrite h x t).buf = true :=
  State.symWrite_buf_wf _ _ _ _ (State.symWrite_buf_wf _ _ _ _ (State.symWrite_buf_wf _ _ _ _ hb))

/-- What the three slot writes of a column do. -/
theorem State.columnWrite_written {s : State} (hb : Memory.wf s.buf = true) (hc : s.cfg.wf = true) (h : Handle)
    {x : Nat} (t : Triplet) (hx : x < s.cfg.activeWidth) : ColumnWritten s (s.columnWrite h x t) h x t := by
  have w1 := State.symWrite_buf_wf h .red x t.r hb
  have w2 := State.symWrite_buf_wf h .green x t.g w1
  have key : ∀ (g : Handle) (n : Nat), n < s.cfg.bufWords → (s.columnWrite h x t).bufWord g n =
      if g = h ∧ n = slotWord s.cfg .blue x then
        setSlot (s.bufWord h n) (x % s.cfg.symbolsPerWord) t.b
      else if g = h ∧ n = slotWord s.cfg .green x then
        setSlot (s.bufWord h n) (x % s.cfg.symbolsPerWord) t.g
      else if g = h ∧ n = slotWord s.cfg .red x then
        setSlot (s.bufWord h n) (x % s.cfg.symbolsPerWord) t.r
      else s.bufWord g n := by
    intro g n hn
    unfold State.columnWrite
    rw [State.symWrite_bufWord w2 (by simpa using hc) t.b (by simpa using hx) (by simpa using hn)]
    simp only [symWrite_cfg]
    rw [State.symWrite_bufWord w1 (by simpa using hc) t.g (by simpa using hx) (by simpa using hn),
      State.symWrite_bufWord w1 (by simpa using hc) t.g (by simpa using hx) (by simpa using hn)]
    simp only [symWrite_cfg]
    rw [State.symWrite_bufWord hb hc t.r hx hn, State.symWrite_bufWord hb hc t.r hx hn]
    have hne : ∀ a b : Channel, a ≠ b → slotWord s.cfg a x ≠ slotWord s.cfg b x :=
      fun a b hab he => hab (slotWord_inj hc hx hx he).1
    by_cases hg : g = h
    · subst hg
      by_cases h1 : n = slotWord s.cfg .blue x
      · have h2 : n ≠ slotWord s.cfg .green x := fun he => hne .green .blue (by decide) (he.symm.trans h1)
        have h3 : n ≠ slotWord s.cfg .red x := fun he => hne .red .blue (by decide) (he.symm.trans h1)
        simp only [h2, h3, and_false, if_false]
      · by_cases h2 : n = slotWord s.cfg .green x
        · have h3 : n ≠ slotWord s.cfg .red x := fun he => hne .red .green (by decide) (he.symm.trans h2)
          simp only [h1, h3, and_false, if_false]
        · simp only [h1, h2, and_false, if_false]
    · simp [hg]
  constructor
  · intro ch
    rw [key h _ (slotWord_lt hc ch hx)]
    have hne : ∀ a b : Channel, a ≠ b → slotWord s.cfg a x ≠ slotWord s.cfg b x :=
      fun a b hab he => hab (slotWord_inj hc hx hx he).1
    cases ch
    · rw [if_neg fun he => hne .red .blue (by decide) he.2, if_neg fun he => hne .red .green (by decide) he.2,
        if_pos ⟨rfl, rfl⟩]
      rfl
    · rw [if_neg fun he => hne .green .blue (by decide) he.2, if_pos ⟨rfl, rfl⟩]
      rfl
    · rw [if_pos ⟨rfl, rfl⟩]
      rfl
  · intro g n hn hne
    rw [key g n hn, if_neg (hne .blue), if_neg (hne .green), if_neg (hne .red)]

/-! ## Words built slot by slot, and the canvas -/

/-- A packed word has no bit above its slots. -/
theorem packWord_high (f : Nat → Symbol) (k : Nat) (i : Nat) (h : 10 * k ≤ i) : (packWord f k).getLsbD i = false := by
  induction k with
  | zero => simp [packWord]
  | succ k ih =>
    simp only [packWord, BitVec.getLsbD_or, slotBits_getLsbD]
    rw [ih (by omega), BitVec.getLsbD_of_ge _ _ (by omega)]; simp

theorem setSlot_first (w : Word) (f : Nat → Symbol) : setSlot w 0 (f 0) = packWord f 1 := by
  simp [setSlot, packWord]

theorem setSlot_packWord (f : Nat → Symbol) (k : Nat) : setSlot (packWord f k) k (f k) = packWord f (k + 1) := by
  apply BitVec.eq_of_getLsbD_eq
  intro i hi
  rw [setSlot_getLsbD _ _ _ _ hi]
  simp only [packWord, BitVec.getLsbD_or, slotBits_getLsbD, hi, decide_true, Bool.true_and]
  by_cases h1 : 10 * k ≤ i
  · by_cases h2 : i < 10 * k + 10
    · rw [if_pos ⟨h1, h2⟩, packWord_high f k i h1]; simp [h1]
    · rw [if_neg (by omega), packWord_high f k i h1, BitVec.getLsbD_of_ge (f k) _ (by omega)]; simp
  · rw [if_neg (by omega)]; simp [h1]; intro _ h; subst h; exact absurd (Nat.zero_le i) (by omega)

theorem canvasKey_inj {c : Config} {x y u v : Nat} (h1 : x < c.canvasWidth) (h2 : u < c.canvasWidth) (h : canvasKey c v u = canvasKey c y x) : u = x ∧ v = y := by
  unfold canvasKey at h
  have hp : 0 < c.canvasWidth := by omega
  have : v = y := by
    have := congrArg (· / c.canvasWidth) h
    simpa [Nat.mul_comm _ c.canvasWidth, Nat.mul_add_div hp, Nat.div_eq_of_lt h1, Nat.div_eq_of_lt h2] using this
  subst this
  exact ⟨by omega, rfl⟩

/-- A canvas byte after a write inside the canvas. -/
theorem State.canvasRead_canvasWrite {s : State} (hw : Memory.wf s.canvas = true) {x y u v} (b : Byte) (h1 : x < s.cfg.canvasWidth) (h2 : u < s.cfg.canvasWidth) :
   (s.canvasWrite x y b).canvasRead v u = if u = x ∧ v = y then b else s.canvasRead v u := by
  show Memory.read (Memory.write s.canvas (canvasKey s.cfg y x) b) (canvasKey s.cfg v u) = _
  split
  · rename_i h; obtain ⟨rfl, rfl⟩ := h
    exact Memory.read_write_same _ _ hw
  · rename_i h; exact Memory.read_write_other _ hw fun he => h (canvasKey_inj h1 h2 he)

end Sys2Proof.Machine
end

