-- ==== Sys2Proof/Laws/Decode.lean ====
section
/-! SUPPORT. Small laws of the codes: a phase's code decodes to its instruction, and the fields of an assembled command word. -/

namespace Sys2Proof

@[simp] theorem phaseOfCode_code (p : Phase) : phaseOfCode p.code = some p := by cases p <;> rfl

@[simp] theorem decode_phase_code (p : Phase) : decode (.phase p.code) = .ok p.instr := by cases p <;> rfl

theorem Phase.code_lt (p : Phase) : p.code.toNat < 9 := by cases p <;> decide

theorem commandWord_toNat (op : BitVec 8) (arg : BitVec 16) :
    (commandWord op arg).toNat = op.toNat * 2 ^ 24 + arg.toNat := by
  show ((op ++ 0#8) ++ arg : BitVec (8 + 8 + 16)).toNat = _
  rw [BitVec.toNat_append, BitVec.toNat_append, ← Nat.shiftLeft_add_eq_or_of_lt (by omega),
    ← Nat.shiftLeft_add_eq_or_of_lt (by decide)]
  simp only [Nat.shiftLeft_eq, BitVec.toNat_ofNat]
  omega

@[simp] theorem opField_commandWord (op : BitVec 8) (arg : BitVec 16) : opField (commandWord op arg) = op := by
  apply BitVec.eq_of_toNat_eq
  simp only [opField, BitVec.extractLsb'_toNat, commandWord_toNat, Nat.shiftRight_eq_div_pow]
  omega

@[simp] theorem rsvField_commandWord (op : BitVec 8) (arg : BitVec 16) : rsvField (commandWord op arg) = 0 := by
  apply BitVec.eq_of_toNat_eq
  simp only [rsvField, BitVec.extractLsb'_toNat, commandWord_toNat, Nat.shiftRight_eq_div_pow]
  simp only [BitVec.ofNat_eq_ofNat, BitVec.toNat_ofNat]
  omega

@[simp] theorem argField_commandWord (op : BitVec 8) (arg : BitVec 16) : argField (commandWord op arg) = arg := by
  apply BitVec.eq_of_toNat_eq
  simp only [argField, BitVec.extractLsb'_toNat, commandWord_toNat, Nat.shiftRight_eq_div_pow]
  omega

end Sys2Proof
end

