-- ==== Sys2Proof/Laws/Palette.lean ====
section
/-! SUPPORT. The laws of the palette arrays, of a command's element writes, and of the searches. -/

namespace Sys2Proof

theorem palGet_palSet {α : Type} (v : PalArray α) (i j : PalIndex) (x : α) :
    palGet (palSet v i x) j = if i = j then x else palGet v j := by
  unfold palGet palSet
  rw [Vector.getElem_set]
  simp [BitVec.toNat_inj]

@[simp] theorem palGet_palSet_same {α : Type} (v : PalArray α) (i : PalIndex) (x : α) :
    palGet (palSet v i x) i = x := by simp [palGet_palSet]

theorem palGet_palSet_other {α : Type} (v : PalArray α) {i j : PalIndex} (x : α) (h : i ≠ j) :
    palGet (palSet v i x) j = palGet v j := by simp [palGet_palSet, h]

/-- Two palette arrays with equal elements are equal. -/
theorem palArray_ext {α : Type} {v w : PalArray α} (h : ∀ i : PalIndex, palGet v i = palGet w i) : v = w := by
  apply Vector.ext
  intro i hi
  have := h (BitVec.ofNat 8 i)
  unfold palGet at this
  simpa [Nat.mod_eq_of_lt hi] using this

theorem palGet_palInit {α : Type} (f : Vector α 16) (r : α) (i : PalIndex) :
    palGet (palInit f r) i = if h : i.toNat < 16 then f[i.toNat] else r := by
  unfold palGet palInit
  simp only [Vector.getElem_mk, List.getElem_toArray]
  rw [List.getElem_append]
  split <;> rename_i h <;> rw [Vector.length_toList] at h
  · rw [dif_pos h, Vector.getElem_toList]
  · rw [dif_neg h, List.getElem_replicate]

end Sys2Proof

namespace Sys2Proof.Machine

open Sys2Proof

/-! ## Element writes -/

theorem State.triplet_eq (s : State) (i : PalIndex) :
    s.triplet i = ⟨palGet (s.symbols .red) i, palGet (s.symbols .green) i, palGet (s.symbols .blue) i⟩ := rfl

/-- What one element write does to the triplet arrays. -/
theorem State.putSym_symbols (s : State) (e : ElemWrite) (ch : Channel) (i : PalIndex) :
    palGet ((s.putSym e).symbols ch) i = if e.target = (ch, i) then e.value else palGet (s.symbols ch) i := by
  obtain ⟨c, k, v⟩ := e
  cases c <;> cases ch <;>
    simp [State.putSym, State.symbols, ElemWrite.target, palGet_palSet]

/-- An element no write goes to keeps its value. -/
theorem State.putAll_symbols_other (s : State) (ws : List ElemWrite) (ch : Channel) (i : PalIndex)
    (h : ∀ e ∈ ws, e.target ≠ (ch, i)) : palGet ((s.putAll ws).symbols ch) i = palGet (s.symbols ch) i := by
  induction ws generalizing s with
  | nil => rfl
  | cons e ws ih =>
    rw [State.putAll_cons, ih _ fun d hd => h d (List.mem_cons_of_mem _ hd), State.putSym_symbols,
      if_neg (h e List.mem_cons_self)]

/-- An element that one write goes to, the writes being to different elements, has that write's value. -/
theorem State.putAll_symbols_mem (s : State) (ws : List ElemWrite) (e : ElemWrite) (he : e ∈ ws)
    (hd : (ws.map ElemWrite.target).Nodup) :
    palGet ((s.putAll ws).symbols e.chan) e.index = e.value := by
  induction ws generalizing s with
  | nil => cases he
  | cons d ws ih =>
    rw [List.map_cons, List.nodup_cons] at hd
    rw [State.putAll_cons]
    rcases List.mem_cons.1 he with rfl | he
    · rw [State.putAll_symbols_other, State.putSym_symbols, if_pos (show e.target = (e.chan, e.index) from rfl)]
      intro d' hd' ht
      exact hd.1 (List.mem_map.2 ⟨d', hd', ht⟩)
    · exact ih _ he hd.2

/-- A turn of the command agent: nothing is enabled, or the response is sent, or one pending write is made. -/
theorem State.agentStep_cases (s : State) (k : Nat) :
    (s.agentStep k = s) ∨
    (∃ w, s.cmd = some ⟨[], w⟩ ∧ s.agentStep k = { s with cmd := none }.respond w) ∨
    (∃ ws w e, s.cmd = some ⟨ws, w⟩ ∧ ws[k]? = some e ∧
      s.agentStep k = { s.putSym e with cmd := some ⟨ws.eraseIdx k, w⟩ }) := by
  rcases hc : s.cmd with _ | ⟨ws, w⟩
  · exact .inl (by simp [State.agentStep, hc])
  · rcases ws with _ | ⟨e, ws⟩
    · exact .inr (.inl ⟨w, rfl, by simp [State.agentStep, hc]⟩)
    · rcases hk : (e :: ws)[k]? with _ | d
      · exact .inl (by simp only [State.agentStep, hc, hk])
      · exact .inr (.inr ⟨e :: ws, w, d, rfl, hk, by simp only [State.agentStep, hc, hk]⟩)

@[simp] theorem State.finish_of_none (s : State) (h : s.cmd = none) : s.finish = s := by simp [State.finish, h]

theorem State.finish_of_some (s : State) {c : Command} (h : s.cmd = some c) :
    s.finish = { s.putAll c.writes with cmd := none }.respond c.response := by simp [State.finish, h]

theorem State.pending_of_none (s : State) (h : s.cmd = none) : s.pending = [] := by simp [State.pending, h]

theorem State.pending_of_some (s : State) {c : Command} (h : s.cmd = some c) : s.pending = c.writes := by
  simp [State.pending, h]

/-! ## Searches -/

/-- The colour at position `i` of the entries in use. -/
theorem State.inUse_getElem? (s : State) (i : Nat) :
    s.inUse[i]? = if i < s.count.toNat ∧ i < 256 then some (palGet s.color (BitVec.ofNat 8 i)) else none := by
  unfold State.inUse
  rw [List.getElem?_take]
  by_cases h1 : i < s.count.toNat
  · by_cases h2 : i < 256
    · simp [h1, h2, palGet, Nat.mod_eq_of_lt h2]
    · simp [h1, h2]
  · simp [h1]

theorem State.inUse_length (s : State) : s.inUse.length = min s.count.toNat 256 := by simp [State.inUse]

theorem State.inUse_getElem (s : State) (i : Nat) (h : i < s.inUse.length) :
    s.inUse[i] = palGet s.color (BitVec.ofNat 8 i) := by
  have h' := h
  rw [State.inUse_length] at h'
  have := s.inUse_getElem? i
  rw [if_pos (by omega), List.getElem?_eq_getElem h] at this
  simpa using this

/-- A search over the entries in use answers `i`: `i` is in use and satisfies, no lower index does. -/
theorem State.search_some (s : State) (p : Colour → Bool) (i : Nat) :
    s.inUse.findIdx? p = some i ↔
      i < s.count.toNat ∧ i < 256 ∧ p (palGet s.color (BitVec.ofNat 8 i)) = true ∧
        ∀ j < i, p (palGet s.color (BitVec.ofNat 8 j)) = false := by
  rw [List.findIdx?_eq_some_iff_getElem]
  constructor
  · rintro ⟨h, hp, hj⟩
    have h' := h
    rw [State.inUse_length] at h'
    refine ⟨by omega, by omega, by rwa [← s.inUse_getElem i h], fun j hji => ?_⟩
    have := hj j hji
    rwa [s.inUse_getElem j (by omega), Bool.not_eq_true] at this
  · rintro ⟨h1, h2, hp, hj⟩
    have h : i < s.inUse.length := by rw [State.inUse_length]; omega
    refine ⟨h, by rwa [s.inUse_getElem i h], fun j hji => ?_⟩
    rw [s.inUse_getElem j (by omega), hj j hji]
    simp

/-- A search over the entries in use fails: no entry in use satisfies. -/
theorem State.search_none (s : State) (p : Colour → Bool) :
    s.inUse.findIdx? p = none ↔
      ∀ i : PalIndex, i.toNat < s.count.toNat → p (palGet s.color i) = false := by
  rw [List.findIdx?_eq_none_iff]
  constructor
  · intro h i hi
    apply h
    have hl : i.toNat < s.inUse.length := by rw [State.inUse_length]; omega
    have := s.inUse_getElem i.toNat hl
    rw [BitVec.ofNat_toNat, BitVec.setWidth_eq] at this
    rw [← this]
    exact List.getElem_mem hl
  · intro h x hx
    obtain ⟨i, hi, rfl⟩ := List.mem_iff_getElem.1 hx
    have hl := hi
    rw [State.inUse_length] at hl
    rw [s.inUse_getElem i hi]
    apply h
    rw [BitVec.toNat_ofNat, Nat.mod_eq_of_lt (by omega)]
    omega

/-! ## What a command's writes leave -/

/-- Writes depend on the triplet arrays alone. -/
theorem State.putAll_congr (ws : List ElemWrite) {a b : State} (h : ∀ ch, a.symbols ch = b.symbols ch) : ∀ ch, (a.putAll ws).symbols ch = (b.putAll ws).symbols ch := by
  induction ws generalizing a b with
  | nil => exact h
  | cons e ws ih =>
    rw [State.putAll_cons, State.putAll_cons]
    apply ih
    intro ch
    apply palArray_ext
    intro i
    rw [State.putSym_symbols, State.putSym_symbols, h]

/-- Writes change the triplet arrays alone. -/
theorem State.putAll_frame (s : State) (ws : List ElemWrite) : s.putAll ws = { s with rtmds := (s.putAll ws).rtmds, gtmds := (s.putAll ws).gtmds, btmds := (s.putAll ws).btmds } := by
  induction ws generalizing s with
  | nil => rfl
  | cons e ws ih =>
    rw [State.putAll_cons, ih]
    obtain ⟨c, i, v⟩ := e
    cases c <;> simp [State.putSym]

/-- A pending write made first, whichever it is, leaves the same elements. -/
theorem State.putAll_eraseIdx (s : State) (ws : List ElemWrite) (k : Nat) (e : ElemWrite) (hk : ws[k]? = some e) (hd : (ws.map ElemWrite.target).Nodup) (ch : Channel) (i : PalIndex) :
    palGet (((s.putSym e).putAll (ws.eraseIdx k)).symbols ch) i = palGet ((s.putAll ws).symbols ch) i := by
  induction ws generalizing s k with
  | nil => simp at hk
  | cons d ws ih =>
    rw [List.map_cons, List.nodup_cons] at hd
    cases k with
    | zero => simp at hk; subst hk; simp
    | succ k =>
      simp only [List.getElem?_cons_succ] at hk
      simp only [List.eraseIdx_cons_succ, State.putAll_cons]
      rw [← ih (s.putSym d) k hk hd.2]
      congr 1
      apply State.putAll_congr
      intro ch
      apply palArray_ext
      intro i
      simp only [State.putSym_symbols]
      have hne : d.target ≠ e.target := by
        intro h; apply hd.1; rw [h]; exact List.mem_map.2 ⟨e, List.mem_of_getElem? hk, rfl⟩
      split_ifs with h1 h2 <;> first | rfl | (exact absurd (h2.trans h1.symm) hne.symm)

/-- A command with element writes, finished. -/
theorem State.finish_startCommand (s : State) (ws : List ElemWrite) (w : Word) : (s.startCommand ws w).finish = {(s.putAll ws) with cmd := none, rsp := s.rsp ++ [w]} := by
  rw [State.finish_of_some _ (show (s.startCommand ws w).cmd = some ⟨ws, w⟩ from rfl)]
  simp only
  have : (s.startCommand ws w).putAll ws = {s.putAll ws with cmd := some ⟨ws,w⟩} := by
    have h := State.putAll_congr ws (a := s.startCommand ws w) (b := s) (by intro ch; rfl)
    rw [State.putAll_frame s ws, State.putAll_frame (s.startCommand ws w)]
    have h1 := h .red
    have h2 := h .green
    have h3 := h .blue
    simp only [State.symbols] at h1 h2 h3
    rw [h1, h2, h3]; rfl
  rw [this, State.putAll_frame]; rfl

/-- A stored entry, finished. -/
theorem State.finish_storeEntry (s : State) (i c n w) : (s.storeEntry i c n w).finish =
   { s with color := palSet s.color i c, count := n,
            rtmds := palSet s.rtmds i (encodeTriplet s.cfg.tmdsLut c s.inverted).r,
            gtmds := palSet s.gtmds i (encodeTriplet s.cfg.tmdsLut c s.inverted).g,
            btmds := palSet s.btmds i (encodeTriplet s.cfg.tmdsLut c s.inverted).b,
            cmd := none, rsp := s.rsp ++ [w] } := by rfl

/-- The triplet writes of different indices go to different elements. -/
theorem tripletWrites_targets_nodup (l : List PalIndex) (g : PalIndex → Triplet) (hl : l.Nodup) : ((l.flatMap fun i => tripletWrites i (g i)).map ElemWrite.target).Nodup := by
  rw [List.map_flatMap]
  rw [List.nodup_flatMap]
  constructor
  · intro i _; simp [tripletWrites, ElemWrite.target]
  · refine hl.pairwise_of_forall_ne ?_
    intro a _ b _ hab x hx hy
    simp [tripletWrites, ElemWrite.target] at hx hy
    rcases hx with rfl | rfl | rfl <;> simp_all

/-- The triplet writes of a list of different indices give those indices their triplets and leave the others. -/
theorem State.triplet_putAll (s : State) (l : List PalIndex) (g : PalIndex → Triplet) (hl : l.Nodup) (i : PalIndex) :
   (s.putAll (l.flatMap fun i => tripletWrites i (g i))).triplet i = if i ∈ l then g i else s.triplet i := by
  have hn := tripletWrites_targets_nodup l g hl
  split
  · rename_i hi
    have hm : ∀ e ∈ tripletWrites i (g i), e ∈ l.flatMap fun i => tripletWrites i (g i) := fun e he => List.mem_flatMap.2 ⟨i, hi, he⟩
    have h1 := State.putAll_symbols_mem s _ ⟨.red, i, (g i).r⟩ (hm _ (by simp [tripletWrites])) hn
    have h2 := State.putAll_symbols_mem s _ ⟨.green, i, (g i).g⟩ (hm _ (by simp [tripletWrites])) hn
    have h3 := State.putAll_symbols_mem s _ ⟨.blue, i, (g i).b⟩ (hm _ (by simp [tripletWrites])) hn
    rw [State.triplet_eq]
    simp only at h1 h2 h3
    rw [h1, h2, h3]
  · rename_i hi
    have hm : ∀ ch, ∀ e ∈ l.flatMap fun i => tripletWrites i (g i), e.target ≠ (ch, i) := by
      intro ch e he
      obtain ⟨j, hj, he⟩ := List.mem_flatMap.1 he
      simp [tripletWrites] at he
      intro h
      rcases he with rfl | rfl | rfl <;> simp [ElemWrite.target] at h <;> (obtain ⟨_, rfl⟩ := h; exact hi hj)
    rw [State.triplet_eq, State.triplet_eq, State.putAll_symbols_other _ _ _ _ (hm _), State.putAll_symbols_other _ _ _ _ (hm _), State.putAll_symbols_other _ _ _ _ (hm _)]

/-- The first `n` palette indices. -/
def firstIndices (n : Nat) : List PalIndex := (List.range n).map (BitVec.ofNat 8)

theorem firstIndices_nodup {n : Nat} (h : n ≤ 256) : (firstIndices n).Nodup := by
  apply List.Nodup.map_on _ List.nodup_range
  intro a ha b hb he
  have := congrArg BitVec.toNat he
  simp only [BitVec.toNat_ofNat, List.mem_range] at *
  omega

theorem mem_firstIndices {n : Nat} (h : n ≤ 256) (i : PalIndex) : i ∈ firstIndices n ↔ i.toNat < n := by
  unfold firstIndices
  rw [List.mem_map]
  constructor
  · rintro ⟨a, ha, rfl⟩; simp only [BitVec.toNat_ofNat, List.mem_range] at *; omega
  · intro hi; exact ⟨i.toNat, by simpa using hi, by simp⟩

theorem resetWrites_eq (c : Config) : resetWrites c = (firstIndices 256).flatMap fun i => tripletWrites i ⟨palGet (resetSymbols c .red) i, palGet (resetSymbols c .green) i, palGet (resetSymbols c .blue) i⟩ := by
  unfold resetWrites firstIndices
  rw [List.flatMap_map]

theorem State.invertWrites_eq (s : State) (f : Bool) : s.invertWrites f = (firstIndices (min s.count.toNat 256)).flatMap fun i => tripletWrites i (encodeTriplet s.cfg.tmdsLut (palGet s.color i) f) := by
  unfold State.invertWrites firstIndices
  rw [List.flatMap_map]
  have : s.inUse.zipIdx = (List.range (min s.count.toNat 256)).map fun i => (palGet s.color (BitVec.ofNat 8 i), i) := by
    apply List.ext_getElem
    · simp [State.inUse_length]
    · intro i h1 h2
      simp only [List.getElem_zipIdx, List.getElem_map, List.getElem_range]
      rw [s.inUse_getElem]; simp
  rw [this, List.flatMap_map]

theorem palGet_resetSymbols (c : Config) (ch : Channel) (i : PalIndex) : palGet (resetSymbols c ch) i = if h : i.toNat < 16 then (encodeTriplet c.tmdsLut c.std16[i.toNat] false).chan ch else 0 := by
  unfold resetSymbols
  rw [palGet_palInit]
  split
  · simp
  · rfl

theorem palGet_resetColors (c : Config) (i : PalIndex) : palGet (resetColors c) i = if h : i.toNat < 16 then c.std16[i.toNat] else 0 := palGet_palInit _ _ _

/-- The fields of a COL2IDX response. -/
theorem indexResponse_fields (i : PalIndex) (e : Bool) : (indexResponse i e).getLsbD 8 = e ∧ (indexResponse i e).extractLsb' 0 8 = i ∧ (indexResponse i e).extractLsb' 9 23 = 0 := by
  revert i e; decide +kernel

end Sys2Proof.Machine
end

