-- ==== Sys2Proof/Laws/Step.lean ====
section
/-! SUPPORT. What a turn and a meaning can do: one inversion lemma for each shared operation and each instruction with a case
split ("if it answers next t, then one of these"), and the equations of the turns. Proofs cite these and do not unfold. -/

namespace Sys2Proof.Machine

open Sys2Proof

variable {s t : State}

/-! ## Steps and turns -/

theorem step_of_wf (h : s.cfg.wf = true) : step s = act s.nextEvent s.dropEvent := by simp [step, h]

theorem step_next (h : step s = .next t) : s.cfg.wf = true ∧ act s.nextEvent s.dropEvent = .next t := by
  unfold step at h
  split at h
  · exact ⟨‹_›, h⟩
  · cases h

theorem step_fault {f : Fault} (h : step s = .fault f) : s.cfg.wf = true ∧ act s.nextEvent s.dropEvent = .fault f := by
  unfold step at h
  split at h
  · exact ⟨‹_›, h⟩
  · cases h

/-- The sequencer's turn runs the instruction of its phase. -/
@[simp] theorem sgTurn_eq (s : State) : sgTurn s = exec s.sgphase.instr s := by
  simp [sgTurn, State.fetchPhase]

theorem hostTurn_of_ok {w : Word} {i : Instr} (hc : s.cmd = none) (hd : decode (.command w) = .ok i) :
    hostTurn w s = exec i s := by simp [hostTurn, hc, hd]

theorem hostTurn_of_error {w : Word} {r : Reserved} (hc : s.cmd = none) (hd : decode (.command w) = .error r) :
    hostTurn w s = .next s.refuseCommand := by simp [hostTurn, hc, hd]

theorem hostTurn_next {w : Word} (h : hostTurn w s = .next t) :
    s.cmd = none ∧
      ((∃ i, decode (.command w) = .ok i ∧ exec i s = .next t) ∨
        (∃ r, decode (.command w) = .error r ∧ t = s.refuseCommand)) := by
  unfold hostTurn at h
  split at h
  · cases h
  · rename_i hc
    refine ⟨by simpa using hc, ?_⟩
    split at h
    · exact .inl ⟨_, ‹_›, h⟩
    · cases h; exact .inr ⟨_, ‹_›, rfl⟩

theorem popTurn_next (h : popTurn s = .next t) :
    (s.readyq = [] ∧ t = s) ∨ (∃ k q, s.readyq = k :: q ∧ t = { s with readyq := q, xheld := s.xheld ++ [k] }) := by
  unfold popTurn at h
  split at h
  · cases h; exact .inl ⟨‹_›, rfl⟩
  · cases h; exact .inr ⟨_, _, ‹_›, rfl⟩

theorem pushTurn_next {k : Handle} (h : pushTurn k s = .next t) :
    k ∈ s.xheld ∧
      ((s.cfg.qfCap ≤ s.freeq.length ∧ t = s) ∨
        (s.freeq.length < s.cfg.qfCap ∧ t = { s with freeq := s.freeq ++ [k], xheld := s.xheld.erase k })) := by
  unfold pushTurn at h
  split at h
  · cases h
  · rename_i hk
    refine ⟨by simpa using hk, ?_⟩
    split at h
    · cases h; exact .inr ⟨by simpa [State.freeHasRoom] using ‹s.freeHasRoom = true›, rfl⟩
    · cases h; exact .inl ⟨by simpa [State.freeHasRoom] using ‹¬ s.freeHasRoom = true›, rfl⟩

theorem drawTurn_next {x y : Nat} {b : Byte} (h : drawTurn x y b s = .next t) :
    x < s.cfg.canvasWidth ∧ y < s.cfg.canvasHeight ∧ t = s.canvasWrite x y b := by
  unfold drawTurn at h
  split at h
  · rename_i hi
    cases h
    simp only [inCanvas, Bool.and_eq_true, decide_eq_true_eq] at hi
    exact ⟨hi.1, hi.2, rfl⟩
  · cases h

theorem resetTurn_next (h : resetTurn s = .next t) : s.cmd = none ∧ t = s.applyReset := by
  unfold resetTurn at h
  split at h
  · cases h
  · cases h; exact ⟨by simpa using ‹¬ s.cmd.isSome = true›, rfl⟩

/-! ## Shared operations of the phases -/

theorem State.fillColumn_next {tr : Triplet} (h : s.fillColumn tr = .next t) :
    ∃ k, s.held = some k ∧ k ∈ s.cfg.pool ∧ s.x < s.cfg.activeWidth ∧
      t = { s.columnWrite k s.x tr with
            fsub := .idx
            x := s.x + 1
            sgphase := if s.x + 1 = s.cfg.activeWidth then .emita else s.sgphase
            filled := if s.x + 1 = s.cfg.activeWidth then s.filled.insert k else s.filled } := by
  unfold State.fillColumn at h
  split at h
  · cases h
  · split at h
    · cases h
    · split at h
      · cases h
      · cases h
        exact ⟨_, ‹_›, by simpa using ‹¬ (!s.cfg.pool.contains _) = true›, by omega, rfl⟩

theorem State.fillColumn_of {tr : Triplet} {k : Handle} (hh : s.held = some k) (hk : k ∈ s.cfg.pool)
    (hx : s.x < s.cfg.activeWidth) :
    s.fillColumn tr =
      .next { s.columnWrite k s.x tr with
              fsub := .idx
              x := s.x + 1
              sgphase := if s.x + 1 = s.cfg.activeWidth then .emita else s.sgphase
              filled := if s.x + 1 = s.cfg.activeWidth then s.filled.insert k else s.filled } := by
  unfold State.fillColumn
  simp [hh, hk, Nat.not_le.2 hx]

theorem State.emitHeld_next {p : Phase} (h : s.emitHeld p = .next t) :
    ∃ k, s.held = some k ∧ t = { s with readyq := s.readyq ++ [k], sgphase := p } := by
  unfold State.emitHeld at h
  split at h
  · cases h
  · cases h; exact ⟨_, ‹_›, rfl⟩

/-! ## Instructions -/

theorem execCol2idx_next {c : Colour} (h : execCol2idx c s = .next t) :
    (∃ i, s.exactMatch c = some i ∧ t = s.respond (indexResponse (BitVec.ofNat 8 i) false)) ∨
    (s.exactMatch c = none ∧ s.count.toNat < 255 ∧
      t = s.storeEntry (s.count.setWidth 8) c (s.count + 1) (indexResponse (s.count.setWidth 8) false)) ∨
    (s.exactMatch c = none ∧ 255 ≤ s.count.toNat ∧
      ∃ i, s.similarMatch c = some i ∧ t = s.respond (indexResponse (BitVec.ofNat 8 i) false)) ∨
    (s.exactMatch c = none ∧ 255 ≤ s.count.toNat ∧ s.similarMatch c = none ∧
      t = s.storeEntry 255 c s.countAfterOverwrite (indexResponse 255 true)) := by
  unfold execCol2idx at h
  split at h
  · cases h; exact .inl ⟨_, ‹_›, rfl⟩
  · split at h
    · rename_i hc
      cases h
      exact .inr (.inl ⟨‹_›, by simpa [State.canAppend] using hc, rfl⟩)
    · rename_i hc
      have hc' : 255 ≤ s.count.toNat := by simpa [State.canAppend] using hc
      split at h
      · cases h; exact .inr (.inr (.inl ⟨‹_›, hc', _, ‹_›, rfl⟩))
      · cases h; exact .inr (.inr (.inr ⟨‹_›, hc', ‹_›, rfl⟩))

theorem execInvert_next {f : Bool} (h : execInvert f s = .next t) :
    (f = s.inverted ∧ t = s.respond noResult) ∨
    (f ≠ s.inverted ∧ t = { s with inverted := f }.startCommand (s.invertWrites f) noResult) := by
  unfold execInvert at h
  split at h
  · cases h; exact .inl ⟨‹_›, rfl⟩
  · cases h; exact .inr ⟨‹_›, rfl⟩

theorem execWaitfree_next (h : execWaitfree s = .next t) :
    (s.freeq = [] ∧ t = s) ∨
    (∃ q, s.freeq = s.cfg.blankHandle :: q ∧ t = { s with freeq := q, sgphase := .poll }) ∨
    (∃ k q, s.freeq = k :: q ∧ k ≠ s.cfg.blankHandle ∧ s.y.toNat < s.cfg.canvasHeight ∧
      t = { s with freeq := q, held := some k, x := 0, fsub := .idx, sgphase := .fill }) ∨
    (∃ k q, s.freeq = k :: q ∧ k ≠ s.cfg.blankHandle ∧ s.cfg.canvasHeight ≤ s.y.toNat ∧
      t = { s with freeq := q, held := some k, sgphase := .retfree }) := by
  unfold execWaitfree at h
  split at h
  · cases h; exact .inl ⟨‹_›, rfl⟩
  · split at h
    · cases h; exact .inr (.inl ⟨_, by rename_i hq hb; rw [hq, hb], rfl⟩)
    · split at h
      · cases h; exact .inr (.inr (.inl ⟨_, _, ‹_›, ‹_›, ‹_›, rfl⟩))
      · cases h; exact .inr (.inr (.inr ⟨_, _, ‹_›, ‹_›, by omega, rfl⟩))

theorem execFill_next (h : execFill s = .next t) :
    (s.fsub = .idx ∧ s.x < s.cfg.canvasWidth ∧ s.y.toNat < s.cfg.canvasHeight ∧
      t = { s with idxreg := s.canvasRead s.y.toNat s.x, fsub := .red }) ∨
    (s.fsub = .idx ∧ s.cfg.canvasWidth ≤ s.x ∧
      s.fillColumn ⟨s.cfg.blackSym, s.cfg.blackSym, s.cfg.blackSym⟩ = .next t) ∨
    (s.fsub = .red ∧ t = { s with rsym := palGet s.rtmds s.idxreg, fsub := .grn }) ∨
    (s.fsub = .grn ∧ t = { s with gsym := palGet s.gtmds s.idxreg, fsub := .blu }) ∨
    (s.fsub = .blu ∧ s.fillColumn ⟨s.rsym, s.gsym, palGet s.btmds s.idxreg⟩ = .next t) := by
  unfold execFill at h
  split at h
  · split at h
    · split at h
      · cases h; exact .inl ⟨‹_›, ‹_›, ‹_›, rfl⟩
      · cases h
    · exact .inr (.inl ⟨‹_›, by omega, h⟩)
  · cases h; exact .inr (.inr (.inl ⟨‹_›, rfl⟩))
  · cases h; exact .inr (.inr (.inr (.inl ⟨‹_›, rfl⟩)))
  · exact .inr (.inr (.inr (.inr ⟨‹_›, h⟩)))

theorem execRetfree_next (h : execRetfree s = .next t) :
    (s.cfg.qfCap ≤ s.freeq.length ∧ t = s) ∨
    (s.freeq.length < s.cfg.qfCap ∧ ∃ k, s.held = some k ∧
      t = { s with freeq := s.freeq ++ [k], held := some s.cfg.blankHandle, sgphase := .emita }) := by
  unfold execRetfree at h
  split at h
  · split at h
    · cases h
    · cases h; exact .inr ⟨by simpa [State.freeHasRoom] using ‹s.freeHasRoom = true›, _, ‹_›, rfl⟩
  · cases h; exact .inl ⟨by simpa [State.freeHasRoom] using ‹¬ s.freeHasRoom = true›, rfl⟩

theorem execEmita_next (h : execEmita s = .next t) :
    (s.cfg.qrCap ≤ s.readyq.length ∧ t = s) ∨
    (s.readyq.length < s.cfg.qrCap ∧
      ((s.cfg.ilace = false ∧ ∃ k, s.held = some k ∧ t = { s with readyq := s.readyq ++ [k], sgphase := .adv }) ∨
       (s.cfg.ilace = true ∧ s.field = false ∧
          ∃ k, s.held = some k ∧ t = { s with readyq := s.readyq ++ [k], sgphase := .emitb }) ∨
       (s.cfg.ilace = true ∧ s.field = true ∧
          t = { s with readyq := s.readyq ++ [s.cfg.blankHandle], sgphase := .emitb }))) := by
  unfold execEmita at h
  split at h
  · rename_i hr
    refine .inr ⟨by simpa [State.readyHasRoom] using hr, ?_⟩
    split at h
    · exact .inl ⟨by simpa using ‹(!s.cfg.ilace) = true›, State.emitHeld_next h⟩
    · rename_i hi
      have hi' : s.cfg.ilace = true := by simpa using hi
      split at h
      · exact .inr (.inl ⟨hi', by simpa using ‹(!s.field) = true›, State.emitHeld_next h⟩)
      · cases h
        exact .inr (.inr ⟨hi', by simpa using ‹¬ (!s.field) = true›, rfl⟩)
  · cases h; exact .inl ⟨by simpa [State.readyHasRoom] using ‹¬ s.readyHasRoom = true›, rfl⟩

theorem execEmitb_next (h : execEmitb s = .next t) :
    (s.cfg.qrCap ≤ s.readyq.length ∧ t = s) ∨
    (s.readyq.length < s.cfg.qrCap ∧
      ((s.field = false ∧ t = { s with readyq := s.readyq ++ [s.cfg.blankHandle], sgphase := .adv }) ∨
       (s.field = true ∧ ∃ k, s.held = some k ∧ t = { s with readyq := s.readyq ++ [k], sgphase := .adv }))) := by
  unfold execEmitb at h
  split at h
  · rename_i hr
    refine .inr ⟨by simpa [State.readyHasRoom] using hr, ?_⟩
    split at h
    · cases h; exact .inl ⟨by simpa using ‹(!s.field) = true›, rfl⟩
    · exact .inr ⟨by simpa using ‹¬ (!s.field) = true›, State.emitHeld_next h⟩
  · cases h; exact .inl ⟨by simpa [State.readyHasRoom] using ‹¬ s.readyHasRoom = true›, rfl⟩

theorem execAdv_next (h : execAdv s = .next t) :
    t = { s with
          held := none
          y := BitVec.ofNat 15 (nextLine s.cfg s.y.toNat s.field).1
          field := (nextLine s.cfg s.y.toNat s.field).2
          sgphase := .poll } := by
  cases h; rfl

/-! ## Runs, and the command agent -/

/-- A run is a run of its parts. -/
theorem runSg_add {m : Nat} (n : Nat) (h : runSg m s = .next t) : runSg (m + n) s = runSg n t := by
  induction m generalizing s with
  | zero => cases h; simp
  | succ m ih =>
    rw [show m + 1 + n = (m + n) + 1 by omega]
    simp only [runSg] at h ⊢
    split at h
    · exact ih h
    · cases h
    · cases h

/-- What decodes from a command word is a command. -/
theorem encode_of_decode {w : Word} {i : Instr} (h : decode (.command w) = .ok i) : ∃ w', encode i = .command w' := by
  simp only [decode, decodeCommand, decodeOp, noOperand] at h
  split_ifs at h <;> (injection h with h; subst h; exact ⟨_, rfl⟩)

/-- What a turn of the command agent leaves. -/
theorem State.agentStep_frame (k : Nat) : (s.agentStep k).sgphase = s.sgphase ∧ (s.agentStep k).exit = s.exit ∧ (s.agentStep k).count = s.count ∧ (s.agentStep k).blankbuf = s.blankbuf ∧ (s.agentStep k).cfg = s.cfg := by
  rcases State.agentStep_cases s k with h1 | ⟨w, hc, h1⟩ | ⟨ws, w, e, hc, hk, h1⟩ <;> rw [h1]
  · exact ⟨rfl,rfl,rfl,rfl,rfl⟩
  · exact ⟨rfl,rfl,rfl,rfl,rfl⟩
  · obtain ⟨c, i, v⟩ := e; cases c <;> exact ⟨rfl,rfl,rfl,rfl,rfl⟩

/-- A step whose turn is the command agent's. -/
theorem step_agent {k : Nat} {es : List Event} (hw : s.cfg.wf = true) (ha : s.agenda = .agent k :: es) :
    step s = .next (({ s with agenda := es } : State).agentStep k) := by
  rw [step_of_wf hw]
  simp [State.nextEvent, State.dropEvent, ha, act]

/-- A turn of the command agent leaves the generator and the environment alone. -/
theorem State.agentStep_generator (s : State) (k : Nat) : SameGenerator s (s.agentStep k) := by
  rcases State.agentStep_cases s k with h1 | ⟨w, hc, h1⟩ | ⟨ws, w, e, hc, hk, h1⟩ <;> rw [h1]
  · constructor <;> rfl
  · constructor <;> rfl
  · obtain ⟨c, i, v⟩ := e; cases c <;> constructor <;> rfl

end Sys2Proof.Machine
end

