-- ==== Sys2Proof/Laws/Invariant.lean ====
section
/-! SUPPORT. The parts of the invariant: each depends on a few fields only; the searches in the words of the claims; the handle count
form of R272; the palette contents of RESET and PALRESET. -/

namespace Sys2Proof.Machine

open Sys2Proof

variable {s t : State}

/-! ## The searches -/

theorem State.exactMatch_none (s : State) (c : Colour) : s.exactMatch c = none ↔ s.Absent c := by
  unfold State.exactMatch State.Absent
  rw [State.search_none]; simp

theorem State.maskedMatch_none (s : State) (t : Nat) (c : Colour) : s.maskedMatch t c = none ↔ s.NoneSimilar t c := by
  unfold State.maskedMatch State.NoneSimilar SameUnder
  rw [State.search_none]; simp

theorem State.exactMatch_some (s : State) (c : Colour) (i : PalIndex) (h1 : i.toNat < s.count.toNat) (h2 : palGet s.color i = c)
   (h3 : ∀ j : PalIndex, j.toNat < i.toNat → palGet s.color j ≠ c) : s.exactMatch c = some i.toNat := by
  unfold State.exactMatch
  rw [State.search_some]
  refine ⟨h1, i.isLt, by simpa using h2, ?_⟩
  intro j hj
  have := h3 (BitVec.ofNat 8 j) (by rw [BitVec.toNat_ofNat]; omega)
  simpa using this

theorem State.maskedMatch_some (s : State) (t : Nat) (c : Colour) (i : PalIndex) (h1 : i.toNat < s.count.toNat) (h2 : SameUnder t (palGet s.color i) c)
   (h3 : ∀ j : PalIndex, j.toNat < i.toNat → ¬ SameUnder t (palGet s.color j) c) : s.maskedMatch t c = some i.toNat := by
  unfold State.maskedMatch
  rw [State.search_some]
  refine ⟨h1, i.isLt, by simpa [SameUnder] using h2, ?_⟩
  intro j hj
  have := h3 (BitVec.ofNat 8 j) (by rw [BitVec.toNat_ofNat]; omega)
  simpa [SameUnder] using this

theorem State.similarMatch_of (s : State) (c : Colour) (t : Nat) (i : Nat) (h1 : 1 ≤ t) (h3 : t ≤ 3)
   (hn : ∀ u, 1 ≤ u → u < t → s.NoneSimilar u c) (hm : s.maskedMatch t c = some i) : s.similarMatch c = some i := by
  unfold State.similarMatch
  have : t = 1 ∨ t = 2 ∨ t = 3 := by omega
  rcases this with rfl | rfl | rfl
  · simp [hm]
  · simp [hm, (State.maskedMatch_none s 1 c).2 (hn 1 (by omega) (by omega))]
  · simp [hm, (State.maskedMatch_none s 1 c).2 (hn 1 (by omega) (by omega)), (State.maskedMatch_none s 2 c).2 (hn 2 (by omega) (by omega))]

theorem State.similarMatch_none (s : State) (c : Colour) : s.similarMatch c = none ↔ ∀ t, 1 ≤ t → t ≤ 3 → s.NoneSimilar t c := by
  constructor
  · intro h t h1 h3
    unfold State.similarMatch at h
    rw [← State.maskedMatch_none]
    have : t = 1 ∨ t = 2 ∨ t = 3 := by omega
    rcases this with rfl | rfl | rfl <;> (split at h <;> try (split at h)) <;> simp_all
  · intro h
    unfold State.similarMatch
    rw [(State.maskedMatch_none s 1 c).2 (h 1 (by omega) (by omega)), (State.maskedMatch_none s 2 c).2 (h 2 (by omega) (by omega)), (State.maskedMatch_none s 3 c).2 (h 3 (by omega) (by omega))]

/-! ## The parts of the invariant -/

theorem State.MemoryOk.of_eq (h : s.MemoryOk) (h1 : t.cfg = s.cfg) (h2 : t.canvas = s.canvas) (h3 : t.buf = s.buf) : t.MemoryOk := by
  refine ⟨?_, ?_, ?_⟩
  · rw [h2]; exact h.canvas
  · rw [h2, h1]; exact h.inside
  · rw [h3]; exact h.buf

theorem State.PaletteOk.of_eq (h : s.PaletteOk) (h1 : t.cfg = s.cfg) (h2 : t.color = s.color) (h3 : t.count = s.count) : t.PaletteOk := by
  refine ⟨?_, ?_, ?_, ?_⟩
  · rw [h3]; exact h.atLeast
  · rw [h3]; exact h.atMost
  · rw [h2, h1]; exact h.standard
  · have := h.distinct; unfold State.inUse at *; rw [h2, h3]; exact this

theorem State.LineOk.of_eq (h : s.LineOk) (h1 : t.cfg = s.cfg) (h2 : t.y = s.y) (h3 : t.field = s.field) : t.LineOk := by
  refine ⟨?_, ?_, ?_⟩
  · rw [h2, h1]; exact h.range
  · rw [h2, h1, h3]; exact h.parity
  · rw [h1, h3]; exact h.even

theorem State.TripletsOk.of_eq (h : s.TripletsOk) (h1 : t.cfg = s.cfg) (h2 : t.color = s.color) (h3 : t.count = s.count) (h4 : t.inverted = s.inverted)
   (h5 : t.rtmds = s.rtmds) (h6 : t.gtmds = s.gtmds) (h7 : t.btmds = s.btmds) (h8 : t.pending = s.pending) : t.TripletsOk := by
  refine ⟨?_, by rw [h8]; exact h.apart⟩
  intro i hi
  rw [h1] at hi
  have := h.due i hi
  unfold State.dueTriplet at *
  rw [h1, h2, h3, h4, h8, ← this, State.triplet_eq, State.triplet_eq]
  have h9 := State.putAll_congr s.pending (a := t) (b := s) (by intro ch; cases ch <;> assumption)
  rw [h9, h9, h9]

/-- Every handle but the blank one is counted once. -/
theorem State.handlesOk_iff (hc : s.cfg.wf = true) : s.HandlesOk ↔ ∀ k, k ≠ s.cfg.blankHandle →
   s.freeq.count k + s.owned.toList.count k + s.readyq.count k + s.xheld.count k = s.cfg.pool.count k := by
  unfold State.HandlesOk
  rw [List.perm_iff_count]
  constructor
  · intro h k hk
    have := h k
    rw [List.count_filter (by simpa using hk)] at this
    simp only [List.count_append] at this
    omega
  · intro h k
    by_cases hk : k = s.cfg.blankHandle
    · subst hk
      rw [List.count_eq_zero_of_not_mem (Config.blank_not_pool hc), List.count_eq_zero_of_not_mem]
      simp
    · rw [List.count_filter (by simpa using hk)]
      simp only [List.count_append]
      have := h k hk
      omega

/-- The colours in use are pairwise distinct. -/
theorem State.inUse_nodup_iff : s.inUse.Nodup ↔ ∀ i j : PalIndex, i.toNat < s.count.toNat → j.toNat < s.count.toNat → palGet s.color i = palGet s.color j → i = j := by
  rw [List.nodup_iff_getElem?_ne_getElem?]
  constructor
  · intro h i j hi hj he
    by_contra hne
    have hne' : i.toNat ≠ j.toNat := fun h => hne (BitVec.eq_of_toNat_eq h)
    wlog hlt : i.toNat < j.toNat generalizing i j
    · exact this j i hj hi he.symm (Ne.symm hne) (Ne.symm hne') (by omega)
    have := h i.toNat j.toNat hlt (by rw [State.inUse_length]; omega)
    rw [s.inUse_getElem?, s.inUse_getElem?, if_pos ⟨hi, i.isLt⟩, if_pos ⟨hj, j.isLt⟩] at this
    simp [he] at this
  · intro h i j hij hj
    rw [State.inUse_length] at hj
    rw [s.inUse_getElem?, s.inUse_getElem?, if_pos (by omega), if_pos (by omega)]
    intro he
    have := h (BitVec.ofNat 8 i) (BitVec.ofNat 8 j) (by rw [BitVec.toNat_ofNat]; omega) (by rw [BitVec.toNat_ofNat]; omega) (by simpa using he)
    have := congrArg BitVec.toNat this
    simp only [BitVec.toNat_ofNat] at this
    omega

/-! ## The contents of RESET and PALRESET -/

theorem State.PaletteOk.of_reset (c : Config) (hc : c.wf = true) (h1 : t.cfg = c) (h2 : t.color = resetColors c) (h3 : t.count = 16) : t.PaletteOk := by
  refine ⟨by rw [h3]; decide, by rw [h3]; decide, ?_, ?_⟩
  · intro i
    rw [h2, palGet_resetColors, h1]
    have := i.isLt
    have h : (BitVec.ofNat 8 i.val).toNat = i.val := by simp; omega
    simp only [h, i.isLt, dif_pos]
  · rw [State.inUse_nodup_iff, h2, h3]
    intro i j hi hj he
    have hi : i.toNat < 16 := hi
    have hj : j.toNat < 16 := hj
    rw [palGet_resetColors, palGet_resetColors, dif_pos hi, dif_pos hj] at he
    have hd := Config.std16_distinct hc
    apply BitVec.eq_of_toNat_eq
    have hi' : i.toNat < c.std16.toList.length := by simpa using hi
    have hj' : j.toNat < c.std16.toList.length := by simpa using hj
    apply (List.Nodup.getElem_inj_iff hd (hi := hi') (hj := hj')).1
    simpa using he

theorem State.dueTriplet_of_reset (c : Config) (i : PalIndex) (h1 : t.cfg = c) (h2 : t.color = resetColors c) (h3 : t.count = 16) (h4 : t.inverted = false) :
   t.dueTriplet i = ⟨palGet (resetSymbols c .red) i, palGet (resetSymbols c .green) i, palGet (resetSymbols c .blue) i⟩ := by
  unfold State.dueTriplet
  rw [h3, h2, h1, h4, palGet_resetSymbols, palGet_resetSymbols, palGet_resetSymbols]
  have h16 : (16 : BitVec 9).toNat = 16 := rfl
  rw [h16]
  by_cases h : i.toNat < 16
  · rw [if_pos h, dif_pos h, dif_pos h, dif_pos h, palGet_resetColors, dif_pos h]; rfl
  · rw [if_neg h, dif_neg h, dif_neg h, dif_neg h]

/-- Line advances stay in range and in their field. -/
theorem nextLine_ok (h : s.Inv) : (nextLine s.cfg s.y.toNat s.field).1 < s.cfg.lines ∧
   (s.cfg.ilace = true → (nextLine s.cfg s.y.toNat s.field).1 % 2 = (nextLine s.cfg s.y.toNat s.field).2.toNat) ∧
   (s.cfg.ilace = false → (nextLine s.cfg s.y.toNat s.field).2 = false) := by
  have h1 := h.line.range
  have h2 := h.line.parity
  have h3 := h.line.even
  have h4 := Config.lines_pos h.config
  have h5 := Config.lines_even h.config
  unfold nextLine
  by_cases hi : s.cfg.ilace = true
  · simp only [hi, Bool.not_true, Bool.false_eq_true, if_false, forall_const, false_implies, and_true, Bool.true_eq_false] at *
    split
    · refine ⟨by omega, ?_⟩; simp only; omega
    · cases s.field <;> simp <;> omega
  · simp only [Bool.not_eq_true] at hi
    simp only [hi, Bool.not_false, if_true, forall_const, Bool.false_eq_true, false_implies, true_and] at *
    exact ⟨Nat.mod_lt _ (by omega), h3⟩

end Sys2Proof.Machine
end

