-- ==== Sys2Proof/Laws/PerInstr.lean ====
section
/-! SUPPORT. Statements for every instruction, one lemma per constructor: the encoding of an instruction carries the bits that its own
row of spec/opcode_table.json fixes (30_encoding.md R102, R110). -/

namespace Sys2Proof.Laws.TableWord

open Sys2Proof

/-- The match and mask of a command's row (R102); for a phase, its code with every bit fixed (R110). -/
def row : Instr → Nat × Nat
  | .col2idx _ => (0x01000000, 0xFFFF0000)
  | .palreset => (0x02000000, 0xFFFFFFFF)
  | .invert _ => (0x03000000, 0xFFFFFFFE)
  | .idx2col _ => (0x04000000, 0xFFFFFF00)
  | .sgstart => (0x05000000, 0xFFFFFFFF)
  | .sgstop => (0x06000000, 0xFFFFFFFF)
  | .rdstat => (0x07000000, 0xFFFFFFFF)
  | .idle => (0x0, 0xF)
  | .poll => (0x1, 0xF)
  | .waitfree => (0x2, 0xF)
  | .fill => (0x3, 0xF)
  | .retfree => (0x4, 0xF)
  | .emita => (0x5, 0xF)
  | .emitb => (0x6, 0xF)
  | .adv => (0x7, 0xF)
  | .halt => (0x8, 0xF)

/-- A code has the bits a row fixes. -/
def fits (r : Nat × Nat) : Code → Prop
  | .command w => w.toNat &&& r.2 = r.1
  | .phase c => c.toNat &&& r.2 = r.1

/-- The encoding of the instruction has the bits its row fixes. -/
def Statement (i : Instr) : Prop := fits (row i) (encode i)

/-- The upper bits of a command word, above an operand of `k` bits. -/
theorem high_bits (op arg k : Nat) (hk : k ≤ 24) (ho : op < 256) (ha : arg < 2 ^ k) :
    (op * 2 ^ 24 + arg) &&& (2 ^ 32 - 2 ^ k) = op * 2 ^ 24 := by
  have h : op * 2 ^ 24 + arg = 2 ^ 24 * op + arg := by rw [Nat.mul_comm]
  rw [h, Nat.mul_comm op]
  have ha' : arg < 2 ^ 24 := Nat.lt_of_lt_of_le ha (Nat.pow_le_pow_right (by decide) hk)
  have hm : 2 ^ 32 - 2 ^ k = 2 ^ k * (2 ^ (32 - k) - 1) := by
    rw [Nat.mul_sub, ← Nat.pow_add, Nat.mul_one, Nat.add_sub_cancel' (by omega)]
  apply Nat.eq_of_testBit_eq
  intro i
  rw [hm, Nat.testBit_and, Nat.testBit_two_pow_mul_add _ ha', Nat.testBit_two_pow_mul, Nat.testBit_two_pow_mul,
    Nat.testBit_two_pow_sub_one]
  by_cases h1 : i < 24
  · by_cases h2 : k ≤ i
    · have : arg.testBit i = false :=
        Nat.testBit_lt_two_pow (Nat.lt_of_lt_of_le ha (Nat.pow_le_pow_right (by decide) h2))
      simp [h1, Nat.not_le.2 h1, this]
    · simp [h1, Nat.not_le.2 h1, h2]
  · by_cases h2 : i < 32
    · have h3 : k ≤ i := by omega
      have h4 : i - k < 32 - k := by omega
      simp [h1, Nat.not_lt.1 h1, h3, h4]
    · have : op.testBit (i - 24) = false :=
        Nat.testBit_lt_two_pow (Nat.lt_of_lt_of_le ho (show 2 ^ 8 ≤ 2 ^ (i - 24) from Nat.pow_le_pow_right (by decide) (by omega)))
      simp [h1, this]

theorem col2idx (c : Colour) : Statement (.col2idx c) := by
  show (commandWord 0x01 c).toNat &&& 0xFFFF0000 = 0x01000000
  rw [commandWord_toNat]
  exact high_bits 1 c.toNat 16 (by decide) (by decide) c.isLt

theorem palreset : Statement .palreset := rfl

theorem invert (f : Bool) : Statement (.invert f) := by
  show (commandWord 0x03 ((BitVec.ofBool f).setWidth 16)).toNat &&& 0xFFFFFFFE = 0x03000000
  cases f <;> decide

theorem idx2col (i : PalIndex) : Statement (.idx2col i) := by
  show (commandWord 0x04 (i.setWidth 16)).toNat &&& 0xFFFFFF00 = 0x04000000
  rw [commandWord_toNat, BitVec.toNat_setWidth, Nat.mod_eq_of_lt (by omega)]
  exact high_bits 4 i.toNat 8 (by decide) (by decide) i.isLt

theorem sgstart : Statement .sgstart := rfl
theorem sgstop : Statement .sgstop := rfl
theorem rdstat : Statement .rdstat := rfl
theorem idle : Statement .idle := rfl
theorem poll : Statement .poll := rfl
theorem waitfree : Statement .waitfree := rfl
theorem fill : Statement .fill := rfl
theorem retfree : Statement .retfree := rfl
theorem emita : Statement .emita := rfl
theorem emitb : Statement .emitb := rfl
theorem adv : Statement .adv := rfl
theorem halt : Statement .halt := rfl

end Sys2Proof.Laws.TableWord
end

