-- ==== Sys2Proof/Tests/Slice0.lean ====
section
/-! SUPPORT. The model's own tests. Expected results are the spec's worked examples (95_test_vectors.md, the examples of the rules), not
the model's answers. Then, for each statement with hypotheses, a witness that meets them. -/

namespace Sys2Proof.Tests

open Sys2Proof Sys2Proof.Machine

set_option maxRecDepth 8000
set_option Elab.async false

/-! ## Small states -/

/-- The candidate TMDS table DVI0 of 93_implementation_defined.md G3: test vectors give concrete words under it. -/
def dvi0 : Vector Symbol 64 :=
  ⟨(([0x100, 0x1FC, 0x1F8, 0x104, 0x1F0, 0x10C, 0x108, 0x1F4, 0x1E0, 0x11C, 0x118, 0x1E4, 0x110, 0x1EC, 0x1E8, 0x241] : List Symbol) ++
    [0x1C0, 0x13C, 0x138, 0x1C4, 0x130, 0x1CC, 0x1C8, 0x261, 0x120, 0x1DC, 0x1D8, 0x271, 0x1D0, 0x279, 0x27D, 0x281] ++
    [0x180, 0x17C, 0x178, 0x184, 0x170, 0x18C, 0x188, 0x221, 0x160, 0x19C, 0x198, 0x231, 0x190, 0x239, 0x23D, 0x2C1] ++
    [0x140, 0x1BC, 0x1B8, 0x211, 0x1B0, 0x219, 0x21D, 0x2E1, 0x1A0, 0x209, 0x20D, 0x2F1, 0x205, 0x2F9, 0x2FD, 0x201]).toArray, rfl⟩

/-- Program P3's configuration (interlaced, `L = 4`) under DVI0. -/
def cfg3 : Config := { Config.default with tmdsLut := dvi0 }
/-- Program P5's configuration (progressive, `L = 2`, one column and one row of canvas) under DVI0. -/
def cfg5 : Config :=
  { cfg3 with symbolsPerWord := 2, vrep := 2, canvasWidth := 1, canvasHeight := 1, qfCap := 3, qrCap := 3 }
/-- RESET under each. -/
def r3 : State := State.resetOf cfg3
/-- RESET under each. -/
def r5 : State := State.resetOf cfg5

/-- The colours of SATPAL (95_test_vectors.md): `STD16`, then 0x0021 to 0x010F, slot 255 cleared. -/
def satColours : PalArray Colour :=
  ⟨(Config.defaultStd16.toList ++ (List.range 239).map (fun n => BitVec.ofNat 16 (0x21 + n)) ++ [0]).toArray, by decide⟩
/-- SATPAL, its triplets left out: `COUNT = 255`. -/
def sat : State := { r3 with color := satColours, count := 255 }

/-- The outcome is a next state with the property. -/
def nextIs (o : Host.Outcome State Fault Refusal) (p : State → Bool) : Bool :=
  match o with
  | .next t => p t
  | .fault _ => false
  | .refused _ => false

/-- The symbols of the table at three indices. -/
def lut3 (a b c : LutIndex) : Triplet := ⟨lutRead dvi0 a, lutRead dvi0 b, lutRead dvi0 c⟩

/-! ## Well-formedness: one ill-formed configuration for each check -/

/-- For each check of `Config.checks`, in order, a configuration that this check refuses. -/
def illFormed : List Config :=
  [ { cfg3 with activeWidth := 0, canvasWidth := 0 }, { cfg3 with activeLines := 0 }, { cfg3 with symbolsPerWord := 0 },
    { cfg3 with symbolsPerWord := 4, activeWidth := 4 }, { cfg3 with symbolsPerWord := 3 }, { cfg3 with vrep := 0 },
    { cfg3 with vrep := 5 }, { cfg3 with activeLines := 32770 }, { cfg3 with activeLines := 5 } ] ++
  [ { cfg3 with canvasWidth := 0 }, { cfg3 with canvasWidth := 3 }, { cfg3 with canvasHeight := 0 },
    { cfg3 with std16 := Config.defaultStd16.set 0 0x0001 }, { cfg3 with std16 := Config.defaultStd16.set 1 0x0000 },
    { cfg3 with pool := [0, 1] }, { cfg3 with pool := [1, 1] }, { cfg3 with qfCap := 0 }, { cfg3 with qrCap := 0 },
    { cfg3 with handleBits := 8, blankHandle := 256 }, { cfg3 with handleBits := 8, pool := [255, 256] } ]

theorem test_wf_accepts : cfg3.wf = true ∧ cfg5.wf = true ∧ Config.default.wf = true := by decide +kernel

theorem test_wf_refuses_each :
    (List.range 20).all (fun k =>
      match illFormed[k]? with
      | none => false
      | some c => c.checks[k]? == some false && c.wf == false) = true := by decide +kernel

theorem test_wf_step_refuses : step { r3 with cfg := { cfg3 with qrCap := 0 } } = .refused .illFormedConfig := rfl

/-! ## Decoding: words written out from the encodings of 30_encoding.md R101, R102, R106, R110 -/

/-- op 00000001, rsv 00000000, arg 1111100000000000. -/
theorem test_decode_col2idx : decode (.command 0b00000001000000001111100000000000) = .ok (.col2idx 0xF800) := rfl
/-- op 00000010. -/
theorem test_decode_palreset : decode (.command 0b00000010000000000000000000000000) = .ok .palreset := rfl
/-- op 00000011, arg 0000000000000001. -/
theorem test_decode_invert : decode (.command 0b00000011000000000000000000000001) = .ok (.invert true) ∧
    decode (.command 0b00000011000000000000000000000000) = .ok (.invert false) := ⟨rfl, rfl⟩
/-- op 00000100, arg 0000000000001100. -/
theorem test_decode_idx2col : decode (.command 0b00000100000000000000000000001100) = .ok (.idx2col 12) := rfl
/-- op 00000101, 00000110, 00000111. -/
theorem test_decode_system : decode (.command 0b00000101000000000000000000000000) = .ok .sgstart ∧
    decode (.command 0b00000110000000000000000000000000) = .ok .sgstop ∧
    decode (.command 0b00000111000000000000000000000000) = .ok .rdstat := ⟨rfl, rfl, rfl⟩
/-- The nine phase codes of R110. -/
theorem test_decode_phases : decode (.phase 0b0000) = .ok .idle ∧ decode (.phase 0b0001) = .ok .poll ∧
    decode (.phase 0b0010) = .ok .waitfree ∧ decode (.phase 0b0011) = .ok .fill ∧ decode (.phase 0b0100) = .ok .retfree ∧
    decode (.phase 0b0101) = .ok .emita ∧ decode (.phase 0b0110) = .ok .emitb ∧ decode (.phase 0b0111) = .ok .adv ∧
    decode (.phase 0b1000) = .ok .halt := ⟨rfl, rfl, rfl, rfl, rfl, rfl, rfl, rfl, rfl⟩
/-- Vectors V-SYS-10 to V-SYS-15 and phase codes 0x9, 0xF. -/
theorem test_decode_reserved :
    decode (.command 0x00000000) = .error (.operation 0) ∧ decode (.command 0xFF000000) = .error (.operation 0xFF) ∧
    decode (.command 0x01010000) = .error (.reservedField 1) ∧ decode (.command 0x03008001) = .error (.operand 0x8001) ∧
    decode (.command 0x04000100) = .error (.operand 0x0100) ∧ decode (.command 0x06008000) = .error (.operand 0x8000) ∧
    decode (.phase 0x9) = .error (.phaseCode 0x9) ∧ decode (.phase 0xF) = .error (.phaseCode 0xF) :=
  ⟨rfl, rfl, rfl, rfl, rfl, rfl, rfl, rfl⟩

/-- A word of each row of spec/opcode_table.json with the constructor its mnemonic names. -/
def tableRows : List (Nat × Nat × Instr) :=
  [ (32, 0x01000000, .col2idx 0), (32, 0x02000000, .palreset), (32, 0x03000000, .invert false), (32, 0x04000000, .idx2col 0),
    (32, 0x05000000, .sgstart), (32, 0x06000000, .sgstop), (32, 0x07000000, .rdstat), (8, 0x0, .idle), (8, 0x1, .poll),
    (8, 0x2, .waitfree), (8, 0x3, .fill), (8, 0x4, .retfree), (8, 0x5, .emita), (8, 0x6, .emitb), (8, 0x7, .adv),
    (8, 0x8, .halt) ]

theorem test_table_decodes : tableRows.all (fun p => decodeTableWord p.1 p.2.1 == some p.2.2) = true := by decide +kernel

/-- Each row's word, placed with `withFetchWord`, is run by the first step after reset. -/
theorem test_table_runs_from_reset :
    tableRows.all (fun p => nextIs (step (State.reset.withFetchWord p.1 p.2.1)) fun _ => true) = true := by decide +kernel

/-- What is placed is what runs: SGSTOP raises `EXIT`, ADV advances from line 0 to line 2. -/
theorem test_table_runs_it :
    nextIs (step (r3.withFetchWord 32 0x06000000)) (fun t => t.exit) = true ∧
    nextIs (step (r3.withFetchWord 8 0x7)) (fun t => t.y == 2) = true := by decide +kernel

theorem test_text : (Instr.col2idx 0xF800).text = "COL2IDX 63488" ∧ indexResponseText 0x1FF = "255 EXH" := by decide +kernel

/-! ## The instructions -/

/-- V-COL-3. -/
theorem test_col2idx_append :
    nextIs (exec (.col2idx 0x1234) r3) (fun t => t.finish.count == 17 && t.finish.triplet 16 == lut3 4 17 40 &&
      palGet t.finish.color 16 == 0x1234 && t.finish.rsp == [0x10] && t.triplet 16 == ⟨0, 0, 0⟩) = true := by decide +kernel

/-- V-COL-10 (tolerance before index), V-COL-16 (tolerance 3), V-COL-8 (the source's literal overwrites). -/
theorem test_col2idx_saturated :
    nextIs (exec (.col2idx 0x0862) sat) (fun t => t.rsp == [0x31] && t.count == 255) = true ∧
    nextIs (exec (.col2idx 0x4000) sat) (fun t => t.rsp == [0x4]) = true ∧
    nextIs (exec (.col2idx 0x0421) sat) (fun t => t.finish.rsp == [0x1FF] && t.count == 256 &&
      palGet t.color 255 == 0x0421 && t.finish.triplet 255 == lut3 0 33 2) = true := by decide +kernel

/-- V-COL-5: the triplet is encoded under the current inversion, the colour is stored as it is; program P1: PALRESET ends inversion. -/
theorem test_palreset :
    nextIs (exec .palreset { sat with inverted := true }) (fun t => t.count == 16 && !t.inverted && palGet t.color 15 == 0xFFFF &&
      palGet t.color 16 == 0 && t.finish.triplet 12 == lut3 62 0 0 && t.finish.triplet 16 == ⟨0, 0, 0⟩ && t.finish.rsp == [0]) =
      true := by decide +kernel

/-- The example of R139. -/
theorem test_invert :
    nextIs (exec (.invert true) r3) (fun t => t.finish.triplet 0 == lut3 62 63 62 && t.finish.triplet 15 == lut3 0 0 0 &&
      t.finish.triplet 16 == ⟨0, 0, 0⟩ && palGet t.finish.color 0 == 0 && t.finish.inverted) = true := by decide +kernel

/-- The example of R142, and an unused slot (V-SYS-9). -/
theorem test_idx2col :
    nextIs (exec (.idx2col 12) r3) (fun t => t.rsp == [0xF800]) = true ∧
    nextIs (exec (.idx2col 255) r3) (fun t => t.rsp == [0]) = true := by decide +kernel

/-- Program P5, steps 2 and 10. -/
theorem test_sgstart :
    nextIs (exec .sgstart r3) (fun t => t.sgphase == .poll && t.rsp == [0]) = true ∧
    nextIs (exec .sgstart { r3 with sgphase := .halt }) (fun t => t.sgphase == .halt && t.rsp == [0]) = true := by decide +kernel

theorem test_sgstop : nextIs (exec .sgstop r3) (fun t => t.exit && t.sgphase == .idle && t.rsp == [0]) = true := by decide +kernel

/-- The example of R232, and program P3's status after iteration 2 with `EXIT` set as well (bit 10). -/
theorem test_rdstat :
    nextIs (exec .rdstat r3) (fun t => t.rsp == [0x00000010]) = true ∧
    nextIs (exec .rdstat { r3 with y := 3, field := true, sgphase := .poll, exit := true, count := 256, inverted := true })
      (fun t => t.rsp == [0x00031F00]) = true := by decide +kernel

theorem test_idle_halt :
    nextIs (exec .idle r3) (fun t => t.sgphase == .idle) = true ∧
    nextIs (exec .halt { r3 with sgphase := .halt }) (fun t => t.sgphase == .halt) = true := by decide +kernel

/-- V-SG-7, and the example of R177. -/
theorem test_poll :
    nextIs (exec .poll { r3 with sgphase := .poll, exit := true }) (fun t => t.sgphase == .halt) = true ∧
    nextIs (exec .poll { r3 with sgphase := .poll }) (fun t => t.sgphase == .waitfree) = true := by decide +kernel

/-- The example of R179 (`Y >= CH`), and V-SG-5 (discard). -/
theorem test_waitfree :
    nextIs (exec .waitfree { r3 with y := 4, freeq := [7, 8] })
      (fun t => t.held == some 7 && t.sgphase == .retfree && t.freeq == [8]) = true ∧
    nextIs (exec .waitfree { r3 with y := 3, field := true, freeq := [0, 2] })
      (fun t => t.freeq == [2] && t.sgphase == .poll && t.held == none && t.y == 3 && t.field) = true := by decide +kernel

/-- V-SG-2, green word 0 (slots 0 and 1), and V-SG-10's padding column; `EMITA` after column `A-1`. -/
theorem test_fill :
    setSlot (setSlot 0xFFFFFFFF 0 0x100) 1 0x201 = 0x00080500 ∧ setSlot 0x00040100 2 0x2FD = 0x2FD40100 ∧
    nextIs (exec .fill { r5 with sgphase := .fill, held := some 1, x := 1, inverted := true, buf := [(3, 0x2FD)] })
      (fun t => t.bufWord 1 0 == 0x000402FD && t.bufWord 1 1 == 0x00040000 && t.x == 2 && t.sgphase == .emita) = true := by
  decide +kernel

/-- Program P5, column 0: the canvas byte, then the blue element and the three slots. -/
theorem test_fill_column :
    nextIs (exec .fill { r5 with sgphase := .fill, held := some 1, canvas := [(0, 13)] })
      (fun t => t.idxreg == 13 && t.fsub == .red) = true ∧
    nextIs (exec .fill { r5 with sgphase := .fill, held := some 1, fsub := .blu, idxreg := 13, rsym := 0x2FD, gsym := 0x100 })
      (fun t => t.bufWord 1 0 == 0x2FD && t.bufWord 1 1 == 0x100 && t.bufWord 1 2 == 0x2FD && t.x == 1 && t.fsub == .idx &&
        t.sgphase == .fill && t.bufWord 2 0 == 0) = true := by decide +kernel

/-- The example of R190. -/
theorem test_retfree :
    nextIs (exec .retfree { r3 with sgphase := .retfree, held := some 7, freeq := [2] })
      (fun t => t.freeq == [2, 7] && t.held == some 0 && t.sgphase == .emita) = true := by decide +kernel

/-- The examples of R210 and R211. -/
theorem test_emita :
    nextIs (exec .emita { r5 with sgphase := .emita, held := some 3 }) (fun t => t.readyq == [3] && t.sgphase == .adv) = true ∧
    nextIs (exec .emita { r3 with sgphase := .emita, field := true, held := some 5 })
      (fun t => t.readyq == [0] && t.sgphase == .emitb) = true := by decide +kernel

theorem test_emitb :
    nextIs (exec .emitb { r3 with sgphase := .emitb, field := true, held := some 5, readyq := [0] })
      (fun t => t.readyq == [0, 5] && t.sgphase == .adv) = true := by decide +kernel

/-- The examples of R212 with `L = 4`, interlaced: (0,0) (2,0) (1,1) (3,1) (0,0). -/
theorem test_adv :
    nextIs (exec .adv { r3 with y := 2, held := some 1 }) (fun t => t.y == 1 && t.field && t.held == none) = true ∧
    nextIs (exec .adv { r3 with y := 3, field := true }) (fun t => t.y == 0 && !t.field && t.sgphase == .poll) = true := by
  decide +kernel

/-- Program P4's last rows: `getPixel` inside and outside the canvas. -/
theorem test_get_pixel :
    (match getPixel 1 0 { r3 with canvas := [(1, 15)] } with | .next p => p.2 == 0xFFFF | .fault _ => false | .refused _ => false) = true ∧
    (match getPixel 5 5 r3 with | .next p => p.2 == 0 && p.1.rsp == [] | .fault _ => false | .refused _ => false) = true := by
  decide +kernel

/-! ## States that meet the invariant -/

/-- The invariant of a state whose palette is as RESET leaves it and whose memories list nothing. -/
theorem inv_of_reset_palette {s : State} (hc : s.cfg.wf = true) (h1 : s.color = resetColors s.cfg) (h2 : s.count = 16)
    (h3 : s.inverted = false) (h4 : s.rtmds = resetSymbols s.cfg .red) (h5 : s.gtmds = resetSymbols s.cfg .green)
    (h6 : s.btmds = resetSymbols s.cfg .blue) (h7 : s.cmd = none) (h8 : s.canvas = []) (h9 : s.buf = []) (hl : s.LineOk)
    (hp : s.PositionOk) (hb : s.blankbuf = List.replicate s.cfg.bufWords s.cfg.blackWord) (hh : s.HandlesOk)
    (hq : s.freeq.length ≤ s.cfg.qfCap ∧ s.readyq.length ≤ s.cfg.qrCap) : s.Inv where
  config := hc
  memory := ⟨by rw [h8]; rfl, by rw [h8]; simp, by rw [h9]; rfl⟩
  palette := .of_reset s.cfg hc rfl h1 h2
  triplets := by
    have hn := s.pending_of_none h7
    refine ⟨fun i _ => ?_, by rw [hn]; exact List.nodup_nil⟩
    rw [hn, State.dueTriplet_of_reset s.cfg i rfl h1 h2 h3, ← h4, ← h5, ← h6]
    rfl
  line := hl
  position := hp
  blank := hb
  handles := hh
  queues := hq

/-- SG polling, interlaced, one pool handle free, two blanks already published. -/
def polling : State := { r3 with sgphase := .poll, freeq := [1], xheld := [2], readyq := [0, 0] }
/-- SG filling the first column of row 0. -/
def filling : State := { r3 with sgphase := .fill, held := some 1, xheld := [2] }
/-- SG polling below the canvas, progressive. -/
def pollingBelow : State := { r5 with sgphase := .poll, y := 1, freeq := [1], xheld := [2], readyq := [0, 0] }
/-- SG halted, the transport holding a blank handle. -/
def halted : State := { r3 with sgphase := .halt, exit := true, xheld := [1, 2, 0] }

theorem test_inv_reset : r3.Inv :=
  inv_of_reset_palette (by decide +kernel) rfl rfl rfl rfl rfl rfl rfl rfl rfl ⟨by decide, fun _ => rfl, fun _ => rfl⟩
    ⟨by decide, rfl⟩ rfl (by unfold State.HandlesOk; decide) ⟨by decide, by decide⟩

theorem test_inv_polling : polling.Inv :=
  inv_of_reset_palette (by decide +kernel) rfl rfl rfl rfl rfl rfl rfl rfl rfl ⟨by decide, fun _ => rfl, fun _ => rfl⟩
    ⟨by decide, rfl⟩ rfl (by unfold State.HandlesOk; decide) ⟨by decide, by decide⟩

theorem test_inv_filling : filling.Inv :=
  inv_of_reset_palette (by decide +kernel) rfl rfl rfl rfl rfl rfl rfl rfl rfl ⟨by decide, fun _ => rfl, fun _ => rfl⟩
    ⟨by decide, ⟨1, by decide, rfl⟩, by decide, by decide, fun _ => by decide⟩ rfl (by unfold State.HandlesOk; decide)
    ⟨by decide, by decide⟩

theorem test_inv_pollingBelow : pollingBelow.Inv :=
  inv_of_reset_palette (by decide +kernel) rfl rfl rfl rfl rfl rfl rfl rfl rfl
    ⟨by decide, fun h => absurd h (by decide), fun _ => rfl⟩ ⟨by decide, rfl⟩ rfl (by unfold State.HandlesOk; decide)
    ⟨by decide, by decide⟩

theorem test_inv_halted : halted.Inv :=
  inv_of_reset_palette (by decide +kernel) rfl rfl rfl rfl rfl rfl rfl rfl rfl ⟨by decide, fun _ => rfl, fun _ => rfl⟩
    ⟨by decide, rfl⟩ rfl (by unfold State.HandlesOk; decide) ⟨by decide, by decide⟩

/-! ## Witnesses: for each statement with hypotheses, a state and operands that meet them -/

/-- RESET with the next turns given. -/
def with3 (es : List Event) : State := { r3 with agenda := es }

/-- SATPAL after V-COL-17: slot 255 holds 0x8000, `COUNT = 256`. -/
def satFull : State := { sat with color := palSet satColours 255 0x8000, count := 256 }

/-- RESET with one more colour in use, so that PALRESET lowers `COUNT`. -/
def oneMore : State :=
  { r3 with
    color := palSet r3.color 16 0x1234
    count := 17
    rtmds := palSet r3.rtmds 16 0x1F0
    gtmds := palSet r3.gtmds 16 0x13C
    btmds := palSet r3.btmds 16 0x160 }

theorem test_inv_oneMore : oneMore.Inv where
  config := by decide +kernel
  memory := ⟨rfl, fun p hp => (by cases hp), rfl⟩
  palette := ⟨by decide, by decide, by decide +kernel, by decide +kernel⟩
  triplets := by
    refine ⟨fun i hi => ?_, List.nodup_nil⟩
    show oneMore.triplet i = oneMore.dueTriplet i
    by_cases h : i = 16
    · subst h; decide +kernel
    · have h0 : r3.triplet i = r3.dueTriplet i := test_inv_reset.triplets.due i hi
      have h1 : i.toNat < (17 : BitVec 9).toNat ↔ i.toNat < (16 : BitVec 9).toNat := by
        have : i.toNat ≠ 16 := fun he => h (BitVec.eq_of_toNat_eq he)
        show i.toNat < 17 ↔ i.toNat < 16
        omega
      simp only [State.triplet, State.dueTriplet, oneMore, palGet_palSet_other _ _ (Ne.symm h), h1]
      exact h0
  line := ⟨by decide, fun _ => rfl, fun _ => rfl⟩
  position := ⟨by decide, rfl⟩
  blank := rfl
  handles := by unfold State.HandlesOk; decide
  queues := ⟨by decide, by decide⟩

theorem test_witness_ResetGivesTheResetTable :
    cfg3.wf = true ∧ (with3 [.reset]).cmd = none ∧ (with3 [.reset]).agenda = .reset :: [] := ⟨by decide +kernel, rfl, rfl⟩

theorem test_witness_InvariantHoldsAtReset : cfg3.wf = true ∧ cfg5.wf = true := by decide +kernel

theorem test_witness_StepKeepsInvariant :
    filling.Inv ∧ ∃ t, step filling = .next t := ⟨test_inv_filling, _, rfl⟩

/-- Inside the canvas at its last cell no fault; one column further a fault. -/
theorem test_witness_OnlyADrawOutsideTheCanvasFaults :
    r3.Inv ∧ nextIs (step (with3 [.draw 1 3 9])) (fun t => t.canvasRead 3 1 == 9) = true ∧
    step (with3 [.draw 2 3 9]) = .fault .outsideCanvas ∧ step (with3 [.draw 1 4 9]) = .fault .outsideCanvas :=
  ⟨test_inv_reset, by decide +kernel, rfl, rfl⟩

/-- Each of the four refusals happens. -/
theorem test_witness_StepRefusesExactlyBreaches :
    step { r3 with cfg := { cfg3 with qfCap := 0 } } = .refused .illFormedConfig ∧
    step { with3 [.host 0x07000000] with cmd := some ⟨[], 0⟩ } = .refused .commandBeforeResponse ∧
    step (with3 [.push 7]) = .refused .transportBreach ∧
    step { with3 [.reset] with cmd := some ⟨[], 0⟩ } = .refused .resetDuringCommand := ⟨rfl, rfl, rfl, rfl⟩

theorem test_witness_HostTurnRunsTheDecodedCommand :
    cfg3.wf = true ∧ r3.cmd = none ∧ (with3 [.host 0x03000001]).agenda = .host 0x03000001 :: [] ∧
    decode (.command 0x03000001) = .ok (.invert true) := ⟨by decide +kernel, rfl, rfl, rfl⟩

/-- The turn named, and the turn not named with no command in progress. -/
theorem test_witness_SequencerTurnRunsItsPhase :
    cfg3.wf = true ∧ (with3 [.sg]).agenda = .sg :: [] ∧ r3.agenda = [] ∧ r3.cmd = none := ⟨by decide +kernel, rfl, rfl, rfl⟩

theorem test_witness_ReservedWordIsRefused :
    cfg3.wf = true ∧ r3.cmd = none ∧ (with3 [.host 0x03000002]).agenda = .host 0x03000002 :: [] ∧
    decode (.command 0x03000002) = .error (.operand 2) := ⟨by decide +kernel, rfl, rfl, rfl⟩

theorem test_witness_DecodableCodesAreEncodings :
    decode (.command 0x0400000C) = .ok (.idx2col 12) ∧ decode (.phase 0x8) = .ok .halt := ⟨rfl, rfl⟩

/-- V-COL-2, and V-COL-18 at the last index. -/
theorem test_witness_ExactMatchAnswersItsIndex :
    ((12 : PalIndex).toNat < r3.count.toNat ∧ palGet r3.color 12 = 0xF800 ∧
      ∀ j : PalIndex, j.toNat < (12 : PalIndex).toNat → palGet r3.color j ≠ 0xF800) ∧
    ((255 : PalIndex).toNat < satFull.count.toNat ∧ palGet satFull.color 255 = 0x8000 ∧
      ∀ j : PalIndex, j.toNat < (255 : PalIndex).toNat → palGet satFull.color j ≠ 0x8000) := by decide +kernel

/-- V-COL-6: the last append, `COUNT = 254`. -/
theorem test_witness_NewColourIsAppended :
    let s : State := { sat with count := 254 }
    s.count.toNat < 255 ∧ s.Absent 0x010F := by
  unfold State.Absent
  decide +kernel

/-- V-COL-9 (tolerance 1, index 0) at `COUNT = 255`. -/
theorem test_witness_SimilarColourAnswersItsIndex :
    255 ≤ sat.count.toNat ∧ (∀ j : PalIndex, j.toNat < sat.count.toNat → palGet sat.color j ≠ 0x0020) ∧
    (0 : PalIndex).toNat < sat.count.toNat ∧ palGet sat.color 0 &&& similarityMask 1 = 0x0020 &&& similarityMask 1 ∧
    (∀ u, 1 ≤ u → u < 1 → sat.NoneSimilar u 0x0020) ∧
    ∀ j : PalIndex, j.toNat < (0 : PalIndex).toNat → ¬ SameUnder 1 (palGet sat.color j) 0x0020 :=
  ⟨by decide +kernel, by decide +kernel, by decide +kernel, by decide +kernel, fun u h1 h2 => absurd h2 (Nat.not_lt.2 h1),
    fun j hj => absurd hj (Nat.not_lt_zero _)⟩

/-- V-COL-16 (tolerance 3, index 4): no match at tolerances 1 and 2, none lower at 3. -/
theorem test_witness_SimilarColourAtToleranceThree :
    (∀ t ∈ [1, 2], ∀ j : PalIndex, j.toNat < sat.count.toNat →
      palGet sat.color j &&& similarityMask t ≠ 0x4000 &&& similarityMask t) ∧
    palGet sat.color 4 &&& similarityMask 3 = 0x4000 &&& similarityMask 3 ∧
    (∀ j : PalIndex, j.toNat < (4 : PalIndex).toNat →
      palGet sat.color j &&& similarityMask 3 ≠ 0x4000 &&& similarityMask 3) ∧
    ∀ j : PalIndex, j.toNat < sat.count.toNat → palGet sat.color j ≠ 0x4000 := by decide +kernel

/-- V-COL-17 at `COUNT = 255` and V-COL-21 at `COUNT = 256`. -/
theorem test_witness_UnmatchedColourOverwritesTheLastSlot :
    (255 ≤ sat.count.toNat ∧ (∀ j : PalIndex, j.toNat < sat.count.toNat → palGet sat.color j ≠ 0x8000) ∧
      ∀ t ∈ [1, 2, 3], ∀ j : PalIndex, j.toNat < sat.count.toNat →
        palGet sat.color j &&& similarityMask t ≠ 0x8000 &&& similarityMask t) ∧
    (255 ≤ satFull.count.toNat ∧ (∀ j : PalIndex, j.toNat < satFull.count.toNat → palGet satFull.color j ≠ 0x0421) ∧
      ∀ t ∈ [1, 2, 3], ∀ j : PalIndex, j.toNat < satFull.count.toNat →
        palGet satFull.color j &&& similarityMask t ≠ 0x0421 &&& similarityMask t) := by decide +kernel

/-- V-COL-17 under the alternative reading of D9: `COUNT` stays 255. -/
theorem test_witness_OverwriteUnderSaturation :
    let s : State := { sat with cfg := { cfg3 with psCountSaturates := true } }
    (255 ≤ s.count.toNat ∧ (∀ j : PalIndex, j.toNat < s.count.toNat → palGet s.color j ≠ 0x8000) ∧
      ∀ t ∈ [1, 2, 3], ∀ j : PalIndex, j.toNat < s.count.toNat →
        palGet s.color j &&& similarityMask t ≠ 0x8000 &&& similarityMask t) ∧
    nextIs (exec (.col2idx 0x8000) s) (fun t => t.count == 255 && t.finish.rsp == [0x1FF]) = true := by decide +kernel

/-- COL2IDX on a state with no command in progress, reporting exhaustion in one case and not in the other (V-COL-17, V-COL-1). -/
theorem test_witness_ExhaustionIsReportedExactlyOnOverwrite :
    sat.cmd = none ∧ nextIs (exec (.col2idx 0x8000) sat) (fun t => t.finish.rsp == [0x1FF]) = true ∧
    nextIs (exec (.col2idx 0x0000) sat) (fun t => t.finish.rsp == [0x000]) = true := ⟨rfl, by decide +kernel, by decide +kernel⟩

theorem test_witness_InvertRecomputesEntriesInUse : false = r3.inverted ∧ true ≠ r3.inverted := by decide

theorem test_witness_InversionRoundTripRestoresTheState :
    r3.cmd = none ∧ r3.inverted = false ∧
    ∀ i : PalIndex, i.toNat < r3.count.toNat → r3.triplet i = encodeTriplet r3.cfg.tmdsLut (palGet r3.color i) false :=
  ⟨rfl, rfl, by decide +kernel⟩

/-- A command with element writes and one without. -/
theorem test_witness_EveryCommandRespondsOnceWithoutError :
    encode .palreset = .command 0x02000000 ∧ encode .rdstat = .command 0x07000000 ∧ r3.cmd = none ∧ r3.cfg.wf = true :=
  ⟨rfl, rfl, rfl, by decide +kernel⟩

/-- Three pending writes, each of the three made first. -/
theorem test_witness_WriteOrderDoesNotMatter :
    let s := r3.startCommand (tripletWrites 16 (lut3 4 17 40)) 0x10
    (s.pending.map ElemWrite.target).Nodup ∧
    [0, 1, 2].all (fun k => (s.agentStep k).pending.length == 2 && (s.agentStep k).finish.triplet 16 == lut3 4 17 40) = true := by
  decide +kernel

/-- Three pending writes made in the order last, middle, first, then the response: each turn names the last write it may. -/
theorem test_witness_TurnsInAnyOrderEndTheCommand :
    let c : Command := ⟨tripletWrites 16 (lut3 4 17 40), 0x10⟩
    let s : State := { r3 with cmd := some c, agenda := [2, 1, 0, 0].map Event.agent ++ [.sg] }
    s.cfg.wf = true ∧ s.cmd = some c ∧ (c.writes.map ElemWrite.target).Nodup ∧ [2, 1, 0, 0].length = c.writes.length + 1 ∧
    (∀ i, i < 3 → ∀ k ∈ ([2, 1, 0, 0] : List Nat)[i]?, k + i < c.writes.length) ∧
    nextIs (runSteps 4 s) (fun t => t.triplet 16 == lut3 4 17 40 && t.rsp == [0x10] && t.cmd == none) = true := by decide +kernel

theorem test_witness_CommandsLeaveTheGenerator :
    encode (.idx2col 12) = .command 0x0400000C ∧ ∃ t, exec (.idx2col 12) r3 = .next t := ⟨rfl, _, rfl⟩

theorem test_witness_SgstopRaisesExit :
    encode .palreset = .command 0x02000000 ∧ (∃ t, exec .palreset halted = .next t) ∧ halted.exit = true := ⟨rfl, ⟨_, rfl⟩, rfl⟩

theorem test_witness_SgstartStartsOnlyFromIdle : r3.sgphase = .idle ∧ halted.sgphase ≠ .idle := by decide

theorem test_witness_SequencerLeavesThePalette : encode .poll = .phase 0x1 ∧ ∃ t, exec .poll polling = .next t := ⟨rfl, _, rfl⟩

/-- IDLE left by SGSTART, HALT left by RESET, and HALT in a state that meets the invariant. -/
theorem test_witness_IdleAndHaltWait :
    nextIs (step (with3 [.host 0x05000000])) (fun t => t.sgphase == .poll) = true ∧
    nextIs (step { halted with agenda := [.reset] }) (fun t => t.sgphase == .idle) = true ∧
    halted.Inv ∧ halted.sgphase = .halt := ⟨by decide +kernel, by decide +kernel, test_inv_halted, rfl⟩

theorem test_witness_PollIsTheOnlyWayToHalt :
    nextIs (step { r3 with sgphase := .poll, exit := true }) (fun t => t.sgphase == .halt) = true := by decide +kernel

/-- An empty queue; the blank handle; the last row that is filled (`Y = CH - 1`); the first that is not (`Y = CH`). -/
theorem test_witness_WaitfreeTakesOrDiscards :
    let s : State := { r3 with freeq := [0, 2] }
    let t : State := { r3 with freeq := [1], y := 3 }
    r3.freeq = [] ∧ s.freeq = 0 :: [2] ∧ 0 = s.cfg.blankHandle ∧ t.freeq = 1 :: [] ∧ 1 ≠ t.cfg.blankHandle ∧ t.y.toNat < t.cfg.canvasHeight ∧
    t.cfg.canvasHeight ≤ ({ t with y := 4 } : State).y.toNat := by decide

/-- The last canvas column of the last canvas row; the two later sub-steps. -/
theorem test_witness_FillReadsCanvasThenRedThenGreen :
    let s : State := { filling with x := 1, y := 3 }
    s.fsub = .idx ∧ s.x < s.cfg.canvasWidth ∧ s.y.toNat < s.cfg.canvasHeight ∧
    ({ s with fsub := .red } : State).fsub = .red ∧ ({ s with fsub := .grn } : State).fsub = .grn := by decide

/-- The last column of the buffer. -/
theorem test_witness_FillBluWritesTheColumn :
    let s : State := { filling with x := 1, fsub := .blu }
    s.cfg.wf = true ∧ Memory.wf s.buf = true ∧ s.fsub = .blu ∧ s.held = some 1 ∧ 1 ∈ s.cfg.pool ∧ s.x < s.cfg.activeWidth := by
  decide +kernel

/-- The first padding column, which is also the last column. -/
theorem test_witness_FillPadsWithBlack :
    let s : State := { r5 with sgphase := .fill, held := some 1, x := 1 }
    s.cfg.wf = true ∧ Memory.wf s.buf = true ∧ s.fsub = .idx ∧ s.cfg.canvasWidth ≤ s.x ∧ s.held = some 1 ∧ 1 ∈ s.cfg.pool ∧
      s.x < s.cfg.activeWidth := by decide +kernel

/-- Slots 0 and 2; bits just below and just above a slot. -/
theorem test_witness_SlotWriteSetsTenBits :
    setSlot 0x00040100 2 0x2FD = 0x2FD40100 ∧ setSlot 0xFFFFFFFF 0 0x100 = 0x00000100 ∧ (19 < 10 * 2) ∧ (10 * 1 + 10 ≤ 20) := by
  decide +kernel

theorem test_witness_UndisturbedFillWritesTheRow :
    filling.Inv ∧ filling.sgphase = .fill ∧ filling.held = some 1 ∧ filling.x = 0 ∧ filling.fsub = .idx :=
  ⟨test_inv_filling, rfl, rfl, rfl, rfl⟩

/-- A queue at its capacity; room for exactly one more handle. -/
theorem test_witness_RetfreeReturnsTheBuffer :
    let s : State := { r5 with sgphase := .retfree, held := some 1, freeq := [2, 0] }
    s.cfg.qfCap ≤ ({ s with freeq := [2, 0, 0] } : State).freeq.length ∧ s.held = some 1 ∧ s.freeq.length < s.cfg.qfCap := by decide

/-- SG about to publish the pool buffer 1. -/
def emitting : State := { r3 with sgphase := .emita, held := some 1, xheld := [2] }

theorem test_inv_emitting : emitting.Inv :=
  inv_of_reset_palette (by decide +kernel) rfl rfl rfl rfl rfl rfl rfl rfl rfl ⟨by decide, fun _ => rfl, fun _ => rfl⟩
    ⟨by decide, 1, rfl, .inl (by decide)⟩ rfl (by unfold State.HandlesOk; decide) ⟨by decide, by decide⟩

/-- A queue at its capacity; a state that meets the invariant; room for exactly one more handle; progressive, interlaced even, interlaced odd. -/
theorem test_witness_EmitaPublishesTheFirstLine :
    let s : State := { emitting with readyq := [0, 2, 0] }
    s.cfg.qrCap ≤ ({ s with readyq := [0, 2, 0, 0] } : State).readyq.length ∧ emitting.Inv ∧ emitting.sgphase = .emita ∧
    s.held = some 1 ∧ s.readyq.length < s.cfg.qrCap ∧ r5.cfg.ilace = false ∧ s.cfg.ilace = true ∧ s.field = false ∧
    ({ s with field := true } : State).field = true :=
  ⟨by decide, test_inv_emitting, rfl, rfl, by decide, rfl, rfl, rfl, rfl⟩

/-- A queue at its capacity; room for exactly one more; both fields; EMITB reached from EMITA. -/
theorem test_witness_EmitbPublishesTheSecondLine :
    let s : State := { r3 with sgphase := .emitb, held := some 1, readyq := [0, 2, 0] }
    s.cfg.qrCap ≤ ({ s with readyq := [0, 2, 0, 0] } : State).readyq.length ∧ s.held = some 1 ∧ s.readyq.length < s.cfg.qrCap ∧
    s.field = false ∧ ({ s with field := true } : State).field = true ∧
    nextIs (step { r3 with sgphase := .emita, held := some 1 }) (fun t => t.sgphase == .emitb) = true := by decide +kernel

/-- Progressive; the last line but one of a field and its last line, `L = 4`. -/
theorem test_witness_AdvAdvancesTheLine :
    r5.cfg.wf = true ∧ r5.cfg.ilace = false ∧ r3.cfg.wf = true ∧ r3.cfg.ilace = true ∧
    (1 : BitVec 15).toNat + 2 < r3.cfg.lines ∧ r3.cfg.lines ≤ (2 : BitVec 15).toNat + 2 := by decide +kernel

theorem test_witness_LinesAreVisitedFieldByField :
    r5.cfg.wf = true ∧ r5.cfg.ilace = false ∧ r3.cfg.wf = true ∧ r3.cfg.ilace = true ∧ r3.y = 0 ∧ r3.field = false := by
  decide +kernel

/-- Room in the ready queue for exactly the two handles of an interlaced iteration. -/
theorem test_witness_RealIterationPublishesTheFilledBuffer :
    polling.Inv ∧ polling.sgphase = .poll ∧ polling.exit = false ∧ polling.freeq = 1 :: [] ∧ (1 : Handle) ≠ polling.cfg.blankHandle ∧
    polling.y.toNat < polling.cfg.canvasHeight ∧ polling.readyq.length + (polling.emission 1).length = polling.cfg.qrCap :=
  ⟨test_inv_polling, rfl, rfl, rfl, by decide, by decide, by decide⟩

theorem test_witness_PaddingIterationPublishesTheBlank :
    pollingBelow.Inv ∧ pollingBelow.sgphase = .poll ∧ pollingBelow.exit = false ∧ pollingBelow.freeq = 1 :: [] ∧
    (1 : Handle) ≠ pollingBelow.cfg.blankHandle ∧ pollingBelow.cfg.canvasHeight ≤ pollingBelow.y.toNat ∧
    pollingBelow.readyq.length + (pollingBelow.emission pollingBelow.cfg.blankHandle).length = pollingBelow.cfg.qrCap :=
  ⟨test_inv_pollingBelow, rfl, rfl, rfl, by decide, by decide, by decide⟩

theorem test_witness_DiscardIterationOnlyDropsTheBlank :
    let s : State := { r3 with sgphase := .poll, freeq := [0, 2] }
    s.sgphase = .poll ∧ s.exit = false ∧ s.freeq = s.cfg.blankHandle :: [2] := by decide

theorem test_witness_NoStepChangesAParameter : ∃ t, step r3 = .next t := ⟨_, rfl⟩

/-- The last word of the Blank-Line Resource, read by the transport through the blank handle; the last slot of a word of two and the first
bit above it. -/
theorem test_witness_BlankLineIsNeverWritten :
    halted.Inv ∧ halted.cfg.blankHandle ∈ halted.xheld ∧ 5 < halted.cfg.bufWords ∧ (∃ t, step halted = .next t) ∧
    cfg5.wf = true ∧ 1 < cfg5.symbolsPerWord ∧ 10 * cfg5.symbolsPerWord ≤ 20 ∧ cfg5.blackWord = 0x00040100 :=
  ⟨test_inv_halted, by decide, by decide, ⟨_, rfl⟩, by decide +kernel, by decide, by decide, by decide +kernel⟩

/-- SGSTOP sets `EXIT`, RESET clears it. -/
theorem test_witness_ExitIsClearedOnlyByReset :
    nextIs (step (with3 [.host 0x06000000])) (fun t => t.exit) = true ∧
    nextIs (step { halted with agenda := [.reset] }) (fun t => !t.exit) = true := by decide +kernel

theorem test_witness_CountFallsOnlyOnReset :
    oneMore.Inv ∧ nextIs (step { oneMore with agenda := [.host 0x02000000] }) (fun t => t.count == 16) = true ∧
    nextIs (step { oneMore with agenda := [.reset] }) (fun t => t.count == 16) = true :=
  ⟨test_inv_oneMore, by decide +kernel, by decide +kernel⟩

/-- A pop; a push with room for exactly one more; a push on a full queue. -/
theorem test_witness_TransportMovesHandles :
    let p : State := { r5 with readyq := [1], xheld := [2], agenda := [.pop] }
    let q : State := { r5 with freeq := [2, 0], xheld := [1], agenda := [.push 1] }
    cfg5.wf = true ∧ p.agenda = .pop :: [] ∧ p.readyq = 1 :: [] ∧ q.agenda = .push 1 :: [] ∧ 1 ∈ q.xheld ∧
    q.freeq.length < q.cfg.qfCap ∧ q.cfg.qfCap ≤ ({ q with freeq := [2, 0, 0] } : State).freeq.length := by decide +kernel

/-- The last cell of the canvas. -/
theorem test_witness_CanvasWriteIsReadBack :
    cfg3.wf = true ∧ Memory.wf r3.canvas = true ∧ (with3 [.draw 1 3 9]).agenda = .draw 1 3 9 :: [] ∧ 1 < r3.cfg.canvasWidth ∧
    3 < r3.cfg.canvasHeight := by decide +kernel

/-- The premises of the drawing calls; the last cell inside the canvas and the first outside. -/
theorem test_witness_DrawPixelMapsThenWrites :
    r3.cmd = none ∧ Memory.wf r3.canvas = true ∧ inCanvas r3.cfg 1 3 = true ∧ inCanvas r3.cfg 2 3 = false := by decide

/-- The premises; then both ends of each line and the cell after the end: row 3 from column 0, of one cell and of two; column 1 from row 1,
of two cells. -/
theorem test_witness_FastLinesMapOnce :
    r3.cmd = none ∧ Memory.wf r3.canvas = true ∧
    nextIs (drawFastHLine 0 3 1 0xF800 r3) (fun t => t.canvasRead 3 0 == 12 && t.canvasRead 3 1 == 0 && t.rsp == [12]) = true ∧
    nextIs (drawFastHLine 0 3 2 0xF800 r3) (fun t => t.canvasRead 3 0 == 12 && t.canvasRead 3 1 == 12) = true ∧
    nextIs (drawFastVLine 1 1 2 0xF800 r3) (fun t => t.canvasRead 0 1 == 0 && t.canvasRead 1 1 == 12 && t.canvasRead 2 1 == 12 &&
      t.canvasRead 3 1 == 0 && t.canvasRead 1 0 == 0) = true := by decide +kernel

/-- A standard colour and another. -/
theorem test_witness_FillScreenLeavesOneColour :
    r3.cmd = none ∧ Memory.wf r3.canvas = true ∧ 0x07E0 ∈ r3.cfg.std16.toList ∧ 0x1234 ∉ r3.cfg.std16.toList := by decide +kernel

theorem test_witness_GetPixelReadsTheStoredColour :
    inCanvas r3.cfg 5 5 = false ∧ inCanvas r3.cfg 1 3 = true ∧ r3.cmd = none := by decide

/-- The last column of a FILL, a RESET, and a pool handle with the transport that no FILL has filled. -/
theorem test_witness_UnfilledBuffersAreNotRead :
    nextIs (step { filling with x := 1, fsub := .blu }) (fun t => t.filled == [1] && t.sgphase == .emita) = true ∧
    nextIs (step { with3 [.reset] with filled := [1, 2] }) (fun t => t.filled == [] && t.transportRead 1 0 == none) = true ∧
    1 ≠ r3.cfg.blankHandle ∧ 1 ∉ r3.filled ∧ 1 ∈ r3.xheld := by decide +kernel

/-- The buffer 1 filled and published, the first and the last of its words read after the pop. -/
def published : State := { r3 with filled := [1], readyq := [1], xheld := [2], agenda := [.pop] }

theorem test_inv_published : published.Inv :=
  inv_of_reset_palette (by decide +kernel) rfl rfl rfl rfl rfl rfl rfl rfl rfl ⟨by decide, fun _ => rfl, fun _ => rfl⟩
    ⟨by decide, rfl⟩ rfl (by unfold State.HandlesOk; decide) ⟨by decide, by decide⟩

theorem test_witness_PublishedBuffersAreFilled :
    published.Inv ∧ published.PublishedOk ∧ published.agenda = .pop :: [] ∧ published.readyq = 1 :: [] ∧
    0 < published.cfg.bufWords ∧ 5 < published.cfg.bufWords ∧
    nextIs (step published) (fun t => t.transportRead 1 0 == some 0 && t.transportRead 1 6 == none && t.transportRead 2 0 == none) =
      true :=
  ⟨test_inv_published, ⟨by decide, fun h => absurd h (by decide)⟩, rfl, rfl, by decide, by decide, by decide +kernel⟩

/-- The first and the last of three pending writes; a turn that names none; the response; no command. -/
theorem test_witness_AgentTurnMakesOneWriteOrResponds :
    let ws := tripletWrites 16 (lut3 4 17 40)
    let s (k : Nat) : State := { with3 [.agent k] with cmd := some ⟨ws, 0x10⟩ }
    cfg3.wf = true ∧ (s 2).agenda = .agent 2 :: [] ∧ ws[0]? = some ⟨.red, 16, 0x1F0⟩ ∧ ws[2]? = some ⟨.blue, 16, lutRead dvi0 40⟩ ∧
    ws ≠ [] ∧ ws.length ≤ 3 ∧
    nextIs (step (s 2)) (fun t => palGet t.btmds 16 == lutRead dvi0 40 && palGet t.rtmds 16 == 0 && t.pending == ws.take 2) = true ∧
    nextIs (step { with3 [.agent 0] with cmd := some ⟨[], 0x10⟩ }) (fun t => t.rsp == [0x10] && t.cmd == none) = true ∧
    r3.cmd = none := by decide +kernel

end Sys2Proof.Tests
end

/-! ## Proofs about the parameters and the masks of 00_scope.md -/

section
namespace Sys2Proof.Machine

open Sys2Proof

variable {s t : State}

/-! ### The masked search of COL2IDX (R8, R133) -/

@[simp] theorem similarityMask_one : similarityMask 1 = 0xF7DE := by decide
@[simp] theorem similarityMask_two : similarityMask 2 = 0xE79C := by decide
@[simp] theorem similarityMask_three : similarityMask 3 = 0xC718 := by decide

/-- Without `EXH` the response word of COL2IDX is the index alone (R104). -/
theorem indexResponse_false (i : PalIndex) : indexResponse i false = i.setWidth 32 := by
  apply BitVec.eq_of_toNat_eq
  rw [indexResponse, BitVec.toNat_setWidth, BitVec.toNat_append]
  simp

/-- COL2IDX on a saturated palette answers what the masked search finds, and changes nothing else (R133). -/
theorem execCol2idx_of_similarMatch {c : Colour} {i : PalIndex} (hcount : 255 ≤ s.count.toNat) (habsent : s.Absent c)
    (hsim : s.similarMatch c = some i.toNat) : execCol2idx c s = .next (s.respond (i.setWidth 32)) := by
  have hexact : s.exactMatch c = none := (s.exactMatch_none c).2 habsent
  have hfull : s.canAppend = false := decide_eq_false (Nat.not_lt.2 hcount)
  simp [execCol2idx, hexact, hfull, hsim, indexResponse_false]

/-- Settles O15: the masks are closed computations; the search stops at the given tolerance because it finds nothing under a
tighter one. -/
theorem similarColourAnswersItsIndex : Obligations.SimilarColourAnswersItsIndex := by
  refine ⟨fun a b => by simp [SameUnder], ?_⟩
  intro s c t i hcount habsent ht1 ht3 htighter hi hsame hlower
  have hmasked : s.maskedMatch t c = some i.toNat := s.maskedMatch_some t c i hi hsame hlower
  have hsim : s.similarMatch c = some i.toNat := s.similarMatch_of c t i.toNat ht1 ht3 htighter hmasked
  exact execCol2idx_of_similarMatch hcount habsent hsim

/-! ### The parameters (R9): every instruction, turn and step keeps them -/

theorem State.fillColumn_cfg {tr : Triplet} (h : s.fillColumn tr = .next t) : t.cfg = s.cfg := by
  obtain ⟨k, -, -, -, rfl⟩ := State.fillColumn_next h
  exact s.columnWrite_cfg k s.x tr

theorem execCol2idx_cfg {c : Colour} (h : execCol2idx c s = .next t) : t.cfg = s.cfg := by
  obtain ⟨i, -, rfl⟩ | ⟨-, -, rfl⟩ | ⟨-, -, i, -, rfl⟩ | ⟨-, -, -, rfl⟩ := execCol2idx_next h <;> simp

theorem execInvert_cfg {f : Bool} (h : execInvert f s = .next t) : t.cfg = s.cfg := by
  obtain ⟨-, rfl⟩ | ⟨-, rfl⟩ := execInvert_next h <;> simp

theorem execWaitfree_cfg (h : execWaitfree s = .next t) : t.cfg = s.cfg := by
  obtain ⟨-, rfl⟩ | ⟨q, -, rfl⟩ | ⟨k, q, -, -, -, rfl⟩ | ⟨k, q, -, -, -, rfl⟩ := execWaitfree_next h <;> rfl

theorem execFill_cfg (h : execFill s = .next t) : t.cfg = s.cfg := by
  obtain ⟨-, -, -, rfl⟩ | ⟨-, -, hpad⟩ | ⟨-, rfl⟩ | ⟨-, rfl⟩ | ⟨-, hcol⟩ := execFill_next h
  · rfl
  · exact State.fillColumn_cfg hpad
  · rfl
  · rfl
  · exact State.fillColumn_cfg hcol

theorem execRetfree_cfg (h : execRetfree s = .next t) : t.cfg = s.cfg := by
  obtain ⟨-, rfl⟩ | ⟨-, k, -, rfl⟩ := execRetfree_next h <;> rfl

theorem execEmita_cfg (h : execEmita s = .next t) : t.cfg = s.cfg := by
  obtain ⟨-, rfl⟩ | ⟨-, ⟨-, k, -, rfl⟩ | ⟨-, -, k, -, rfl⟩ | ⟨-, -, rfl⟩⟩ := execEmita_next h <;> rfl

theorem execEmitb_cfg (h : execEmitb s = .next t) : t.cfg = s.cfg := by
  obtain ⟨-, rfl⟩ | ⟨-, ⟨-, rfl⟩ | ⟨-, k, -, rfl⟩⟩ := execEmitb_next h <;> rfl

/-- No command and no phase changes a parameter (R9). -/
theorem exec_cfg {i : Instr} (h : exec i s = .next t) : t.cfg = s.cfg := by
  cases i with
  | col2idx c => exact execCol2idx_cfg h
  | invert f => exact execInvert_cfg h
  | waitfree => exact execWaitfree_cfg h
  | fill => exact execFill_cfg h
  | retfree => exact execRetfree_cfg h
  | emita => exact execEmita_cfg h
  | emitb => exact execEmitb_cfg h
  | palreset | idx2col | sgstart | sgstop | rdstat | idle | poll | adv | halt => cases h; rfl

theorem hostTurn_cfg {w : Word} (h : hostTurn w s = .next t) : t.cfg = s.cfg := by
  obtain ⟨-, ⟨i, -, hexec⟩ | ⟨r, -, rfl⟩⟩ := hostTurn_next h
  · exact exec_cfg hexec
  · exact s.refuseCommand_cfg

theorem State.agentStep_cfg (s : State) (k : Nat) : (s.agentStep k).cfg = s.cfg := (s.agentStep_generator k).cfg

theorem popTurn_cfg (h : popTurn s = .next t) : t.cfg = s.cfg := by
  obtain ⟨-, rfl⟩ | ⟨k, q, -, rfl⟩ := popTurn_next h <;> rfl

theorem pushTurn_cfg {k : Handle} (h : pushTurn k s = .next t) : t.cfg = s.cfg := by
  obtain ⟨-, ⟨-, rfl⟩ | ⟨-, rfl⟩⟩ := pushTurn_next h <;> rfl

theorem drawTurn_cfg {x y : Nat} {b : Byte} (h : drawTurn x y b s = .next t) : t.cfg = s.cfg := by
  obtain ⟨-, -, rfl⟩ := drawTurn_next h
  exact s.canvasWrite_cfg x y b

theorem State.applyReset_cfg (s : State) : s.applyReset.cfg = s.cfg := rfl

theorem resetTurn_cfg (h : resetTurn s = .next t) : t.cfg = s.cfg := by
  obtain ⟨-, rfl⟩ := resetTurn_next h
  exact s.applyReset_cfg

/-- No party's turn changes a parameter (R9). -/
theorem act_cfg {e : Event} (h : act e s = .next t) : t.cfg = s.cfg := by
  cases e with
  | host w => exact hostTurn_cfg h
  | agent k => cases h; exact s.agentStep_cfg k
  | sg => exact exec_cfg ((sgTurn_eq s).symm.trans h)
  | pop => exact popTurn_cfg h
  | push k => exact pushTurn_cfg h
  | draw x y b => exact drawTurn_cfg h
  | reset => exact resetTurn_cfg h

/-- Settles O45: a step is a party's turn on the state without that turn, and no turn changes a parameter. -/
theorem noStepChangesAParameter : Obligations.NoStepChangesAParameter := by
  intro s t h
  obtain ⟨-, hact⟩ := step_next h
  calc t.cfg = s.dropEvent.cfg := act_cfg hact
    _ = s.cfg := s.dropEvent_cfg

end Sys2Proof.Machine
end

/-! ## Proofs about the state of 10_state.md -/

section
namespace Sys2Proof.Machine

open Sys2Proof

variable {s t : State}

/-! ### What a phase and a command leave alone (R73, R175) -/

theorem State.fillColumn_samePalette {tr : Triplet} (h : s.fillColumn tr = .next t) : SamePalette s t := by
  obtain ⟨k, -, -, -, rfl⟩ := State.fillColumn_next h
  constructor <;> rfl

theorem execWaitfree_samePalette (h : execWaitfree s = .next t) : SamePalette s t := by
  obtain ⟨-, rfl⟩ | ⟨q, -, rfl⟩ | ⟨k, q, -, -, -, rfl⟩ | ⟨k, q, -, -, -, rfl⟩ := execWaitfree_next h <;>
    constructor <;> rfl

theorem execFill_samePalette (h : execFill s = .next t) : SamePalette s t := by
  obtain ⟨-, -, -, rfl⟩ | ⟨-, -, hpad⟩ | ⟨-, rfl⟩ | ⟨-, rfl⟩ | ⟨-, hcol⟩ := execFill_next h
  · constructor <;> rfl
  · exact State.fillColumn_samePalette hpad
  · constructor <;> rfl
  · constructor <;> rfl
  · exact State.fillColumn_samePalette hcol

theorem execRetfree_samePalette (h : execRetfree s = .next t) : SamePalette s t := by
  obtain ⟨-, rfl⟩ | ⟨-, k, -, rfl⟩ := execRetfree_next h <;> constructor <;> rfl

theorem execEmita_samePalette (h : execEmita s = .next t) : SamePalette s t := by
  obtain ⟨-, rfl⟩ | ⟨-, ⟨-, k, -, rfl⟩ | ⟨-, -, k, -, rfl⟩ | ⟨-, -, rfl⟩⟩ := execEmita_next h <;>
    constructor <;> rfl

theorem execEmitb_samePalette (h : execEmitb s = .next t) : SamePalette s t := by
  obtain ⟨-, rfl⟩ | ⟨-, ⟨-, rfl⟩ | ⟨-, k, -, rfl⟩⟩ := execEmitb_next h <;> constructor <;> rfl

/-- The frame of the nine phases (R175). -/
theorem exec_phase_samePalette (p : Phase) (h : exec p.instr s = .next t) : SamePalette s t := by
  cases p with
  | waitfree => exact execWaitfree_samePalette h
  | fill => exact execFill_samePalette h
  | retfree => exact execRetfree_samePalette h
  | emita => exact execEmita_samePalette h
  | emitb => exact execEmitb_samePalette h
  | idle | poll | adv | halt => cases h; constructor <;> rfl

theorem execCol2idx_sameGenerator {c : Colour} (h : execCol2idx c s = .next t) : SameGenerator s t := by
  obtain ⟨i, -, rfl⟩ | ⟨-, -, rfl⟩ | ⟨-, -, i, -, rfl⟩ | ⟨-, -, -, rfl⟩ := execCol2idx_next h <;> constructor <;> rfl

theorem execInvert_sameGenerator {f : Bool} (h : execInvert f s = .next t) : SameGenerator s t := by
  obtain ⟨-, rfl⟩ | ⟨-, rfl⟩ := execInvert_next h <;> constructor <;> rfl

/-- The frame of the seven commands (R73). -/
theorem exec_command_sameGenerator {i : Instr} {w : Word} (hi : encode i = .command w) (h : exec i s = .next t) :
    SameGenerator s t := by
  cases i with
  | col2idx c => exact execCol2idx_sameGenerator h
  | invert f => exact execInvert_sameGenerator h
  | palreset | idx2col | sgstart | sgstop | rdstat => cases h; constructor <;> rfl
  | idle | poll | waitfree | fill | retfree | emita | emitb | adv | halt => cases hi

theorem execCol2idx_sgphase {c : Colour} (h : execCol2idx c s = .next t) : t.sgphase = s.sgphase := by
  obtain ⟨i, -, rfl⟩ | ⟨-, -, rfl⟩ | ⟨-, -, i, -, rfl⟩ | ⟨-, -, -, rfl⟩ := execCol2idx_next h <;> rfl

theorem execInvert_sgphase {f : Bool} (h : execInvert f s = .next t) : t.sgphase = s.sgphase := by
  obtain ⟨-, rfl⟩ | ⟨-, rfl⟩ := execInvert_next h <;> rfl

/-- A command moves the sequencer from IDLE to POLL only (R230). -/
theorem exec_command_sgphase {i : Instr} {w : Word} (hi : encode i = .command w) (h : exec i s = .next t) :
    t.sgphase = s.sgphase ∨ (s.sgphase = .idle ∧ t.sgphase = .poll) := by
  cases i with
  | col2idx c => exact .inl (execCol2idx_sgphase h)
  | invert f => exact .inl (execInvert_sgphase h)
  | sgstart =>
    cases h
    by_cases hidle : s.sgphase = .idle
    · exact .inr ⟨hidle, if_pos hidle⟩
    · exact .inl (if_neg hidle)
  | palreset | idx2col | sgstop | rdstat => cases h; exact .inl rfl
  | idle | poll | waitfree | fill | retfree | emita | emitb | adv | halt => cases hi

theorem SameGenerator.refuseCommand (s : State) : SameGenerator s s.refuseCommand := by constructor <;> rfl

/-! ### What the invariant asks of each phase (R30, R32, R68) -/

theorem State.positionOk_iff_of_unheld (hp : holdsBuffer s.sgphase = false) :
    s.PositionOk ↔ s.x ≤ s.cfg.activeWidth ∧ s.held = none := by
  unfold State.PositionOk
  cases hs : s.sgphase <;> simp_all [holdsBuffer]

theorem State.positionOk_iff_of_fill (hp : s.sgphase = .fill) :
    s.PositionOk ↔ s.x ≤ s.cfg.activeWidth ∧ (∃ h ∈ s.cfg.pool, s.held = some h) ∧
      s.y.toNat < s.cfg.canvasHeight ∧ s.x < s.cfg.activeWidth ∧ (s.fsub ≠ .idx → s.x < s.cfg.canvasWidth) := by
  simp only [State.PositionOk, hp]

theorem State.positionOk_iff_of_retfree (hp : s.sgphase = .retfree) :
    s.PositionOk ↔ s.x ≤ s.cfg.activeWidth ∧ (∃ h ∈ s.cfg.pool, s.held = some h) ∧
      s.cfg.canvasHeight ≤ s.y.toNat := by
  simp only [State.PositionOk, hp]

theorem State.positionOk_iff_of_emitted (hp : s.sgphase = .emita ∨ s.sgphase = .adv) :
    s.PositionOk ↔ s.x ≤ s.cfg.activeWidth ∧
      ∃ h, s.held = some h ∧ (h ∈ s.cfg.pool ∨ h = s.cfg.blankHandle) := by
  rcases hp with hp | hp <;> simp only [State.PositionOk, hp]

theorem State.positionOk_iff_of_emitb (hp : s.sgphase = .emitb) :
    s.PositionOk ↔ s.x ≤ s.cfg.activeWidth ∧ s.cfg.ilace = true ∧
      ∃ h, s.held = some h ∧ (h ∈ s.cfg.pool ∨ h = s.cfg.blankHandle) := by
  simp only [State.PositionOk, hp]

theorem State.owned_of_unheld (hp : holdsBuffer s.sgphase = false) : s.owned = none := by
  unfold State.owned
  cases hs : s.sgphase <;> simp_all [holdsBuffer]

theorem State.owned_of_owning (hp : s.sgphase = .fill ∨ s.sgphase = .retfree ∨ s.sgphase = .emita) :
    s.owned = s.held := by
  rcases hp with hp | hp | hp <;> simp only [State.owned, hp]

theorem State.owned_of_emitb (hp : s.sgphase = .emitb) : s.owned = if s.field then s.held else none := by
  simp only [State.owned, hp]

theorem State.owned_of_adv (hp : s.sgphase = .adv) : s.owned = none := by simp only [State.owned, hp]

/-! ### The invariant over a frame -/

/-- A change that only moves IDLE to POLL keeps where the sequencer stands. -/
theorem State.PositionOk.of_sameGenerator (h : s.PositionOk) (hg : SameGenerator s t)
    (hp : t.sgphase = s.sgphase ∨ (s.sgphase = .idle ∧ t.sgphase = .poll)) : t.PositionOk := by
  rcases hp with hp | ⟨hs, ht⟩
  · unfold State.PositionOk at *
    rw [hp, hg.cfg, hg.x, hg.held, hg.y, hg.fsub]
    exact h
  · have hs' : holdsBuffer s.sgphase = false := by rw [hs]; rfl
    have ht' : holdsBuffer t.sgphase = false := by rw [ht]; rfl
    rw [State.positionOk_iff_of_unheld ht', hg.cfg, hg.x, hg.held]
    exact (State.positionOk_iff_of_unheld hs').1 h

theorem State.owned_of_sameGenerator (hg : SameGenerator s t)
    (hp : t.sgphase = s.sgphase ∨ (s.sgphase = .idle ∧ t.sgphase = .poll)) : t.owned = s.owned := by
  unfold State.owned
  rcases hp with hp | ⟨hs, ht⟩
  · rw [hp, hg.held, hg.field]
  · rw [hs, ht]

/-- The generator's parts of the invariant survive a change that only commands make. -/
theorem State.Inv.of_sameGenerator (h : s.Inv) (hg : SameGenerator s t)
    (hp : t.sgphase = s.sgphase ∨ (s.sgphase = .idle ∧ t.sgphase = .poll))
    (hpalette : t.PaletteOk) (htriplets : t.TripletsOk) : t.Inv where
  config := by rw [hg.cfg]; exact h.config
  memory := h.memory.of_eq hg.cfg hg.canvas hg.buf
  palette := hpalette
  triplets := htriplets
  line := h.line.of_eq hg.cfg hg.y hg.field
  position := h.position.of_sameGenerator hg hp
  blank := by rw [hg.blankbuf, hg.cfg]; exact h.blank
  handles := by
    unfold State.HandlesOk
    rw [State.owned_of_sameGenerator hg hp, hg.freeq, hg.readyq, hg.xheld, hg.cfg]
    exact h.handles
  queues := by rw [hg.freeq, hg.readyq, hg.cfg]; exact h.queues

theorem State.TripletsOk.of_samePalette (h : s.TripletsOk) (hp : SamePalette s t) : t.TripletsOk :=
  h.of_eq hp.cfg hp.color hp.count hp.inverted hp.rtmds hp.gtmds hp.btmds (by simp only [State.pending, hp.cmd])

/-- The palette's parts of the invariant survive a change that only phases make. -/
theorem State.Inv.of_samePalette (h : s.Inv) (hp : SamePalette s t) (hbuf : Memory.wf t.buf = true) (hline : t.LineOk)
    (hposition : t.PositionOk) (hhandles : t.HandlesOk)
    (hqueues : t.freeq.length ≤ t.cfg.qfCap ∧ t.readyq.length ≤ t.cfg.qrCap) : t.Inv where
  config := by rw [hp.cfg]; exact h.config
  memory := ⟨by rw [hp.canvas]; exact h.memory.canvas, by rw [hp.canvas, hp.cfg]; exact h.memory.inside, hbuf⟩
  palette := h.palette.of_eq hp.cfg hp.color hp.count
  triplets := h.triplets.of_samePalette hp
  line := hline
  position := hposition
  blank := by rw [hp.blankbuf, hp.cfg]; exact h.blank
  handles := hhandles
  queues := hqueues

/-! ### Every phase keeps the invariant -/

/-- A change that moves handles between their four places, or only the blank one, keeps the placement of R272. -/
theorem State.Inv.handlesOk_of_move {o o' : Option Handle} (h : s.Inv) (hcfg : t.cfg = s.cfg) (hs : s.owned = o)
    (ht : t.owned = o')
    (hmove : ∀ k, k ≠ s.cfg.blankHandle →
      t.freeq.count k + o'.toList.count k + t.readyq.count k + t.xheld.count k =
        s.freeq.count k + o.toList.count k + s.readyq.count k + s.xheld.count k) : t.HandlesOk := by
  subst hs ht
  have hc : t.cfg.wf = true := by rw [hcfg]; exact h.config
  rw [State.handlesOk_iff hc, hcfg]
  intro k hk
  rw [hmove k hk]
  exact (State.handlesOk_iff h.config).1 h.handles k hk

/-- A handle of the free queue other than the blank one is a pool handle (R272). -/
theorem State.Inv.mem_pool_of_mem_freeq (h : s.Inv) {k : Handle} (hk : k ∈ s.freeq) (hne : k ≠ s.cfg.blankHandle) :
    k ∈ s.cfg.pool := by
  have hplaces := (State.handlesOk_iff h.config).1 h.handles k hne
  have hpos := List.count_pos_iff.2 hk
  exact List.count_pos_iff.1 (by omega)

theorem execPoll_keeps_inv (h : s.Inv) (hphase : s.sgphase = .poll) (he : execPoll s = .next t) : t.Inv := by
  have hsame : SamePalette s t := exec_phase_samePalette .poll he
  have hs : holdsBuffer s.sgphase = false := by rw [hphase]; rfl
  cases he
  have ht : holdsBuffer (if s.exit = true then Phase.halt else .waitfree) = false := by split <;> rfl
  refine h.of_samePalette hsame h.memory.buf (h.line.of_eq rfl rfl rfl) ?_ ?_ h.queues
  · exact (State.positionOk_iff_of_unheld ht).2 ((State.positionOk_iff_of_unheld hs).1 h.position)
  · exact h.handlesOk_of_move rfl (State.owned_of_unheld hs) (State.owned_of_unheld ht) fun _ _ => rfl

/-- The handle popped becomes the sequencer's, or is the blank one (R179, R180). -/
theorem execWaitfree_keeps_inv (h : s.Inv) (hphase : s.sgphase = .waitfree) (he : execWaitfree s = .next t) :
    t.Inv := by
  have hsame := execWaitfree_samePalette he
  have hs : holdsBuffer s.sgphase = false := by rw [hphase]; rfl
  have howned := State.owned_of_unheld hs
  obtain ⟨hx, hheld⟩ := (State.positionOk_iff_of_unheld hs).1 h.position
  obtain ⟨hfree, hready⟩ := h.queues
  obtain ⟨-, rfl⟩ | ⟨q, hq, rfl⟩ | ⟨k, q, hq, hk, hy, rfl⟩ | ⟨k, q, hq, hk, hy, rfl⟩ := execWaitfree_next he
  · exact h
  all_goals
    rw [hq, List.length_cons] at hfree
    refine h.of_samePalette hsame h.memory.buf (h.line.of_eq rfl rfl rfl) ?_ ?_ ⟨Nat.le_of_succ_le hfree, hready⟩
  -- for the blank handle, FILL and RETFREE: the position, then the handles
  · exact (State.positionOk_iff_of_unheld rfl).2 ⟨hx, hheld⟩
  · refine h.handlesOk_of_move rfl howned (State.owned_of_unheld rfl) fun j hj => ?_
    simp [hq, List.count_cons_of_ne hj.symm]
  · exact (State.positionOk_iff_of_fill rfl).2
      ⟨Nat.zero_le _, ⟨k, h.mem_pool_of_mem_freeq (hq ▸ List.mem_cons_self) hk, rfl⟩, hy, Config.width_pos h.config,
        fun hidx => absurd rfl hidx⟩
  · refine h.handlesOk_of_move rfl howned (State.owned_of_owning (.inl rfl)) fun j _ => ?_
    simp [hq, List.count_cons]
  · exact (State.positionOk_iff_of_retfree rfl).2
      ⟨hx, ⟨k, h.mem_pool_of_mem_freeq (hq ▸ List.mem_cons_self) hk, rfl⟩, hy⟩
  · refine h.handlesOk_of_move rfl howned (State.owned_of_owning (.inr (.inl rfl))) fun j _ => ?_
    simp [hq, List.count_cons]

/-- The end of a column of FILL: the next column, or EMITA with the same buffer (R186 to R188). -/
theorem State.fillColumn_keeps_inv {tr : Triplet} (h : s.Inv) (hphase : s.sgphase = .fill)
    (he : s.fillColumn tr = .next t) : t.Inv := by
  have hsame := State.fillColumn_samePalette he
  have howned : s.owned = s.held := State.owned_of_owning (.inl hphase)
  obtain ⟨-, -, hy, -, -⟩ := (State.positionOk_iff_of_fill hphase).1 h.position
  obtain ⟨k, hheld, hpool, hx, rfl⟩ := State.fillColumn_next he
  refine h.of_samePalette hsame (State.columnWrite_buf_wf k s.x tr h.memory.buf) (h.line.of_eq rfl rfl rfl) ?_ ?_ h.queues
  all_goals by_cases hlast : s.x + 1 = s.cfg.activeWidth
  · exact (State.positionOk_iff_of_emitted (.inl (if_pos hlast))).2 ⟨hx, k, hheld, .inl hpool⟩
  · exact (State.positionOk_iff_of_fill ((if_neg hlast).trans hphase)).2
      ⟨hx, ⟨k, hpool, hheld⟩, hy, Nat.lt_of_le_of_ne hx hlast, fun hidx => absurd rfl hidx⟩
  · exact h.handlesOk_of_move rfl howned (State.owned_of_owning (.inr (.inr (if_pos hlast)))) fun _ _ => rfl
  · exact h.handlesOk_of_move rfl howned (State.owned_of_owning (.inl ((if_neg hlast).trans hphase))) fun _ _ => rfl

/-- A sub-step of FILL before the last: only the registers of R31 change, and the column is one of the canvas's. -/
theorem State.Inv.of_fill_substep (h : s.Inv) (hphase : s.sgphase = .fill) (hcol : s.x < s.cfg.canvasWidth)
    {i : PalIndex} {r g : Symbol} {f : FillSub} :
    State.Inv { s with idxreg := i, rsym := r, gsym := g, fsub := f } := by
  have hsame : SamePalette s { s with idxreg := i, rsym := r, gsym := g, fsub := f } := by constructor <;> rfl
  obtain ⟨hle, hheld, hy, hx, -⟩ := (State.positionOk_iff_of_fill hphase).1 h.position
  refine h.of_samePalette hsame h.memory.buf (h.line.of_eq rfl rfl rfl) ?_ h.handles h.queues
  exact (State.positionOk_iff_of_fill (by exact hphase)).2 ⟨hle, hheld, hy, hx, fun _ => hcol⟩

theorem execFill_keeps_inv (h : s.Inv) (hphase : s.sgphase = .fill) (he : execFill s = .next t) : t.Inv := by
  obtain ⟨-, -, -, -, hcol⟩ := (State.positionOk_iff_of_fill hphase).1 h.position
  obtain ⟨-, hx, -, rfl⟩ | ⟨-, -, hpad⟩ | ⟨hred, rfl⟩ | ⟨hgrn, rfl⟩ | ⟨-, hblu⟩ := execFill_next he
  · exact h.of_fill_substep hphase hx
  · exact State.fillColumn_keeps_inv h hphase hpad
  · exact h.of_fill_substep hphase (hcol (by rw [hred]; decide))
  · exact h.of_fill_substep hphase (hcol (by rw [hgrn]; decide))
  · exact State.fillColumn_keeps_inv h hphase hblu

/-- The buffer goes back to the free queue and the blank handle takes its place in `HELD` (R190). -/
theorem execRetfree_keeps_inv (h : s.Inv) (hphase : s.sgphase = .retfree) (he : execRetfree s = .next t) : t.Inv := by
  have hsame := execRetfree_samePalette he
  obtain ⟨hx, -, -⟩ := (State.positionOk_iff_of_retfree hphase).1 h.position
  obtain ⟨-, rfl⟩ | ⟨hroom, k, hheld, rfl⟩ := execRetfree_next he
  · exact h
  · refine h.of_samePalette hsame h.memory.buf (h.line.of_eq rfl rfl rfl) ?_ ?_ ⟨by simpa using hroom, h.queues.2⟩
    · exact (State.positionOk_iff_of_emitted (.inl rfl)).2 ⟨hx, _, rfl, .inr rfl⟩
    · have howned : s.owned = some k := (State.owned_of_owning (.inr (.inl hphase))).trans hheld
      refine h.handlesOk_of_move rfl howned (State.owned_of_owning (.inr (.inr rfl))) fun j hj => ?_
      simp [List.count_cons, hj.symm]

/-- A handle `k` pushed to the ready queue by EMITA or EMITB: the phase reached has the line of `HELD`, and `k` was the sequencer's or
the blank one (R210, R211). -/
theorem State.Inv.of_emission (h : s.Inv) {k : Handle} {p : Phase} {o o' : Option Handle}
    (ht : t = { s with readyq := s.readyq ++ [k], sgphase := p }) (hroom : s.readyq.length < s.cfg.qrCap)
    (hposition : t.PositionOk) (howned : s.owned = o) (howned' : t.owned = o')
    (hmove : ∀ j, j ≠ s.cfg.blankHandle → o'.toList.count j + [k].count j = o.toList.count j) : t.Inv := by
  subst ht
  have hsame : SamePalette s { s with readyq := s.readyq ++ [k], sgphase := p } := by constructor <;> rfl
  refine h.of_samePalette hsame h.memory.buf (h.line.of_eq rfl rfl rfl) hposition ?_
    ⟨h.queues.1, by simpa using hroom⟩
  refine h.handlesOk_of_move rfl howned howned' fun j hj => ?_
  have := hmove j hj
  simp only [List.count_append]
  omega

theorem execEmita_keeps_inv (h : s.Inv) (hphase : s.sgphase = .emita) (he : execEmita s = .next t) : t.Inv := by
  obtain ⟨hx, hline⟩ := (State.positionOk_iff_of_emitted (.inl hphase)).1 h.position
  have howned : s.owned = s.held := State.owned_of_owning (.inr (.inr hphase))
  obtain ⟨-, rfl⟩ | ⟨hroom, ⟨-, k, hheld, rfl⟩ | ⟨hi, heven, k, hheld, rfl⟩ | ⟨hi, hodd, rfl⟩⟩ := execEmita_next he
  · exact h
  · refine h.of_emission rfl hroom ((State.positionOk_iff_of_emitted (.inr rfl)).2 ⟨hx, hline⟩) (howned.trans hheld)
      (State.owned_of_adv rfl) fun j _ => ?_
    simp
  · refine h.of_emission rfl hroom ((State.positionOk_iff_of_emitb rfl).2 ⟨hx, hi, hline⟩) (howned.trans hheld)
      ((State.owned_of_emitb rfl).trans (if_neg (by simp [heven]))) fun j _ => ?_
    simp
  · refine h.of_emission rfl hroom ((State.positionOk_iff_of_emitb rfl).2 ⟨hx, hi, hline⟩) howned
      ((State.owned_of_emitb rfl).trans (if_pos hodd)) fun j hj => ?_
    simp [hj.symm]

theorem execEmitb_keeps_inv (h : s.Inv) (hphase : s.sgphase = .emitb) (he : execEmitb s = .next t) : t.Inv := by
  obtain ⟨hx, -, hline⟩ := (State.positionOk_iff_of_emitb hphase).1 h.position
  have howned := State.owned_of_emitb hphase
  obtain ⟨-, rfl⟩ | ⟨hroom, ⟨heven, rfl⟩ | ⟨hodd, k, hheld, rfl⟩⟩ := execEmitb_next he
  · exact h
  · refine h.of_emission rfl hroom ((State.positionOk_iff_of_emitted (.inr rfl)).2 ⟨hx, hline⟩)
      (howned.trans (if_neg (by simp [heven]))) (State.owned_of_adv rfl) fun j hj => ?_
    simp [hj.symm]
  · refine h.of_emission rfl hroom ((State.positionOk_iff_of_emitted (.inr rfl)).2 ⟨hx, hline⟩)
      ((howned.trans (if_pos hodd)).trans hheld) (State.owned_of_adv rfl) fun j _ => ?_
    simp

/-- The line advances within its field or to the other field's first line (R212 to R215). -/
theorem execAdv_keeps_inv (h : s.Inv) (hphase : s.sgphase = .adv) (he : execAdv s = .next t) : t.Inv := by
  have hsame : SamePalette s t := exec_phase_samePalette .adv he
  obtain ⟨hx, -⟩ := (State.positionOk_iff_of_emitted (.inr hphase)).1 h.position
  obtain ⟨hrange, hparity, heven⟩ := nextLine_ok h
  have hy : (BitVec.ofNat 15 (nextLine s.cfg s.y.toNat s.field).1).toNat = (nextLine s.cfg s.y.toNat s.field).1 := by
    have := Config.lines_le h.config
    rw [BitVec.toNat_ofNat, Nat.mod_eq_of_lt (by omega)]
  obtain rfl := execAdv_next he
  refine h.of_samePalette hsame h.memory.buf ?_ ?_ ?_ h.queues
  · exact ⟨hy.symm ▸ hrange, hy.symm ▸ hparity, heven⟩
  · exact (State.positionOk_iff_of_unheld rfl).2 ⟨hx, rfl⟩
  · exact h.handlesOk_of_move rfl (State.owned_of_adv hphase) (State.owned_of_unheld rfl) fun _ _ => rfl

/-- The sequencer's step keeps the invariant, whatever its phase. -/
theorem exec_phase_keeps_inv (h : s.Inv) (he : exec s.sgphase.instr s = .next t) : t.Inv := by
  cases hphase : s.sgphase <;> rw [hphase] at he
  case idle => cases he; exact h
  case poll => exact execPoll_keeps_inv h hphase he
  case waitfree => exact execWaitfree_keeps_inv h hphase he
  case fill => exact execFill_keeps_inv h hphase he
  case retfree => exact execRetfree_keeps_inv h hphase he
  case emita => exact execEmita_keeps_inv h hphase he
  case emitb => exact execEmitb_keeps_inv h hphase he
  case adv => exact execAdv_keeps_inv h hphase he
  case halt => cases he; exact h

/-! ### Every command keeps the invariant -/

theorem State.dueTriplet_of_lt {i : PalIndex} (hi : i.toNat < s.count.toNat) :
    s.dueTriplet i = encodeTriplet s.cfg.tmdsLut (palGet s.color i) s.inverted := if_pos hi

theorem State.dueTriplet_of_ge {i : PalIndex} (hi : ¬ i.toNat < s.count.toNat) : s.dueTriplet i = ⟨0, 0, 0⟩ := if_neg hi

/-- With no command in progress every slot has the triplet R22 gives it. -/
theorem State.TripletsOk.triplet_eq_due (h : s.TripletsOk) (hc : s.cmd = none) {i : PalIndex}
    (hi : ¬ (s.cfg.psCountSaturates = true ∧ i = 255)) : s.triplet i = s.dueTriplet i := by
  have := h.due i hi
  rwa [State.pending_of_none s hc, State.putAll_nil] at this

/-- The triplets are in order when the pending writes give the entries of a list of different indices what they are due, and the other
entries have it. -/
theorem State.TripletsOk.of_pending {l : List PalIndex} {g : PalIndex → Triplet}
    (hw : t.pending = l.flatMap fun i => tripletWrites i (g i)) (hl : l.Nodup)
    (hdue : ∀ i, ¬ (t.cfg.psCountSaturates = true ∧ i = 255) → (if i ∈ l then g i else t.triplet i) = t.dueTriplet i) :
    t.TripletsOk where
  due i hi := by rw [hw, State.triplet_putAll t l g hl, hdue i hi]
  apart := by rw [hw]; exact tripletWrites_targets_nodup l g hl

/-- The palette's two parts of the invariant. -/
def State.PaletteInv (s : State) : Prop := s.PaletteOk ∧ s.TripletsOk

theorem State.PaletteInv.of_eq (h : s.PaletteInv) (h1 : t.cfg = s.cfg) (h2 : t.color = s.color) (h3 : t.count = s.count)
    (h4 : t.inverted = s.inverted) (h5 : t.rtmds = s.rtmds) (h6 : t.gtmds = s.gtmds) (h7 : t.btmds = s.btmds)
    (h8 : t.pending = s.pending) : t.PaletteInv :=
  ⟨h.1.of_eq h1 h2 h3, h.2.of_eq h1 h2 h3 h4 h5 h6 h7 h8⟩

theorem State.PaletteInv.respond (h : s.PaletteInv) (w : Word) : (s.respond w).PaletteInv :=
  h.of_eq rfl rfl rfl rfl rfl rfl rfl rfl

section Store

variable {i : PalIndex} {c : Colour} {n : BitVec 9} {w : Word}

/-- A new colour stored in entry `i`, the other entries in use staying in use, keeps the standard colours and keeps the colours
distinct (R132, R134). -/
theorem State.PaletteOk.storeEntry (h : s.PaletteOk) (habsent : s.Absent c) (hi : 16 ≤ i.toNat)
    (hmin : 16 ≤ n.toNat) (hmax : n.toNat ≤ 256)
    (hn : ∀ j : PalIndex, j ≠ i → (j.toNat < n.toNat ↔ j.toNat < s.count.toNat)) :
    (s.storeEntry i c n w).PaletteOk where
  atLeast := hmin
  atMost := hmax
  standard j := by
    have hj : i ≠ BitVec.ofNat 8 j.val := by
      rintro rfl
      rw [BitVec.toNat_ofNat] at hi
      omega
    simp only [storeEntry_color, storeEntry_cfg, palGet_palSet_other _ _ hj]
    exact h.standard j
  distinct := by
    rw [State.inUse_nodup_iff]
    intro a b ha hb hab
    simp only [storeEntry_color, storeEntry_count] at ha hb hab
    by_cases hai : a = i <;> by_cases hbi : b = i
    · rw [hai, hbi]
    · rw [hai, palGet_palSet_same, palGet_palSet_other _ _ (Ne.symm hbi)] at hab
      exact absurd hab.symm (habsent b ((hn b hbi).1 hb))
    · rw [hbi, palGet_palSet_same, palGet_palSet_other _ _ (Ne.symm hai)] at hab
      exact absurd hab (habsent a ((hn a hai).1 ha))
    · rw [palGet_palSet_other _ _ (Ne.symm hai), palGet_palSet_other _ _ (Ne.symm hbi)] at hab
      exact State.inUse_nodup_iff.1 h.distinct a b ((hn a hai).1 ha) ((hn b hbi).1 hb) hab

theorem State.TripletsOk.storeEntry (h : s.TripletsOk) (hc : s.cmd = none)
    (hi : ¬ (s.cfg.psCountSaturates = true ∧ i = 255) → i.toNat < n.toNat)
    (hn : ∀ j : PalIndex, j ≠ i → (j.toNat < n.toNat ↔ j.toNat < s.count.toNat)) :
    (s.storeEntry i c n w).TripletsOk := by
  refine .of_pending (l := [i]) (g := fun _ => encodeTriplet s.cfg.tmdsLut c s.inverted) rfl (List.nodup_singleton i) ?_
  intro j hj
  by_cases hji : j = i
  · subst hji
    rw [if_pos (List.mem_singleton_self j), State.dueTriplet_of_lt (hi hj), storeEntry_color, palGet_palSet_same]
    rfl
  · have hdue : (s.storeEntry i c n w).dueTriplet j = s.dueTriplet j := by
      simp only [State.dueTriplet, storeEntry_count, storeEntry_color, storeEntry_cfg, storeEntry_inverted, hn j hji,
        palGet_palSet_other _ _ (Ne.symm hji)]
    rw [if_neg (by simpa using hji), hdue]
    exact h.triplet_eq_due hc hj

end Store

theorem State.count_succ_toNat (hroom : s.count.toNat < 255) : (s.count + 1).toNat = s.count.toNat + 1 :=
  BitVec.toNat_add_of_lt (by simp; omega)

/-- The entry appended by COL2IDX is the first not in use (R132). -/
theorem State.PaletteInv.append (h : s.PaletteInv) (hc : s.cmd = none) {c : Colour} {w : Word} (habsent : s.Absent c)
    (hroom : s.count.toNat < 255) : (s.storeEntry (s.count.setWidth 8) c (s.count + 1) w).PaletteInv := by
  obtain ⟨hpalette, htriplets⟩ := h
  have hmin := hpalette.atLeast
  have hi : (s.count.setWidth 8 : PalIndex).toNat = s.count.toNat := by
    rw [BitVec.toNat_setWidth, Nat.mod_eq_of_lt (by omega)]
  have hcount := State.count_succ_toNat hroom
  have hn (j : PalIndex) (hj : j ≠ s.count.setWidth 8) : j.toNat < (s.count + 1).toNat ↔ j.toNat < s.count.toNat := by
    have : j.toNat ≠ s.count.toNat := fun he => hj (BitVec.eq_of_toNat_eq (he.trans hi.symm))
    omega
  exact ⟨hpalette.storeEntry habsent (by omega) (by omega) (by omega) hn,
    htriplets.storeEntry hc (fun _ => by omega) hn⟩

theorem State.countAfterOverwrite_toNat (hmax : s.count.toNat ≤ 256) :
    s.count.toNat ≤ s.countAfterOverwrite.toNat ∧ s.countAfterOverwrite.toNat ≤ 256 ∧
      (s.cfg.psCountSaturates = false → s.countAfterOverwrite.toNat = 256) := by
  unfold State.countAfterOverwrite
  cases s.cfg.psCountSaturates <;> simp <;> omega

/-- The last-slot overwrite of COL2IDX (R134), in both readings of D9. -/
theorem State.PaletteInv.overwrite (h : s.PaletteInv) (hc : s.cmd = none) {c : Colour} {w : Word} (habsent : s.Absent c)
    (hfull : 255 ≤ s.count.toNat) : (s.storeEntry 255 c s.countAfterOverwrite w).PaletteInv := by
  obtain ⟨hpalette, htriplets⟩ := h
  obtain ⟨hle, hmax, hset⟩ := State.countAfterOverwrite_toNat hpalette.atMost
  have h255 : (255 : PalIndex).toNat = 255 := rfl
  have hn (j : PalIndex) (hj : j ≠ 255) : j.toNat < s.countAfterOverwrite.toNat ↔ j.toNat < s.count.toNat := by
    have : j.toNat ≠ 255 := fun he => hj (BitVec.eq_of_toNat_eq he)
    omega
  refine ⟨hpalette.storeEntry habsent (by omega) (by omega) hmax hn, htriplets.storeEntry hc (fun hsat => ?_) hn⟩
  rw [hset (by simpa using hsat)]
  decide

theorem execCol2idx_keeps_palette {c : Colour} (h : s.PaletteInv) (hc : s.cmd = none)
    (he : execCol2idx c s = .next t) : t.PaletteInv := by
  obtain ⟨i, -, rfl⟩ | ⟨hexact, hroom, rfl⟩ | ⟨-, -, i, -, rfl⟩ | ⟨hexact, hfull, -, rfl⟩ := execCol2idx_next he
  · exact h.respond _
  · exact h.append hc ((s.exactMatch_none c).1 hexact) hroom
  · exact h.respond _
  · exact h.overwrite hc ((s.exactMatch_none c).1 hexact) hfull

/-- PALRESET leaves the writes of every entry's reset triplet pending (R136). -/
theorem execPalreset_keeps_palette (hw : s.cfg.wf = true) (he : execPalreset s = .next t) : t.PaletteInv := by
  cases he
  refine ⟨.of_reset s.cfg hw rfl rfl rfl, .of_pending (resetWrites_eq s.cfg) (firstIndices_nodup le_rfl) ?_⟩
  intro i _
  rw [if_pos ((mem_firstIndices le_rfl i).2 i.isLt)]
  symm
  exact State.dueTriplet_of_reset s.cfg i rfl rfl rfl rfl

/-- INVERT leaves the writes of every triplet in use pending; the others are due three times 0x000 under either flag (R139). -/
theorem execInvert_keeps_palette {f : Bool} (h : s.PaletteInv) (hc : s.cmd = none) (he : execInvert f s = .next t) :
    t.PaletteInv := by
  obtain ⟨-, rfl⟩ | ⟨-, rfl⟩ := execInvert_next he
  · exact h.respond _
  obtain ⟨hpalette, htriplets⟩ := h
  have hmin : min s.count.toNat 256 = s.count.toNat := Nat.min_eq_left hpalette.atMost
  have hmem (i : PalIndex) : i ∈ firstIndices (min s.count.toNat 256) ↔ i.toNat < s.count.toNat := by
    rw [hmin]; exact mem_firstIndices hpalette.atMost i
  refine ⟨hpalette.of_eq rfl rfl rfl,
    .of_pending (s.invertWrites_eq f) (firstIndices_nodup (Nat.min_le_right _ _)) fun i hi => ?_⟩
  by_cases huse : i.toNat < s.count.toNat
  · rw [if_pos ((hmem i).2 huse)]
    symm
    exact State.dueTriplet_of_lt huse
  · have hzero : s.triplet i = ⟨0, 0, 0⟩ := (htriplets.triplet_eq_due hc hi).trans (State.dueTriplet_of_ge huse)
    rw [if_neg (mt (hmem i).1 huse)]
    refine Eq.trans hzero ?_
    symm
    exact State.dueTriplet_of_ge huse

theorem exec_command_keeps_palette {i : Instr} {w : Word} (h : s.PaletteInv) (hw : s.cfg.wf = true) (hc : s.cmd = none)
    (hi : encode i = .command w) (he : exec i s = .next t) : t.PaletteInv := by
  cases i with
  | col2idx c => exact execCol2idx_keeps_palette h hc he
  | palreset => exact execPalreset_keeps_palette hw he
  | invert f => exact execInvert_keeps_palette h hc he
  | idx2col | sgstart | sgstop | rdstat => cases he; exact h.of_eq rfl rfl rfl rfl rfl rfl rfl rfl
  | idle | poll | waitfree | fill | retfree | emita | emitb | adv | halt => cases hi

theorem exec_command_keeps_inv {i : Instr} {w : Word} (h : s.Inv) (hc : s.cmd = none) (hi : encode i = .command w)
    (he : exec i s = .next t) : t.Inv := by
  obtain ⟨hpalette, htriplets⟩ := exec_command_keeps_palette ⟨h.palette, h.triplets⟩ h.config hc hi he
  exact h.of_sameGenerator (exec_command_sameGenerator hi he) (exec_command_sgphase hi he) hpalette htriplets

/-! ### Every turn keeps the invariant -/

theorem hostTurn_keeps_inv {w : Word} (h : s.Inv) (he : hostTurn w s = .next t) : t.Inv := by
  obtain ⟨hc, ⟨i, hdecode, hexec⟩ | ⟨r, -, rfl⟩⟩ := hostTurn_next he
  · obtain ⟨w', hi⟩ := encode_of_decode hdecode
    exact exec_command_keeps_inv h hc hi hexec
  · obtain ⟨hpalette, htriplets⟩ := State.PaletteInv.respond ⟨h.palette, h.triplets⟩ errResponse
    exact h.of_sameGenerator (.refuseCommand s) (.inl rfl) hpalette htriplets

theorem State.triplet_congr {i : PalIndex} (h : ∀ ch, palGet (s.symbols ch) i = palGet (t.symbols ch) i) :
    s.triplet i = t.triplet i := by rw [s.triplet_eq, t.triplet_eq, h, h, h]

theorem State.agentStep_color (s : State) (k : Nat) : (s.agentStep k).color = s.color := by
  rcases State.agentStep_cases s k with hs | ⟨w, hc, hs⟩ | ⟨ws, w, e, hc, hk, hs⟩ <;> rw [hs]
  · rfl
  · exact s.putSym_color e

/-- A pending write made leaves the others pending, and what is due with all made is as before (R71). -/
theorem State.TripletsOk.agentStep (h : s.TripletsOk) (k : Nat) : (s.agentStep k).TripletsOk := by
  rcases State.agentStep_cases s k with hs | ⟨w, hc, hs⟩ | ⟨ws, w, e, hc, hk, hs⟩ <;> rw [hs]
  · exact h
  · exact h.of_eq rfl rfl rfl rfl rfl rfl rfl (State.pending_of_some s hc).symm
  · have hpending : s.pending = ws := State.pending_of_some s hc
    have hapart := h.apart
    rw [hpending] at hapart
    refine ⟨fun i hi => ?_, hapart.sublist ((List.eraseIdx_sublist ws k).map _)⟩
    have hdue := h.due i (by simpa using hi)
    rw [hpending] at hdue
    have hcmd := State.putAll_congr (ws.eraseIdx k) (a := { s.putSym e with cmd := some ⟨ws.eraseIdx k, w⟩ })
      (b := s.putSym e) fun _ => rfl
    calc _ = (s.putAll ws).triplet i := State.triplet_congr fun ch => by
            rw [← State.putAll_eraseIdx s ws k e hk hapart ch i, ← hcmd ch]; rfl
      _ = s.dueTriplet i := hdue
      _ = _ := by simp [State.dueTriplet]

theorem State.Inv.agentStep (h : s.Inv) (k : Nat) : (s.agentStep k).Inv := by
  obtain ⟨hphase, -, hcount, -, hcfg⟩ := State.agentStep_frame (s := s) k
  exact h.of_sameGenerator (s.agentStep_generator k) (.inl hphase)
    (h.palette.of_eq hcfg (s.agentStep_color k) hcount) (h.triplets.agentStep k)

/-- The transport's moves of handles keep the invariant (R272, R273). -/
theorem State.Inv.of_transport {free ready x : List Handle} (h : s.Inv)
    (hmove : ∀ k, free.count k + ready.count k + x.count k = s.freeq.count k + s.readyq.count k + s.xheld.count k)
    (hqueues : free.length ≤ s.cfg.qfCap ∧ ready.length ≤ s.cfg.qrCap) :
    State.Inv { s with freeq := free, readyq := ready, xheld := x } where
  config := h.config
  memory := h.memory.of_eq rfl rfl rfl
  palette := h.palette.of_eq rfl rfl rfl
  triplets := h.triplets.of_eq rfl rfl rfl rfl rfl rfl rfl rfl
  line := h.line.of_eq rfl rfl rfl
  position := h.position
  blank := h.blank
  handles := by
    have howned : State.owned { s with freeq := free, readyq := ready, xheld := x } = s.owned := rfl
    refine h.handlesOk_of_move rfl rfl howned fun k _ => ?_
    have := hmove k
    simp only
    omega
  queues := hqueues

theorem popTurn_keeps_inv (h : s.Inv) (he : popTurn s = .next t) : t.Inv := by
  obtain ⟨-, rfl⟩ | ⟨k, q, hq, rfl⟩ := popTurn_next he
  · exact h
  · obtain ⟨hfree, hready⟩ := h.queues
    rw [hq, List.length_cons] at hready
    refine h.of_transport (fun j => ?_) ⟨hfree, Nat.le_of_succ_le hready⟩
    simp only [hq, List.count_append, List.count_cons, List.count_nil]
    omega

theorem pushTurn_keeps_inv {k : Handle} (h : s.Inv) (he : pushTurn k s = .next t) : t.Inv := by
  obtain ⟨hk, ⟨-, rfl⟩ | ⟨hroom, rfl⟩⟩ := pushTurn_next he
  · exact h
  · refine h.of_transport (fun j => ?_) ⟨by simpa using hroom, h.queues.2⟩
    have htaken := (List.perm_cons_erase hk).count_eq j
    simp only [List.count_append, List.count_cons, List.count_nil] at *
    omega

/-- The address of a canvas byte is below `CW * CH` (R63). -/
theorem canvasKey_lt {c : Config} {x y : Nat} (hx : x < c.canvasWidth) (hy : y < c.canvasHeight) :
    canvasKey c y x < c.canvasBytes := by
  calc y * c.canvasWidth + x < (y + 1) * c.canvasWidth := by rw [Nat.add_one_mul]; omega
    _ ≤ c.canvasHeight * c.canvasWidth := Nat.mul_le_mul_right _ hy
    _ = c.canvasBytes := Nat.mul_comm _ _

theorem drawTurn_keeps_inv {x y : Nat} {b : Byte} (h : s.Inv) (he : drawTurn x y b s = .next t) : t.Inv := by
  obtain ⟨hx, hy, rfl⟩ := drawTurn_next he
  have hinside : ∀ p ∈ (s.canvasWrite x y b).canvas, p.1 < s.cfg.canvasBytes := by
    intro p hp
    rcases Memory.mem_write hp with hp | rfl
    · exact h.memory.inside p hp
    · exact canvasKey_lt hx hy
  exact {
    config := h.config
    memory := ⟨Memory.wf_write _ _ h.memory.canvas, hinside, h.memory.buf⟩
    palette := h.palette.of_eq rfl rfl rfl
    triplets := h.triplets.of_eq rfl rfl rfl rfl rfl rfl rfl rfl
    line := h.line.of_eq rfl rfl rfl
    position := h.position
    blank := h.blank
    handles := h.handles
    queues := h.queues }

/-! ### RESET, and the invariant of 10_state.md -/

/-- The block's state as R294 sets it, with nothing in progress, meets the block's parts of the invariant. -/
theorem State.resetOf_inv {c : Config} (hc : c.wf = true) : (State.resetOf c).Inv where
  config := hc
  memory := ⟨Memory.wf_nil, by simp [State.resetOf], Memory.wf_nil⟩
  palette := .of_reset c hc rfl rfl rfl
  triplets := ⟨fun i _ => (State.dueTriplet_of_reset c i rfl rfl rfl rfl).symm, List.nodup_nil⟩
  line := ⟨Config.lines_pos hc, fun _ => rfl, fun _ => rfl⟩
  position := (State.positionOk_iff_of_unheld rfl).2 ⟨Nat.zero_le _, rfl⟩
  blank := rfl
  handles := (State.handlesOk_iff hc).2 fun k _ => by simp [State.resetOf, State.owned]
  queues := ⟨Nat.zero_le _, Nat.zero_le _⟩

/-- RESET keeps the memories and the queues, and the handle the sequencer owned goes back to the transport (R294,
notes/assumptions/16.md). -/
theorem State.Inv.applyReset (h : s.Inv) : s.applyReset.Inv :=
  have hreset := State.resetOf_inv h.config
  { config := h.config
    memory := h.memory.of_eq rfl rfl rfl
    palette := hreset.palette.of_eq rfl rfl rfl
    triplets := hreset.triplets.of_eq rfl rfl rfl rfl rfl rfl rfl rfl
    line := hreset.line.of_eq rfl rfl rfl
    position := hreset.position
    blank := rfl
    handles := by
      have howned : s.applyReset.owned = none := State.owned_of_unheld rfl
      refine h.handlesOk_of_move rfl rfl howned fun k hk => ?_
      have hkept : (s.owned.toList.filter (· != s.cfg.blankHandle)).count k = s.owned.toList.count k :=
        List.count_filter (by simpa using hk)
      simp only [State.applyReset, List.count_append, hkept, Option.toList_none, List.count_nil]
      omega
    queues := h.queues }

theorem resetTurn_keeps_inv (h : s.Inv) (he : resetTurn s = .next t) : t.Inv := by
  obtain ⟨-, rfl⟩ := resetTurn_next he
  exact h.applyReset

/-- Every party's turn keeps the invariant. -/
theorem act_keeps_inv {e : Event} (h : s.Inv) (he : act e s = .next t) : t.Inv := by
  cases e with
  | host w => exact hostTurn_keeps_inv h he
  | agent k => cases he; exact h.agentStep k
  | sg => exact exec_phase_keeps_inv h ((sgTurn_eq s).symm.trans he)
  | pop => exact popTurn_keeps_inv h he
  | push k => exact pushTurn_keeps_inv h he
  | draw x y b => exact drawTurn_keeps_inv h he
  | reset => exact resetTurn_keeps_inv h he

/-- The order of turns is no part of the invariant. -/
theorem State.Inv.dropEvent (h : s.Inv) : s.dropEvent.Inv where
  config := h.config
  memory := h.memory.of_eq rfl rfl rfl
  palette := h.palette.of_eq rfl rfl rfl
  triplets := h.triplets.of_eq rfl rfl rfl rfl rfl rfl rfl rfl
  line := h.line.of_eq rfl rfl rfl
  position := h.position
  blank := h.blank
  handles := h.handles
  queues := h.queues

/-- Settles O3: a step is a party's turn on the state without that turn. The phases keep the palette's parts and move handles; the
commands keep the generator's parts and leave the triplets that are due pending. -/
theorem stepKeepsInvariant : Obligations.StepKeepsInvariant := by
  intro s t h he
  obtain ⟨-, hact⟩ := step_next he
  exact act_keeps_inv h.dropEvent hact

/-- Settles O2: `State.resetOf_inv`, and the configuration of the machine after reset passes its checks. -/
theorem invariantHoldsAtReset : Obligations.InvariantHoldsAtReset :=
  ⟨fun _ hc => State.resetOf_inv hc, State.resetOf_inv (by decide +kernel)⟩

/-! ### What changes EXIT, COUNT and BLANKBUF (R23, R33, R35) -/

/-- A turn is a command's, or RESET, or leaves `EXIT`, `COUNT` and `BLANKBUF` alone. -/
theorem act_cases {e : Event} (he : act e s = .next t) :
    (∃ w i, e = .host w ∧ decode (.command w) = .ok i ∧ exec i s = .next t) ∨
    (e = .reset ∧ t = s.applyReset) ∨
    (t.exit = s.exit ∧ t.count = s.count ∧ t.blankbuf = s.blankbuf) := by
  cases e with
  | host w =>
    obtain ⟨-, ⟨i, hdecode, hexec⟩ | ⟨r, -, rfl⟩⟩ := hostTurn_next he
    · exact .inl ⟨w, i, rfl, hdecode, hexec⟩
    · exact .inr (.inr ⟨rfl, rfl, rfl⟩)
  | agent k =>
    cases he
    obtain ⟨-, hexit, hcount, hblank, -⟩ := State.agentStep_frame (s := s) k
    exact .inr (.inr ⟨hexit, hcount, hblank⟩)
  | sg =>
    have hsame := exec_phase_samePalette s.sgphase ((sgTurn_eq s).symm.trans he)
    exact .inr (.inr ⟨hsame.exit, hsame.count, hsame.blankbuf⟩)
  | pop => obtain ⟨-, rfl⟩ | ⟨k, q, -, rfl⟩ := popTurn_next he <;> exact .inr (.inr ⟨rfl, rfl, rfl⟩)
  | push k => obtain ⟨-, ⟨-, rfl⟩ | ⟨-, rfl⟩⟩ := pushTurn_next he <;> exact .inr (.inr ⟨rfl, rfl, rfl⟩)
  | draw x y b =>
    obtain ⟨-, -, rfl⟩ := drawTurn_next he
    exact .inr (.inr ⟨rfl, rfl, rfl⟩)
  | reset => exact .inr (.inl ⟨rfl, (resetTurn_next he).2⟩)

/-- `act_cases` for a step; taking the turn off the agenda changes none of the three. -/
theorem step_cases (he : step s = .next t) :
    (∃ w i, s.nextEvent = .host w ∧ decode (.command w) = .ok i ∧ exec i s.dropEvent = .next t) ∨
    (s.nextEvent = .reset ∧ t = s.dropEvent.applyReset) ∨
    (t.exit = s.exit ∧ t.count = s.count ∧ t.blankbuf = s.blankbuf) :=
  act_cases (step_next he).2

theorem execCol2idx_exit {c : Colour} (he : execCol2idx c s = .next t) : t.exit = s.exit := by
  obtain ⟨i, -, rfl⟩ | ⟨-, -, rfl⟩ | ⟨-, -, i, -, rfl⟩ | ⟨-, -, -, rfl⟩ := execCol2idx_next he <;> rfl

theorem execInvert_exit {f : Bool} (he : execInvert f s = .next t) : t.exit = s.exit := by
  obtain ⟨-, rfl⟩ | ⟨-, rfl⟩ := execInvert_next he <;> rfl

/-- Of the commands only SGSTOP writes `EXIT`, and sets it (R231). -/
theorem exec_command_exit {i : Instr} {w : Word} (hi : encode i = .command w) (he : exec i s = .next t) :
    t.exit = s.exit ∨ (i = .sgstop ∧ t.exit = true) := by
  cases i with
  | col2idx c => exact .inl (execCol2idx_exit he)
  | invert f => exact .inl (execInvert_exit he)
  | sgstop => cases he; exact .inr ⟨rfl, rfl⟩
  | palreset | idx2col | sgstart | rdstat => cases he; exact .inl rfl
  | idle | poll | waitfree | fill | retfree | emita | emitb | adv | halt => cases hi

/-- Settles O47: RESET clears `EXIT`, SGSTOP sets it, every other turn keeps it. -/
theorem exitIsClearedOnlyByReset : Obligations.ExitIsClearedOnlyByReset := by
  intro s t he
  obtain ⟨w, i, hevent, hdecode, hexec⟩ | ⟨hevent, rfl⟩ | ⟨hkept, -, -⟩ := step_cases he
  · obtain ⟨w', hi⟩ := encode_of_decode hdecode
    obtain hkept | ⟨rfl, hset⟩ := exec_command_exit hi hexec
    · rw [hkept, State.dropEvent_exit]
      cases s.exit <;> simp
    · exact ⟨fun _ hclear => by simp [hset] at hclear, fun _ _ => ⟨w, hevent, hdecode⟩⟩
  · exact ⟨fun _ _ => hevent, fun _ hset => by simp [State.applyReset, State.resetOf] at hset⟩
  · rw [hkept]
    cases s.exit <;> simp

theorem execCol2idx_count_le {c : Colour} (hmax : s.count.toNat ≤ 256) (he : execCol2idx c s = .next t) :
    s.count.toNat ≤ t.count.toNat := by
  obtain ⟨i, -, rfl⟩ | ⟨-, hroom, rfl⟩ | ⟨-, -, i, -, rfl⟩ | ⟨-, -, -, rfl⟩ := execCol2idx_next he
  · exact le_rfl
  · rw [State.storeEntry_count, State.count_succ_toNat hroom]
    exact Nat.le_succ _
  · exact le_rfl
  · exact (State.countAfterOverwrite_toNat hmax).1

theorem execInvert_count {f : Bool} (he : execInvert f s = .next t) : t.count = s.count := by
  obtain ⟨-, rfl⟩ | ⟨-, rfl⟩ := execInvert_next he <;> rfl

/-- Of the commands only PALRESET lowers `COUNT`, and then to 16 (R136). -/
theorem exec_command_count {i : Instr} {w : Word} (hmax : s.count.toNat ≤ 256) (hi : encode i = .command w)
    (he : exec i s = .next t) : s.count.toNat ≤ t.count.toNat ∨ (i = .palreset ∧ t.count = 16) := by
  cases i with
  | col2idx c => exact .inl (execCol2idx_count_le hmax he)
  | palreset => cases he; exact .inr ⟨rfl, rfl⟩
  | invert f => exact .inl (by rw [execInvert_count he])
  | idx2col | sgstart | sgstop | rdstat => cases he; exact .inl le_rfl
  | idle | poll | waitfree | fill | retfree | emita | emitb | adv | halt => cases hi

/-- Settles O48: PALRESET and RESET set `COUNT` to 16; COL2IDX never lowers a `COUNT` of at most 256; every other turn keeps it. -/
theorem countFallsOnlyOnReset : Obligations.CountFallsOnlyOnReset := by
  intro s t h he hfall
  obtain ⟨w, i, hevent, hdecode, hexec⟩ | ⟨hevent, rfl⟩ | ⟨-, hkept, -⟩ := step_cases he
  · obtain ⟨w', hi⟩ := encode_of_decode hdecode
    obtain hle | ⟨rfl, h16⟩ := exec_command_count h.dropEvent.palette.atMost hi hexec
    · exact absurd hfall (Nat.not_lt.2 hle)
    · exact ⟨h16, .inr ⟨w, hevent, hdecode⟩⟩
  · exact ⟨rfl, .inl hevent⟩
  · rw [hkept] at hfall
    exact absurd hfall (Nat.lt_irrefl _)

/-! ### The Blank-Line Resource (R15, R35, R67) -/

/-- A slot of a packed word holds its symbol. -/
theorem packWord_extract_slot (f : Nat → Symbol) {n k : Nat} (hk : k < n) (hn : n ≤ 3) :
    (packWord f n).extractLsb' (10 * k) 10 = f k := by
  induction n with
  | zero => omega
  | succ n ih =>
    apply BitVec.eq_of_getLsbD_eq
    intro i hi
    have hbit : ((packWord f (n + 1)).extractLsb' (10 * k) 10).getLsbD i =
        ((packWord f n).getLsbD (10 * k + i) || (slotBits n (f n)).getLsbD (10 * k + i)) := by
      simp [packWord, hi]
    rw [hbit, slotBits_getLsbD]
    rcases Nat.lt_succ_iff_lt_or_eq.1 hk with hlow | rfl
    · rw [← ih hlow (by omega)]
      have : ¬ 10 * n ≤ 10 * k + i := by omega
      simp [hi, this]
    · rw [packWord_high f k _ (Nat.le_add_right _ _)]
      have : 10 * k + i < 32 := by omega
      simp [this]

theorem lutRead_zero (lut : Vector Symbol 64) : lutRead lut 0 = lut[0] := rfl

/-- Black is `TMDS_LUT[0]` in every channel (R15). -/
theorem encodeTriplet_black (lut : Vector Symbol 64) : encodeTriplet lut 0x0000 false = ⟨lut[0], lut[0], lut[0]⟩ := rfl

theorem step_keeps_blankbuf (he : step s = .next t) (hr : s.nextEvent ≠ .reset) : t.blankbuf = s.blankbuf := by
  obtain ⟨w, i, -, hdecode, hexec⟩ | ⟨hevent, -⟩ | ⟨-, -, hkept⟩ := step_cases he
  · obtain ⟨w', hi⟩ := encode_of_decode hdecode
    exact (exec_command_sameGenerator hi hexec).blankbuf
  · exact absurd hevent hr
  · exact hkept

/-- The transport reads black through the blank handle (R35, R273). -/
theorem State.Inv.transportRead_blank (h : s.Inv) {n : Nat} (hx : s.cfg.blankHandle ∈ s.xheld)
    (hn : n < s.cfg.bufWords) : s.transportRead s.cfg.blankHandle n = some s.cfg.blackWord := by
  simp [State.transportRead, hx, hn, h.blank]

/-- Settles O46: the invariant says what the words are, and only RESET, which sets them to the same, writes them. -/
theorem blankLineIsNeverWritten : Obligations.BlankLineIsNeverWritten := by
  refine ⟨fun c hc => ⟨encodeTriplet_black c.tmdsLut, fun k hk => ?_, fun i hi => ?_⟩, fun _ => rfl,
    fun _ _ he hr => step_keeps_blankbuf he hr, fun s t h he => ?_, fun _ _ h hx hn => h.transportRead_blank hx hn⟩
  · exact packWord_extract_slot _ hk (Config.spw_le hc)
  · exact packWord_high _ _ i hi
  · have hblank := (stepKeepsInvariant s t h he).blank
    rw [hblank]
    exact ⟨List.length_replicate, fun w hw => List.eq_of_mem_replicate hw⟩

end Sys2Proof.Machine
end

/-! ## Proofs about the memory and the atomic writes of 20_memory.md -/

section
namespace Sys2Proof.Machine

open Sys2Proof

variable {s t : State}

/-! ### The command agent's turn (R70, R71): an equation for each case -/

theorem State.agentStep_of_none (hc : s.cmd = none) (k : Nat) : s.agentStep k = s := by
  simp only [State.agentStep, hc]

theorem State.agentStep_of_done {w : Word} (hc : s.cmd = some ⟨[], w⟩) (k : Nat) :
    s.agentStep k = { s with cmd := none, rsp := s.rsp ++ [w] } := by
  simp only [State.agentStep, hc, State.respond]

theorem State.agentStep_of_named {ws : List ElemWrite} {w : Word} {e : ElemWrite} {k : Nat}
    (hc : s.cmd = some ⟨ws, w⟩) (hk : ws[k]? = some e) :
    s.agentStep k = { s.putSym e with cmd := some ⟨ws.eraseIdx k, w⟩ } := by
  cases ws with
  | nil => simp at hk
  | cons d ws => simp only [State.agentStep, hc, hk]

theorem State.agentStep_of_unnamed {ws : List ElemWrite} {w : Word} {k : Nat} (hc : s.cmd = some ⟨ws, w⟩)
    (hne : ws ≠ []) (hk : ws.length ≤ k) : s.agentStep k = s := by
  cases ws with
  | nil => exact absurd rfl hne
  | cons d ws => simp only [State.agentStep, hc, List.getElem?_eq_none hk]

/-- One element write changes the triplet arrays alone. -/
theorem State.putSym_frame (s : State) (e : ElemWrite) :
    s.putSym e =
      { s with rtmds := (s.putSym e).rtmds, gtmds := (s.putSym e).gtmds, btmds := (s.putSym e).btmds } :=
  s.putAll_frame [e]

theorem State.putSym_symbols_same (s : State) (e : ElemWrite) :
    palGet ((s.putSym e).symbols e.chan) e.index = e.value := by
  rw [State.putSym_symbols, if_pos (by rfl)]

theorem State.putSym_symbols_other (s : State) (e : ElemWrite) {ch : Channel} {j : PalIndex}
    (h : ¬ (ch = e.chan ∧ j = e.index)) : palGet ((s.putSym e).symbols ch) j = palGet (s.symbols ch) j := by
  rw [State.putSym_symbols, if_neg]
  intro htarget
  obtain ⟨rfl, rfl⟩ := Prod.mk.inj htarget
  exact h ⟨rfl, rfl⟩

/-- Settles O59: the step is the agent's turn, which has one equation for each of the four cases. -/
theorem agentTurnMakesOneWriteOrResponds : Obligations.AgentTurnMakesOneWriteOrResponds := by
  intro s k es hwf hagenda
  rw [step_agent hwf hagenda]
  refine ⟨fun ws w e hc hk => ?_, fun w hc => ?_, fun ws w hc hne hk => ?_, fun hc => ?_⟩
  · rw [State.agentStep_of_named (by exact hc) hk]
    refine ⟨_, rfl, ?_, State.putSym_symbols_same _ e, fun ch j hother => State.putSym_symbols_other _ e hother⟩
    rw [State.putSym_frame]
  · rw [State.agentStep_of_done (by exact hc)]
  · rw [State.agentStep_of_unnamed (by exact hc) hne hk]
  · rw [State.agentStep_of_none (by exact hc)]

/-! ### A command's end does not depend on the order of its writes (R71, R154) -/

/-- A command's end: the triplet arrays with all its writes made, no command, one more response. -/
theorem State.finish_eq {c : Command} (hc : s.cmd = some c) :
    s.finish =
      { s with
        rtmds := (s.putAll c.writes).rtmds
        gtmds := (s.putAll c.writes).gtmds
        btmds := (s.putAll c.writes).btmds
        cmd := none
        rsp := s.rsp ++ [c.response] } := by
  rw [State.finish_of_some s hc, State.putAll_frame]
  rfl

/-- Two commands with the same response end in the same state, up to the order of turns, when their writes leave the same triplet
arrays and the states agree on all that a command's end keeps. -/
theorem State.finish_congr {a b : State} {c d : Command} {es : List Event} (ha : a.cmd = some c) (hb : b.cmd = some d)
    (hw : c.response = d.response)
    (hframe : a = { b with rtmds := a.rtmds, gtmds := a.gtmds, btmds := a.btmds, cmd := a.cmd, agenda := es })
    (hsym : ∀ ch, (a.putAll c.writes).symbols ch = (b.putAll d.writes).symbols ch) :
    a.finish = { b.finish with agenda := es } := by
  have hred : (a.putAll c.writes).rtmds = (b.putAll d.writes).rtmds := hsym .red
  have hgreen : (a.putAll c.writes).gtmds = (b.putAll d.writes).gtmds := hsym .green
  have hblue : (a.putAll c.writes).btmds = (b.putAll d.writes).btmds := hsym .blue
  rw [State.finish_eq ha, State.finish_eq hb, hred, hgreen, hblue, hw, hframe]

/-- The order of turns is no part of how a command ends. -/
theorem State.finish_agenda (s : State) (es : List Event) :
    ({ s with agenda := es } : State).finish = { s.finish with agenda := es } := by
  obtain hc | ⟨c, hc⟩ := Option.eq_none_or_eq_some s.cmd
  · rw [State.finish_of_none s hc, State.finish_of_none _ (by exact hc)]
  · exact State.finish_congr hc hc rfl rfl (State.putAll_congr c.writes fun _ => rfl)

/-- The pending writes but one, made on triplet arrays that have that one, leave the arrays that all of them leave. -/
theorem State.putAll_eraseIdx_symbols {ws : List ElemWrite} {k : Nat} {e : ElemWrite} (hk : ws[k]? = some e)
    (hapart : (ws.map ElemWrite.target).Nodup) (ht : ∀ ch, t.symbols ch = (s.putSym e).symbols ch) (ch : Channel) :
    (t.putAll (ws.eraseIdx k)).symbols ch = (s.putAll ws).symbols ch := by
  apply palArray_ext
  intro i
  rw [State.putAll_congr _ ht, State.putAll_eraseIdx s ws k e hk hapart]

/-- A turn of the agent, whichever write it names, leaves the command's end as it was (R71). -/
theorem State.finish_agentStep (s : State) (k : Nat) (hapart : (s.pending.map ElemWrite.target).Nodup) :
    (s.agentStep k).finish = s.finish := by
  obtain hs | ⟨w, hc, hs⟩ | ⟨ws, w, e, hc, hk, hs⟩ := State.agentStep_cases s k <;> rw [hs]
  · rw [State.finish_of_none _ (by rfl), State.finish_of_some s hc]
    rfl
  · rw [State.pending_of_some s hc] at hapart
    refine (State.finish_congr (c := ⟨ws.eraseIdx k, w⟩) rfl hc rfl ?_ ?_).trans (s.finish_agenda s.agenda).symm
    · rw [State.putSym_frame]
    · exact State.putAll_eraseIdx_symbols hk hapart fun _ => rfl

theorem runSteps_succ {n : Nat} (h : step s = .next t) : runSteps (n + 1) s = runSteps n t := by
  simp only [runSteps, h]

/-- A step that is the agent's turn: the command's end stays, the named write is taken off, and with none left the command is over. -/
theorem step_agent_of_pending {k : Nat} {ws : List ElemWrite} {w : Word} {es : List Event} (hwf : s.cfg.wf = true)
    (hc : s.cmd = some ⟨ws, w⟩) (hapart : (ws.map ElemWrite.target).Nodup) (hagenda : s.agenda = .agent k :: es) :
    ∃ t, step s = .next t ∧ t.cfg = s.cfg ∧ t.agenda = es ∧ t.finish = { s.finish with agenda := es } ∧
      (ws = [] → t.cmd = none) ∧ (k < ws.length → t.cmd = some ⟨ws.eraseIdx k, w⟩) := by
  have hpending : ({ s with agenda := es } : State).pending = ws := State.pending_of_some s hc
  refine ⟨_, step_agent hwf hagenda, State.agentStep_cfg _ k, (State.agentStep_generator _ k).agenda, ?_, ?_, ?_⟩
  · rw [State.finish_agentStep _ k (by rwa [hpending]), State.finish_agenda]
  · rintro rfl
    rw [State.agentStep_of_done (by exact hc)]
  · intro hk
    rw [State.agentStep_of_named (by exact hc) (List.getElem?_eq_getElem hk)]

/-- One turn for each pending write, in the order the turns name, and one for the response lead to the command's end. -/
theorem runSteps_agent (ks : List Nat) {ws : List ElemWrite} {w : Word} {es : List Event} (hwf : s.cfg.wf = true)
    (hc : s.cmd = some ⟨ws, w⟩) (hapart : (ws.map ElemWrite.target).Nodup) (hlen : ks.length = ws.length + 1)
    (hnamed : ∀ i k, ks[i]? = some k → i < ws.length → k + i < ws.length)
    (hagenda : s.agenda = ks.map Event.agent ++ es) : runSteps ks.length s = .next { s.finish with agenda := es } := by
  induction ks generalizing s ws with
  | nil => simp at hlen
  | cons k ks ih =>
    obtain ⟨t, hstep, hcfg, hagenda', hfinish, hdone, hmade⟩ := step_agent_of_pending hwf hc hapart hagenda
    have hend : ({ s.finish with agenda := es } : State) = { t.finish with agenda := es } := by rw [hfinish]
    rw [List.length_cons, runSteps_succ hstep, hend]
    cases ws with
    | nil =>
      obtain rfl : ks = [] := by simpa using hlen
      obtain rfl : t.agenda = es := hagenda'
      rw [State.finish_of_none t (hdone rfl)]
      rfl
    | cons e ws =>
      have hk : k < (e :: ws).length := hnamed 0 k rfl (Nat.succ_pos _)
      have herase : ((e :: ws).eraseIdx k).length = ws.length := by simp [List.length_eraseIdx_of_lt hk]
      refine ih (by rwa [hcfg]) (hmade hk) (hapart.sublist ((List.eraseIdx_sublist _ k).map _)) ?_ ?_ hagenda'
      · rw [herase]
        exact Nat.succ.inj hlen
      · intro i j hj hi
        rw [herase] at hi ⊢
        have : j + (i + 1) < ws.length + 1 := hnamed (i + 1) j hj (Nat.succ_lt_succ hi)
        omega

/-- Settles O23: each turn keeps the command's end (`State.finish_agentStep`); the run follows by induction on the turns. -/
theorem writeOrderDoesNotMatter : Obligations.WriteOrderDoesNotMatter :=
  ⟨fun s k hapart => s.finish_agentStep k hapart,
    fun _ _ ks _ hwf hc hapart hlen hnamed hagenda => runSteps_agent ks hwf hc hapart hlen hnamed hagenda⟩

/-! ### What a command leaves alone (R73, R175, R230, R231) -/

theorem SameGenerator.trans {u : State} (h : SameGenerator s t) (h' : SameGenerator t u) : SameGenerator s u where
  cfg := h'.cfg.trans h.cfg
  blankbuf := h'.blankbuf.trans h.blankbuf
  y := h'.y.trans h.y
  x := h'.x.trans h.x
  fsub := h'.fsub.trans h.fsub
  idxreg := h'.idxreg.trans h.idxreg
  rsym := h'.rsym.trans h.rsym
  gsym := h'.gsym.trans h.gsym
  held := h'.held.trans h.held
  field := h'.field.trans h.field
  canvas := h'.canvas.trans h.canvas
  buf := h'.buf.trans h.buf
  freeq := h'.freeq.trans h.freeq
  readyq := h'.readyq.trans h.readyq
  xheld := h'.xheld.trans h.xheld
  filled := h'.filled.trans h.filled
  agenda := h'.agenda.trans h.agenda

theorem State.finish_sameGenerator (s : State) : SameGenerator s s.finish := by
  cases hc : s.cmd with
  | none => rw [State.finish_of_none s hc]; constructor <;> rfl
  | some c => rw [State.finish_eq hc]; constructor <;> rfl

theorem execCol2idx_symbols {c : Colour} (h : execCol2idx c s = .next t) (ch : Channel) : t.symbols ch = s.symbols ch := by
  obtain ⟨i, -, rfl⟩ | ⟨-, -, rfl⟩ | ⟨-, -, i, -, rfl⟩ | ⟨-, -, -, rfl⟩ := execCol2idx_next h <;> rfl

theorem execInvert_symbols {f : Bool} (h : execInvert f s = .next t) (ch : Channel) : t.symbols ch = s.symbols ch := by
  obtain ⟨-, rfl⟩ | ⟨-, rfl⟩ := execInvert_next h <;> rfl

/-- The accepting step of a command writes no triplet (notes/assumptions/11.md). -/
theorem exec_command_symbols {i : Instr} {w : Word} (hi : encode i = .command w) (h : exec i s = .next t)
    (ch : Channel) : t.symbols ch = s.symbols ch := by
  cases i with
  | col2idx c => exact execCol2idx_symbols h ch
  | invert f => exact execInvert_symbols h ch
  | palreset | idx2col | sgstart | sgstop | rdstat => cases h; rfl
  | idle | poll | waitfree | fill | retfree | emita | emitb | adv | halt => cases hi

theorem execInvert_color {f : Bool} (h : execInvert f s = .next t) : t.color = s.color := by
  obtain ⟨-, rfl⟩ | ⟨-, rfl⟩ := execInvert_next h <;> rfl

/-- Of the commands only COL2IDX and PALRESET write `COLOR` and `COUNT` (R132, R134, R136). -/
theorem exec_command_color_count {i : Instr} {w : Word} (hi : encode i = .command w) (hcol : ∀ c, i ≠ .col2idx c)
    (hreset : i ≠ .palreset) (h : exec i s = .next t) : t.color = s.color ∧ t.count = s.count := by
  cases i with
  | col2idx c => exact absurd rfl (hcol c)
  | palreset => exact absurd rfl hreset
  | invert f => exact ⟨execInvert_color h, execInvert_count h⟩
  | idx2col | sgstart | sgstop | rdstat => cases h; exact ⟨rfl, rfl⟩
  | idle | poll | waitfree | fill | retfree | emita | emitb | adv | halt => cases hi

/-- Of the commands only SGSTART writes `SGPHASE` (R230). -/
theorem exec_command_sgphase_of_ne_sgstart {i : Instr} {w : Word} (hi : encode i = .command w) (hstart : i ≠ .sgstart)
    (h : exec i s = .next t) : t.sgphase = s.sgphase := by
  cases i with
  | col2idx c => exact execCol2idx_sgphase h
  | invert f => exact execInvert_sgphase h
  | sgstart => exact absurd rfl hstart
  | palreset | idx2col | sgstop | rdstat => cases h; rfl
  | idle | poll | waitfree | fill | retfree | emita | emitb | adv | halt => cases hi

/-- Settles O24: the frame of the accepting step (`exec_command_sameGenerator`), that of the writes and the response
(`State.finish_sameGenerator`), and one lemma for each register a command may write. -/
theorem commandsLeaveTheGenerator : Obligations.CommandsLeaveTheGenerator := by
  intro s t i w hi h
  have haccept := exec_command_sameGenerator hi h
  have hsym := exec_command_symbols hi h
  refine ⟨haccept, haccept.trans t.finish_sameGenerator, fun hstart => exec_command_sgphase_of_ne_sgstart hi hstart h,
    fun hstop => ?_, hsym .red, hsym .green, hsym .blue, fun hcol hreset => exec_command_color_count hi hcol hreset h⟩
  obtain hkept | ⟨hsgstop, -⟩ := exec_command_exit hi h
  · exact hkept
  · exact absurd hsgstop hstop

/-! ### The bits of a slot write (R65, R66) -/

theorem setSlot_extract_slot (w : Word) {k : Nat} (v : Symbol) (hk : k < 3) :
    (setSlot w k v).extractLsb' (10 * k) 10 = v := by
  apply BitVec.eq_of_getLsbD_eq
  intro j hj
  have hin : 10 * k ≤ 10 * k + j ∧ 10 * k + j < 10 * k + 10 := by omega
  rw [BitVec.getLsbD_extractLsb', setSlot_getLsbD w k v _ (by omega), if_pos hin, Nat.add_sub_cancel_left]
  simp [hj]

theorem setSlot_getLsbD_outside (w : Word) {k i : Nat} (v : Symbol) (hi : i < 32) (hout : i < 10 * k ∨ 10 * k + 10 ≤ i) :
    (setSlot w k v).getLsbD i = if k = 0 then false else w.getLsbD i := by
  rw [setSlot_getLsbD w k v i hi, if_neg (by omega)]
  by_cases hk : k = 0 <;> simp [hk]

/-- Settles O35, from the bits of a word after a slot write (`setSlot_getLsbD`). -/
theorem slotWriteSetsTenBits : Obligations.SlotWriteSetsTenBits :=
  fun w _ v hk => ⟨setSlot_extract_slot w v hk, fun _ hi hout => setSlot_getLsbD_outside w v hi hout⟩

end Sys2Proof.Machine
end

/-! ## Proofs about the encodings of 30_encoding.md -/

section
namespace Sys2Proof

/-! ### Decoding what was encoded (R101, R102, R110) -/

/-- On an assembled command word the decoder looks at the operation and the operand only. -/
@[simp] theorem decode_commandWord (op : BitVec 8) (arg : BitVec 16) :
    decode (.command (commandWord op arg)) = decodeOp op arg := by
  simp [decode, decodeCommand]

theorem flag_high_bits (f : Bool) : ((BitVec.ofBool f).setWidth 16).extractLsb' 1 15 = 0 := by cases f <;> decide

theorem index_high_bits (i : PalIndex) : (i.setWidth 16).extractLsb' 8 8 = 0 := by
  apply BitVec.eq_of_toNat_eq
  simp [Nat.shiftRight_eq_div_pow]
  omega

theorem index_low_bits (i : PalIndex) : (i.setWidth 16).extractLsb' 0 8 = i := by
  apply BitVec.eq_of_toNat_eq
  simpa using i.isLt

theorem decode_encode (i : Instr) : decode (encode i) = .ok i := by
  cases i with
  | invert f => simp [encode, decodeOp, flag_high_bits]
  | idx2col i => simp [encode, decodeOp, index_high_bits, index_low_bits]
  | col2idx | palreset | sgstart | sgstop | rdstat => exact decode_commandWord _ _
  | idle | poll | waitfree | fill | retfree | emita | emitb | adv | halt => rfl

/-! ### Encoding what was decoded (R101, R102, R105, R110) -/

/-- A command word whose reserved field is zero is assembled from its other two fields. -/
theorem commandWord_fields {w : Word} (h : rsvField w = 0) : commandWord (opField w) (argField w) = w := by
  have hrsv : w.toNat >>> 16 % 2 ^ 8 = 0 := by simpa [rsvField] using congrArg BitVec.toNat h
  apply BitVec.eq_of_toNat_eq
  rw [commandWord_toNat, opField, argField, BitVec.extractLsb'_toNat, BitVec.extractLsb'_toNat]
  simp only [Nat.shiftRight_eq_div_pow] at hrsv ⊢
  omega

/-- An operand whose bits 15:1 are zero is its flag alone. -/
theorem operand_eq_flag {arg : BitVec 16} (h : arg.extractLsb' 1 15 = 0) :
    (BitVec.ofBool (arg.getLsbD 0)).setWidth 16 = arg := by
  have hhigh : arg.toNat / 2 % 2 ^ 15 = 0 := by
    simpa [Nat.shiftRight_eq_div_pow] using congrArg BitVec.toNat h
  have hbit : arg.toNat = 0 ∨ arg.toNat = 1 := by omega
  obtain hbit | hbit := hbit
  · obtain rfl : arg = 0 := BitVec.eq_of_toNat_eq hbit
    rfl
  · obtain rfl : arg = 1 := BitVec.eq_of_toNat_eq hbit
    rfl

/-- An operand whose bits 15:8 are zero is its index alone. -/
theorem operand_eq_index {arg : BitVec 16} (h : arg.extractLsb' 8 8 = 0) :
    (arg.extractLsb' 0 8).setWidth 16 = arg := by
  have hhigh : arg.toNat / 2 ^ 8 % 2 ^ 8 = 0 := by
    simpa [Nat.shiftRight_eq_div_pow] using congrArg BitVec.toNat h
  apply BitVec.eq_of_toNat_eq
  rw [BitVec.toNat_setWidth, BitVec.extractLsb'_toNat, Nat.shiftRight_zero]
  omega

theorem encode_of_noOperand {op : BitVec 8} {arg : BitVec 16} {i j : Instr}
    (hj : encode j = .command (commandWord op 0)) (h : noOperand arg j = .ok i) :
    encode i = .command (commandWord op arg) := by
  unfold noOperand at h
  split at h
  · rename_i harg
    cases h
    rw [harg, hj]
  · cases h

theorem encode_of_decodeOp {op : BitVec 8} {arg : BitVec 16} {i : Instr} (h : decodeOp op arg = .ok i) :
    encode i = .command (commandWord op arg) := by
  unfold decodeOp at h
  split_ifs at h with hop hop hop hflag hop hindex hop hop hop <;> rw [hop]
  · cases h
    rfl
  · exact encode_of_noOperand rfl h
  · cases h
    rw [encode, operand_eq_flag hflag]
  · cases h
    rw [encode, operand_eq_index hindex]
  · exact encode_of_noOperand rfl h
  · exact encode_of_noOperand rfl h
  · exact encode_of_noOperand rfl h

theorem encode_of_decodePhase {c : BitVec 4} {i : Instr} (h : decodePhase c = .ok i) : encode i = .phase c := by
  unfold decodePhase phaseOfCode at h
  split_ifs at h with hc hc hc hc hc hc hc hc hc <;> cases h <;> rw [hc] <;> rfl

theorem encode_of_decode_eq {c : Code} {i : Instr} (h : decode c = .ok i) : encode i = c := by
  cases c with
  | phase c => exact encode_of_decodePhase h
  | command w =>
    obtain hrsv | hrsv := eq_or_ne (rsvField w) 0
    · rw [← commandWord_fields hrsv] at h ⊢
      exact encode_of_decodeOp ((decode_commandWord _ _).symm.trans h)
    · rw [decode, decodeCommand, if_neg hrsv] at h
      cases h

theorem decode_eq_ok_iff {c : Code} {i : Instr} : decode c = .ok i ↔ encode i = c :=
  ⟨encode_of_decode_eq, fun h => h ▸ decode_encode i⟩

/-! ### The rows of R102: match, mask and operand bits -/

/-- A mask that clears the lowest `k` bits of a word rounds it down to a multiple of `2 ^ k`. -/
theorem and_high_mask {n k : Nat} (hk : k ≤ 32) (hn : n < 2 ^ 32) :
    n &&& (2 ^ 32 - 2 ^ k) = 2 ^ k * (n / 2 ^ k) := by
  have hmask : 2 ^ 32 - 2 ^ k = 2 ^ k * (2 ^ (32 - k) - 1) := by
    rw [Nat.mul_sub, ← Nat.pow_add, Nat.mul_one, Nat.add_sub_cancel' hk]
  apply Nat.eq_of_testBit_eq
  intro i
  rw [hmask, Nat.testBit_and, Nat.testBit_two_pow_mul, Nat.testBit_two_pow_mul, Nat.testBit_two_pow_sub_one,
    Nat.testBit_div_two_pow]
  by_cases hi : k ≤ i
  · by_cases h32 : i < 32
    · have hin : i - k < 32 - k := by omega
      simp [hi, hin]
    · have hout : n.testBit i = false :=
        Nat.testBit_lt_two_pow (hn.trans_le (Nat.pow_le_pow_right (by decide) (Nat.not_lt.1 h32)))
      simp [hi, hout]
  · simp [hi]

/-- A word has the match of a row whose operand is the lowest `k` bits exactly when it decodes to the row's command with those
bits. -/
theorem masked_eq_iff_decode {w mask value : Word} {i : Instr} {op : BitVec 8} {arg : BitVec 16} (k : Nat)
    (hi : encode i = .command (commandWord op arg)) (hk : k ≤ 32) (hmask : mask.toNat = 2 ^ 32 - 2 ^ k)
    (hvalue : value.toNat = op.toNat * 2 ^ 24) (harg : arg.toNat = w.toNat % 2 ^ k) :
    w &&& mask = value ↔ decode (.command w) = .ok i := by
  rw [decode_eq_ok_iff, hi, Code.command.injEq, ← BitVec.toNat_inj, ← BitVec.toNat_inj, BitVec.toNat_and, hmask,
    hvalue, and_high_mask hk w.isLt, commandWord_toNat, harg]
  have hsplit := Nat.div_add_mod w.toNat (2 ^ k)
  omega

theorem masked_eq_iff_decode_col2idx (w : Word) :
    w &&& 0xFFFF0000 = 0x01000000 ↔ decode (.command w) = .ok (.col2idx (w.extractLsb' 0 16)) :=
  masked_eq_iff_decode 16 rfl (by decide) rfl rfl (by simp)

theorem flag_toNat (w : Word) : ((BitVec.ofBool (w.getLsbD 0)).setWidth 16).toNat = w.toNat % 2 ^ 1 := by
  rw [BitVec.toNat_setWidth, BitVec.toNat_ofBool, BitVec.getLsbD, Nat.toNat_testBit]
  omega

theorem masked_eq_iff_decode_invert (w : Word) :
    w &&& 0xFFFFFFFE = 0x03000000 ↔ decode (.command w) = .ok (.invert (w.getLsbD 0)) :=
  masked_eq_iff_decode 1 rfl (by decide) rfl rfl (flag_toNat w)

theorem masked_eq_iff_decode_idx2col (w : Word) :
    w &&& 0xFFFFFF00 = 0x04000000 ↔ decode (.command w) = .ok (.idx2col (w.extractLsb' 0 8)) :=
  masked_eq_iff_decode 8 rfl (by decide) rfl rfl (by simp; omega)

/-- A row without operand fixes every bit of the word. -/
theorem masked_eq_iff_decode_of_noOperand {w value : Word} {i : Instr} {op : BitVec 8}
    (hi : encode i = .command (commandWord op 0)) (hvalue : value.toNat = op.toNat * 2 ^ 24) :
    w &&& 0xFFFFFFFF = value ↔ decode (.command w) = .ok i :=
  masked_eq_iff_decode 0 hi (by decide) rfl hvalue (by simp [Nat.mod_one])

theorem decode_error_iff {c : Code} : (∃ r, decode c = .error r) ↔ ∀ i, decode c ≠ .ok i := by
  cases decode c <;> simp

end Sys2Proof
end

section
namespace Sys2Proof.Machine

open Sys2Proof

variable {s t : State}

/-! ### The statements about encodings -/

/-- Settles O10: a command's word has its operation and operand as fields, and a phase its code. -/
theorem decodingAnEncodingGivesTheInstruction : Obligations.DecodingAnEncodingGivesTheInstruction :=
  decode_encode

/-- Settles O11: a decodable command word is assembled from its operation and its operand, of which the must-be-zero bits are
checked. -/
theorem decodableCodesAreEncodings : Obligations.DecodableCodesAreEncodings :=
  fun _ _ => encode_of_decode_eq

/-- Settles O9: a row's match gives its command (`masked_eq_iff_decode`), and what a word decodes to has its row's bits
(`Laws.TableWord`). -/
theorem commandsAreSelectedByMatchAndMask : Obligations.CommandsAreSelectedByMatchAndMask := by
  intro w
  refine ⟨masked_eq_iff_decode_col2idx w, masked_eq_iff_decode_of_noOperand rfl rfl, masked_eq_iff_decode_invert w,
    masked_eq_iff_decode_idx2col w, masked_eq_iff_decode_of_noOperand rfl rfl, masked_eq_iff_decode_of_noOperand rfl rfl,
    masked_eq_iff_decode_of_noOperand rfl rfl, ?_⟩
  rw [decode_error_iff]
  constructor
  · intro hnone
    exact ⟨fun h => hnone _ ((masked_eq_iff_decode_col2idx w).1 h), fun h => hnone .palreset (h ▸ rfl),
      fun h => hnone _ ((masked_eq_iff_decode_invert w).1 h), fun h => hnone _ ((masked_eq_iff_decode_idx2col w).1 h),
      fun h => hnone .sgstart (h ▸ rfl), fun h => hnone .sgstop (h ▸ rfl), fun h => hnone .rdstat (h ▸ rfl)⟩
  · rintro ⟨hcol2idx, hpalreset, hinvert, hidx2col, hsgstart, hsgstop, hrdstat⟩ i hdecode
    have hi := encode_of_decode_eq hdecode
    cases i with
    | col2idx c => cases hi; exact hcol2idx (BitVec.eq_of_toNat_eq (Laws.TableWord.col2idx c))
    | palreset => cases hi; exact hpalreset rfl
    | invert f => cases hi; exact hinvert (BitVec.eq_of_toNat_eq (Laws.TableWord.invert f))
    | idx2col j => cases hi; exact hidx2col (BitVec.eq_of_toNat_eq (Laws.TableWord.idx2col j))
    | sgstart => cases hi; exact hsgstart rfl
    | sgstop => cases hi; exact hsgstop rfl
    | rdstat => cases hi; exact hrdstat rfl
    | idle | poll | waitfree | fill | retfree | emita | emitb | adv | halt => cases hi

/-- Settles O12: each word is decoded. -/
theorem workedEncodingsDecode : Obligations.WorkedEncodingsDecode := by
  refine ⟨rfl, rfl, rfl, rfl, rfl, rfl, rfl, rfl, rfl, fun w hw => ?_⟩
  fin_cases hw <;> exact ⟨_, rfl⟩

/-! ### The turns that decode (R100, R110, R175) -/

theorem step_host {w : Word} {es : List Event} (hwf : s.cfg.wf = true) (hagenda : s.agenda = .host w :: es) :
    step s = hostTurn w { s with agenda := es } := by
  rw [step_of_wf hwf]
  simp only [State.nextEvent, State.dropEvent, hagenda, List.headD_cons, List.tail_cons, act]

theorem step_sg {es : List Event} (hwf : s.cfg.wf = true) (hagenda : s.agenda = .sg :: es) :
    step s = exec s.sgphase.instr { s with agenda := es } := by
  rw [step_of_wf hwf]
  simp only [State.nextEvent, State.dropEvent, hagenda, List.headD_cons, List.tail_cons, act, sgTurn_eq]

/-- With no turn named and no command in progress the sequencer takes its step (notes/assumptions/9.md). -/
theorem step_default_sg (hwf : s.cfg.wf = true) (hagenda : s.agenda = []) (hc : s.cmd = none) :
    step s = exec s.sgphase.instr s := by
  have hdrop : s.dropEvent = s := by rw [State.dropEvent, hagenda, List.tail_nil, ← hagenda]
  have hnext : s.nextEvent = .sg := by simp [State.nextEvent, State.defaultEvent, hagenda, hc]
  rw [step_of_wf hwf, hdrop, hnext, act, sgTurn_eq]

/-- Settles O6: the host's turn (`step_host`) runs what its word decodes to. -/
theorem hostTurnRunsTheDecodedCommand : Obligations.HostTurnRunsTheDecodedCommand := by
  intro s w es i hwf hc hagenda hdecode
  rw [step_host hwf hagenda, hostTurn_of_ok (by exact hc) hdecode]

/-- Settles O7: a phase's code decodes to its instruction (`decode_phase_code`). -/
theorem sequencerTurnRunsItsPhase : Obligations.SequencerTurnRunsItsPhase :=
  fun s hwf => ⟨s.sgphase.instr, decode_phase_code _, fun _ => step_sg hwf, step_default_sg hwf⟩

/-! ### The response of a command has `ERR = 0` (R103, R104, R232) -/

theorem indexResponse_err (i : PalIndex) (e : Bool) : (indexResponse i e).getLsbD 31 = false := by
  obtain ⟨-, -, hupper⟩ := indexResponse_fields i e
  have hbit : ((indexResponse i e).extractLsb' 9 23).getLsbD 22 = false := by rw [hupper]; rfl
  simpa using hbit

theorem colourResponse_err (c : Colour) : (colourResponse c).getLsbD 31 = false := by
  simp [colourResponse]

theorem statusResponse_err (s : State) : (statusResponse s).getLsbD 31 = false := by
  simp [statusResponse]

/-! ### What the accepting step of a command leaves to be done (R71, R100) -/

/-- `t` has the responses of `s` and then `v`, or has a command in progress that answers `v` after element writes to different
elements. -/
def Accepted (s t : State) (v : Word) : Prop :=
  (t.cmd = none ∧ t.rsp = s.rsp ++ [v]) ∨
    ∃ ws, t.cmd = some ⟨ws, v⟩ ∧ t.rsp = s.rsp ∧ (ws.map ElemWrite.target).Nodup

theorem Accepted.of_respond {u : State} {v : Word} (hc : u.cmd = none) (hrsp : u.rsp = s.rsp) :
    Accepted s (u.respond v) v :=
  .inl ⟨hc, by rw [State.respond_rsp, hrsp]⟩

theorem Accepted.of_startCommand {u : State} {ws : List ElemWrite} {v : Word} (hrsp : u.rsp = s.rsp)
    (hapart : (ws.map ElemWrite.target).Nodup) : Accepted s (u.startCommand ws v) v :=
  .inr ⟨ws, rfl, hrsp, hapart⟩

theorem Accepted.of_storeEntry (s : State) (i : PalIndex) (c : Colour) (n : BitVec 9) (v : Word) :
    Accepted s (s.storeEntry i c n v) v :=
  .of_startCommand rfl (tripletWrites_targets_nodup [i] (fun _ => encodeTriplet s.cfg.tmdsLut c s.inverted)
    (List.nodup_singleton i))

theorem resetWrites_targets_nodup (c : Config) : ((resetWrites c).map ElemWrite.target).Nodup := by
  rw [resetWrites_eq]
  exact tripletWrites_targets_nodup _ _ (firstIndices_nodup le_rfl)

theorem State.invertWrites_targets_nodup (s : State) (f : Bool) : ((s.invertWrites f).map ElemWrite.target).Nodup := by
  rw [State.invertWrites_eq]
  exact tripletWrites_targets_nodup _ _ (firstIndices_nodup (min_le_right _ _))

theorem execCol2idx_answers (c : Colour) (s : State) : ∃ t, execCol2idx c s = .next t := by
  unfold execCol2idx
  split
  · exact ⟨_, rfl⟩
  · split
    · exact ⟨_, rfl⟩
    · split <;> exact ⟨_, rfl⟩

theorem execCol2idx_accepted (c : Colour) (hc : s.cmd = none) :
    ∃ t v, execCol2idx c s = .next t ∧ v.getLsbD 31 = false ∧ Accepted s t v := by
  obtain ⟨t, he⟩ := execCol2idx_answers c s
  refine ⟨t, ?_⟩
  obtain ⟨i, -, rfl⟩ | ⟨-, -, rfl⟩ | ⟨-, -, i, -, rfl⟩ | ⟨-, -, -, rfl⟩ := execCol2idx_next he
  · exact ⟨_, he, indexResponse_err _ _, .of_respond hc rfl⟩
  · exact ⟨_, he, indexResponse_err _ _, .of_storeEntry _ _ _ _ _⟩
  · exact ⟨_, he, indexResponse_err _ _, .of_respond hc rfl⟩
  · exact ⟨_, he, indexResponse_err _ _, .of_storeEntry _ _ _ _ _⟩

theorem execInvert_accepted (f : Bool) (hc : s.cmd = none) :
    ∃ t v, execInvert f s = .next t ∧ v.getLsbD 31 = false ∧ Accepted s t v := by
  unfold execInvert
  split
  · exact ⟨_, noResult, rfl, rfl, .of_respond hc rfl⟩
  · exact ⟨_, noResult, rfl, rfl, .of_startCommand rfl (s.invertWrites_targets_nodup f)⟩

/-- Every command is accepted, to answer a response with `ERR = 0` (R100, R103). -/
theorem exec_command_accepted {i : Instr} {w : Word} (hi : encode i = .command w) (hc : s.cmd = none) :
    ∃ t v, exec i s = .next t ∧ v.getLsbD 31 = false ∧ Accepted s t v := by
  cases i with
  | col2idx c => exact execCol2idx_accepted c hc
  | palreset => exact ⟨_, noResult, rfl, rfl, .of_startCommand rfl (resetWrites_targets_nodup _)⟩
  | invert f => exact execInvert_accepted f hc
  | idx2col k => exact ⟨_, _, rfl, colourResponse_err _, .of_respond hc rfl⟩
  | sgstart | sgstop => exact ⟨_, noResult, rfl, rfl, .of_respond hc rfl⟩
  | rdstat => exact ⟨_, _, rfl, statusResponse_err s, .of_respond hc rfl⟩
  | idle | poll | waitfree | fill | retfree | emita | emitb | adv | halt => cases hi

/-! ### How an accepted command ends (R71, R100) -/

theorem State.finish_cmd (s : State) : s.finish.cmd = none := by
  obtain hc | ⟨c, hc⟩ := Option.eq_none_or_eq_some s.cmd
  · rw [State.finish_of_none s hc, hc]
  · rw [State.finish_eq hc]

theorem Accepted.finish_rsp {v : Word} (h : Accepted s t v) : t.finish.rsp = s.rsp ++ [v] := by
  obtain ⟨hc, hrsp⟩ | ⟨ws, hc, hrsp, -⟩ := h
  · rw [State.finish_of_none t hc, hrsp]
  · rw [State.finish_eq hc, hrsp]

/-- No response before the last element write. -/
theorem Accepted.cmd_none_or_rsp {v : Word} (h : Accepted s t v) : t.cmd = none ∨ t.rsp = s.rsp := by
  obtain ⟨hc, -⟩ | ⟨ws, -, hrsp, -⟩ := h
  · exact .inl hc
  · exact .inr hrsp

/-- Turns of the agent that each name the first pending write, and one for the response, lead to the command's end. -/
theorem Accepted.runSteps_agent {v : Word} (h : Accepted s t v) (hwf : t.cfg.wf = true) (es : List Event) :
    ∃ n, runSteps n { t with agenda := List.replicate n (.agent 0) ++ es } = .next { t.finish with agenda := es } := by
  obtain ⟨hc, -⟩ | ⟨ws, hc, -, hapart⟩ := h
  · exact ⟨0, by rw [State.finish_of_none t hc]; rfl⟩
  · refine ⟨ws.length + 1, ?_⟩
    have hlen : (List.replicate (ws.length + 1) 0).length = ws.length + 1 := List.length_replicate
    have hrun := Machine.runSteps_agent
      (s := { t with agenda := List.replicate (ws.length + 1) (.agent 0) ++ es })
      (List.replicate (ws.length + 1) 0) (es := es) hwf hc hapart hlen ?_ (by rw [List.map_replicate])
    · rwa [hlen, State.finish_agenda] at hrun
    · intro i k hk hi
      obtain rfl : k = 0 := List.eq_of_mem_replicate (List.mem_of_getElem? hk)
      omega

/-- Settles O22: the accepting step leaves a response sent or a command in progress (`exec_command_accepted`), and the agent's turns end
it (`Accepted.runSteps_agent`). -/
theorem everyCommandRespondsOnceWithoutError : Obligations.EveryCommandRespondsOnceWithoutError := by
  intro s i w hi hc
  obtain ⟨t, v, he, herr, haccepted⟩ := exec_command_accepted hi hc
  refine ⟨t, v, he, haccepted.finish_rsp, t.finish_cmd, herr, haccepted.cmd_none_or_rsp, fun hwf es => ?_⟩
  exact haccepted.runSteps_agent (by rwa [exec_cfg he]) es

end Sys2Proof.Machine
end

/-! ## Proofs about the palette commands of 40_palette_store.md -/

section
namespace Sys2Proof.Machine

open Sys2Proof

variable {s t : State}

/-! ### COL2IDX (R131, R132, R134): one equation for each part that is not the masked search -/

theorem execCol2idx_of_exactMatch {c : Colour} {i : PalIndex} (hexact : s.exactMatch c = some i.toNat) :
    execCol2idx c s = .next (s.respond (i.setWidth 32)) := by
  simp [execCol2idx, hexact, indexResponse_false]

theorem execCol2idx_of_room {c : Colour} (habsent : s.Absent c) (hroom : s.count.toNat < 255) :
    execCol2idx c s =
      .next (s.storeEntry (s.count.setWidth 8) c (s.count + 1) (indexResponse (s.count.setWidth 8) false)) := by
  have hexact : s.exactMatch c = none := (s.exactMatch_none c).2 habsent
  have hcan : s.canAppend = true := decide_eq_true hroom
  simp [execCol2idx, hexact, hcan]

theorem execCol2idx_of_unmatched {c : Colour} (habsent : s.Absent c) (hfull : 255 ≤ s.count.toNat)
    (hnone : ∀ t, 1 ≤ t → t ≤ 3 → s.NoneSimilar t c) :
    execCol2idx c s = .next (s.storeEntry 255 c s.countAfterOverwrite (indexResponse 255 true)) := by
  have hexact : s.exactMatch c = none := (s.exactMatch_none c).2 habsent
  have hcan : s.canAppend = false := decide_eq_false (Nat.not_lt.2 hfull)
  have hsim : s.similarMatch c = none := (s.similarMatch_none c).2 hnone
  simp [execCol2idx, hexact, hcan, hsim]

/-- An append answers the old `COUNT`: below 255 it is an index (R132, R150). -/
theorem indexResponse_count (hroom : s.count.toNat < 255) :
    indexResponse (s.count.setWidth 8) false = s.count.setWidth 32 := by
  rw [indexResponse_false]
  apply BitVec.eq_of_toNat_eq
  simp only [BitVec.toNat_setWidth]
  omega

/-- Settles O13: the exact search stops at the lowest index in use with the colour. -/
theorem exactMatchAnswersItsIndex : Obligations.ExactMatchAnswersItsIndex :=
  fun s c i hi hcolour hlower => execCol2idx_of_exactMatch (s.exactMatch_some c i hi hcolour hlower)

/-- Settles O14: the accepting step stores the entry, and the three writes it leaves give the entry its triplet
(`State.finish_storeEntry`). -/
theorem newColourIsAppended : Obligations.NewColourIsAppended := by
  intro s c hroom habsent
  refine ⟨_, execCol2idx_of_room habsent hroom, rfl, ?_⟩
  rw [State.finish_storeEntry, indexResponse_count hroom]

/-- Settles O16: no search finds an entry, so entry 255 is stored, `COUNT` as either reading of D9 has it
(`State.countAfterOverwrite`). -/
theorem unmatchedColourOverwritesTheLastSlot : Obligations.UnmatchedColourOverwritesTheLastSlot := by
  intro s c hfull habsent hnone
  exact ⟨_, execCol2idx_of_unmatched habsent hfull hnone, rfl, State.finish_storeEntry s 255 c _ _⟩

/-- Settles O21: IDX2COL has one case, whatever the index. -/
theorem idx2colAnswersTheStoredColour : Obligations.Idx2colAnswersTheStoredColour :=
  fun _ _ => rfl

/-! ### The end of a command that writes triplets (R71) -/

/-- A command that writes the triplets of a list of different indices gives those indices their triplets and leaves the others. -/
theorem State.triplet_finish_startCommand {ws : List ElemWrite} {l : List PalIndex} {g : PalIndex → Triplet} (w : Word)
    (hws : ws = l.flatMap fun i => tripletWrites i (g i)) (hl : l.Nodup) (i : PalIndex) :
    (s.startCommand ws w).finish.triplet i = if i ∈ l then g i else s.triplet i := by
  rw [State.finish_startCommand, hws]
  exact s.triplet_putAll l g hl i

/-- A command's writes change the triplet arrays alone, and its response follows them. -/
theorem State.finish_startCommand_frame (s : State) (ws : List ElemWrite) (w : Word) :
    (s.startCommand ws w).finish =
      { s with
        rtmds := (s.startCommand ws w).finish.rtmds
        gtmds := (s.startCommand ws w).finish.gtmds
        btmds := (s.startCommand ws w).finish.btmds
        cmd := none
        rsp := s.rsp ++ [w] } := by
  rw [State.finish_startCommand, State.putAll_frame]

/-- The triplets of all slots determine the three arrays. -/
theorem State.arrays_eq_of_triplet (h : ∀ i, s.triplet i = t.triplet i) :
    s.rtmds = t.rtmds ∧ s.gtmds = t.gtmds ∧ s.btmds = t.btmds :=
  ⟨palArray_ext fun i => congrArg Triplet.r (h i), palArray_ext fun i => congrArg Triplet.g (h i),
    palArray_ext fun i => congrArg Triplet.b (h i)⟩

/-! ### PALRESET (R136, R137) -/

/-- The triplet of a slot after RESET and after PALRESET. -/
theorem resetTriplet_eq (c : Config) (i : PalIndex) :
    (⟨palGet (resetSymbols c .red) i, palGet (resetSymbols c .green) i, palGet (resetSymbols c .blue) i⟩ : Triplet) =
      if h : i.toNat < 16 then encodeTriplet c.tmdsLut c.std16[i.toNat] false else ⟨0, 0, 0⟩ := by
  simp only [palGet_resetSymbols]
  split <;> rfl

/-- PALRESET writes every slot, so nothing of the old triplets is left. -/
theorem State.triplet_finish_resetWrites (s : State) (c : Config) (w : Word) (i : PalIndex) :
    (s.startCommand (resetWrites c) w).finish.triplet i =
      if h : i.toNat < 16 then encodeTriplet c.tmdsLut c.std16[i.toNat] false else ⟨0, 0, 0⟩ := by
  rw [State.triplet_finish_startCommand w (resetWrites_eq c) (firstIndices_nodup le_rfl),
    if_pos ((mem_firstIndices le_rfl i).2 i.isLt), resetTriplet_eq]

theorem standardIndex_toNat (i : Fin 16) : (BitVec.ofNat 8 i.val).toNat = i.val := by
  rw [BitVec.toNat_ofNat]
  omega

/-- Settles O18: PALRESET sets the reset colours and leaves the writes of every slot's reset triplet pending. -/
theorem palresetGivesTheResetPalette : Obligations.PalresetGivesTheResetPalette := by
  intro s
  refine ⟨_, rfl, rfl, fun i => ?_, fun i hi => ?_, fun i => ?_, fun i hi => ?_, State.finish_startCommand_frame _ _ _⟩
  · refine (palGet_resetColors s.cfg _).trans ?_
    simp only [standardIndex_toNat, i.isLt, dif_pos]
  · exact (palGet_resetColors s.cfg i).trans (dif_neg (Nat.not_lt.2 hi))
  · rw [State.triplet_finish_resetWrites]
    simp only [standardIndex_toNat, i.isLt, dif_pos]
  · rw [State.triplet_finish_resetWrites, dif_neg (Nat.not_lt.2 hi)]

/-! ### INVERT (R139 to R141) -/

theorem execInvert_of_same (s : State) : execInvert s.inverted s = .next (s.respond noResult) := if_pos rfl

theorem execInvert_of_ne {f : Bool} (hf : f ≠ s.inverted) :
    execInvert f s = .next ({ s with inverted := f }.startCommand (s.invertWrites f) noResult) := if_neg hf

/-- The writes of an effective INVERT go to the entries in use. -/
theorem mem_firstIndices_inUse (i : PalIndex) :
    i ∈ firstIndices (min s.count.toNat 256) ↔ i.toNat < s.count.toNat := by
  rw [mem_firstIndices (min_le_right _ _), lt_min_iff, and_iff_left i.isLt]

/-- Settles O19: the writes INVERT leaves pending are those of the entries in use (`State.invertWrites_eq`). -/
theorem invertRecomputesEntriesInUse : Obligations.InvertRecomputesEntriesInUse := by
  intro s f
  constructor
  · rintro rfl
    exact execInvert_of_same s
  · intro hf
    refine ⟨_, execInvert_of_ne hf, rfl, fun i => ?_, State.finish_startCommand_frame _ _ _⟩
    rw [State.triplet_finish_startCommand noResult (s.invertWrites_eq f) (firstIndices_nodup (min_le_right _ _))]
    simp only [mem_firstIndices_inUse]
    rfl

/-- Settles O20: each INVERT is effective, so the second gives every entry in use its non-inverted triplet again, and neither
writes another slot. -/
theorem inversionRoundTripRestoresTheState : Obligations.InversionRoundTripRestoresTheState := by
  intro s hc hinv hdue
  obtain ⟨t, het, -, htriplet, ht⟩ := (invertRecomputesEntriesInUse s true).2 (by simp [hinv])
  have htinv : t.finish.inverted = true := by rw [ht]
  obtain ⟨u, heu, -, hutriplet, hu⟩ := (invertRecomputesEntriesInUse t.finish false).2 (by simp [htinv])
  have hcfg : t.finish.cfg = s.cfg := by rw [ht]
  have hcount : t.finish.count = s.count := by rw [ht]
  have hcolor : t.finish.color = s.color := by rw [ht]
  have hrestored (i : PalIndex) : u.finish.triplet i = s.triplet i := by
    rw [hutriplet, htriplet, hcfg, hcount, hcolor]
    by_cases hi : i.toNat < s.count.toNat
    · rw [if_pos hi, hdue i hi]
    · rw [if_neg hi, if_neg hi]
  obtain ⟨hred, hgreen, hblue⟩ := State.arrays_eq_of_triplet hrestored
  refine ⟨t, u, het, heu, ?_⟩
  rw [hu, hred, hgreen, hblue, ht, ← hc, ← hinv, List.append_assoc]
  rfl

end Sys2Proof.Machine
end

/-! ## Proofs about the encoding of colours of 41_tmds_encoding.md -/

section
namespace Sys2Proof

/-! ### The fields of a colour and their alignment (R161, R162) -/

theorem red5_toNat (c : Colour) : (red5 c).toNat = c.toNat / 2048 := by
  rw [red5, BitVec.extractLsb'_toNat, Nat.shiftRight_eq_div_pow]
  omega

theorem green6_toNat (c : Colour) : (green6 c).toNat = c.toNat / 32 % 64 := by
  rw [green6, BitVec.extractLsb'_toNat, Nat.shiftRight_eq_div_pow]

theorem blue5_toNat (c : Colour) : (blue5 c).toNat = c.toNat % 32 := by
  rw [blue5, BitVec.extractLsb'_toNat, Nat.shiftRight_zero]

theorem align5_toNat (f : BitVec 5) : (align5 f).toNat = 2 * f.toNat := by
  rw [align5, BitVec.toNat_append, BitVec.toNat_ofNat, Nat.zero_mod, Nat.or_zero, Nat.shiftLeft_eq, pow_one, mul_comm]

/-! ### Complements go through the fields (R165) -/

/-- The library's `BitVec.extractLsb'_not_of_lt` leaves out a field that ends at the top bit, as `R5` does. -/
theorem field_not {start len : Nat} (c : Colour) (h : start + len ≤ 16) :
    (~~~ c).extractLsb' start len = ~~~ c.extractLsb' start len := by
  ext i hi
  have hin : start + i < 16 := by omega
  simp [hin]

theorem red5_not (c : Colour) : red5 (~~~ c) = ~~~ red5 c := field_not c (by decide)

theorem green6_not (c : Colour) : green6 (~~~ c) = ~~~ green6 c := field_not c (by decide)

theorem blue5_not (c : Colour) : blue5 (~~~ c) = ~~~ blue5 c := field_not c (by decide)

/-- The low bit an alignment vacates stays 0, so the largest aligned index is 62. -/
theorem align5_not_toNat (f : BitVec 5) : (align5 (~~~ f)).toNat = 62 - (align5 f).toNat := by
  rw [align5_toNat, align5_toNat, BitVec.toNat_not]
  omega

/-! ### The table and the triplet (R163, R164) -/

theorem getElem?_eq_lutRead (lut : Vector Symbol 64) {v : LutIndex} {n : Nat} (h : v.toNat = n) :
    lut[n]? = some (lutRead lut v) := by
  subst h
  exact Vector.getElem?_eq_getElem v.isLt

theorem encodeTriplet_inverted (lut : Vector Symbol 64) (c : Colour) :
    encodeTriplet lut c true = encodeTriplet lut (~~~ c) false := rfl

/-- Without inversion the triplet is read at `2 * R5`, `G6` and `2 * B5` of the colour itself. -/
theorem encodeTriplet_reads (lut : Vector Symbol 64) (c : Colour) :
    lut[2 * (c.toNat / 2048)]? = some (encodeTriplet lut c false).r ∧
    lut[c.toNat / 32 % 64]? = some (encodeTriplet lut c false).g ∧
    lut[2 * (c.toNat % 32)]? = some (encodeTriplet lut c false).b := by
  have hred : (align5 (red5 c)).toNat = 2 * (c.toNat / 2048) := by rw [align5_toNat, red5_toNat]
  have hblue : (align5 (blue5 c)).toNat = 2 * (c.toNat % 32) := by rw [align5_toNat, blue5_toNat]
  exact ⟨getElem?_eq_lutRead lut hred, getElem?_eq_lutRead lut (green6_toNat c), getElem?_eq_lutRead lut hblue⟩

/-! ### The statements about encoding -/

/-- Settles O55: with inversion it is the uninverted encoding of the complement, whose value is `65535 - c`. -/
theorem tripletIsReadAtTheAlignedFields : Obligations.TripletIsReadAtTheAlignedFields := by
  intro lut c inv
  cases inv with
  | false => exact encodeTriplet_reads lut c
  | true =>
    have hnot : BitVec.toNat (~~~ c) = 65535 - c.toNat := BitVec.toNat_not
    rw [if_pos rfl, ← hnot]
    exact encodeTriplet_reads lut (~~~ c)

/-- Settles O56: each field of the complement is the complement of the field. -/
theorem invertedIndicesAreComplements : Obligations.InvertedIndicesAreComplements := by
  intro lut c
  refine ⟨encodeTriplet_inverted lut c, ?_, ?_, ?_⟩
  · rw [red5_not, align5_not_toNat]
  · rw [green6_not, BitVec.toNat_not]
  · rw [blue5_not, align5_not_toNat]

end Sys2Proof
end

/-! ## Proofs about the scanline generator of 42_scanline_generator.md -/

section
namespace Sys2Proof.Machine

open Sys2Proof

variable {s t : State}

/-! ### One equation for each branch of a phase -/

theorem execWaitfree_of_empty (hq : s.freeq = []) : execWaitfree s = .next s := by
  simp only [execWaitfree, hq]

theorem execWaitfree_of_blank {q : List Handle} (hq : s.freeq = s.cfg.blankHandle :: q) :
    execWaitfree s = .next { s with freeq := q, sgphase := .poll } := by
  simp only [execWaitfree, hq, if_true]

theorem execWaitfree_of_row {k : Handle} {q : List Handle} (hq : s.freeq = k :: q) (hk : k ≠ s.cfg.blankHandle)
    (hy : s.y.toNat < s.cfg.canvasHeight) :
    execWaitfree s = .next { s with freeq := q, held := some k, x := 0, fsub := .idx, sgphase := .fill } := by
  simp only [execWaitfree, hq, if_neg hk, if_pos hy]

theorem execWaitfree_of_padding {k : Handle} {q : List Handle} (hq : s.freeq = k :: q) (hk : k ≠ s.cfg.blankHandle)
    (hy : s.cfg.canvasHeight ≤ s.y.toNat) :
    execWaitfree s = .next { s with freeq := q, held := some k, sgphase := .retfree } := by
  simp only [execWaitfree, hq, if_neg hk, if_neg (Nat.not_lt.2 hy)]

theorem execRetfree_of_full (hfull : s.cfg.qfCap ≤ s.freeq.length) : execRetfree s = .next s := by
  simp [execRetfree, State.freeHasRoom, hfull]

theorem execRetfree_of_room {k : Handle} (hheld : s.held = some k) (hroom : s.freeq.length < s.cfg.qfCap) :
    execRetfree s = .next { s with freeq := s.freeq ++ [k], held := some s.cfg.blankHandle, sgphase := .emita } := by
  simp [execRetfree, State.freeHasRoom, hroom, hheld, State.freePush]

theorem execFill_of_idx (hsub : s.fsub = .idx) (hx : s.x < s.cfg.canvasWidth) (hy : s.y.toNat < s.cfg.canvasHeight) :
    execFill s = .next { s with idxreg := s.canvasRead s.y.toNat s.x, fsub := .red } := by
  simp only [execFill, hsub, if_pos hx, if_pos hy]

theorem execFill_of_padding (hsub : s.fsub = .idx) (hx : s.cfg.canvasWidth ≤ s.x) :
    execFill s = s.fillColumn ⟨s.cfg.blackSym, s.cfg.blackSym, s.cfg.blackSym⟩ := by
  simp only [execFill, hsub, if_neg (Nat.not_lt.2 hx)]

theorem execFill_of_red (hsub : s.fsub = .red) :
    execFill s = .next { s with rsym := palGet s.rtmds s.idxreg, fsub := .grn } := by
  simp only [execFill, hsub]

theorem execFill_of_grn (hsub : s.fsub = .grn) :
    execFill s = .next { s with gsym := palGet s.gtmds s.idxreg, fsub := .blu } := by
  simp only [execFill, hsub]

theorem execFill_of_blu (hsub : s.fsub = .blu) :
    execFill s = s.fillColumn ⟨s.rsym, s.gsym, palGet s.btmds s.idxreg⟩ := by
  simp only [execFill, hsub]

/-- Settles O31: one equation of WAITFREE for each case. -/
theorem waitfreeTakesOrDiscards : Obligations.WaitfreeTakesOrDiscards := by
  refine ⟨fun s hq => execWaitfree_of_empty hq, fun s k q hq => ⟨?_, execWaitfree_of_row hq, execWaitfree_of_padding hq⟩⟩
  rintro rfl
  exact execWaitfree_of_blank hq

/-- Settles O32: one equation of FILL for each of the three sub-steps that read. -/
theorem fillReadsCanvasThenRedThenGreen : Obligations.FillReadsCanvasThenRedThenGreen :=
  fun _ => ⟨execFill_of_idx, execFill_of_red, execFill_of_grn⟩

/-- Settles O37: the two equations of RETFREE. -/
theorem retfreeReturnsTheBuffer : Obligations.RetfreeReturnsTheBuffer :=
  ⟨fun _ => execRetfree_of_full, fun _ _ => execRetfree_of_room⟩

/-! ### The end of a column (R186, R187) -/

theorem ColumnWritten.of_buf {u : State} {h : Handle} {x : Nat} {tr : Triplet} (hw : ColumnWritten s u h x tr)
    (hcfg : t.cfg = u.cfg) (hbuf : t.buf = u.buf) : ColumnWritten s t h x tr := by
  have hread : t.bufWord = u.bufWord := by
    funext g n
    simp only [State.bufWord, hcfg, hbuf]
  exact ⟨hread ▸ hw.slots, hread ▸ hw.others⟩

/-- What the end of a column leaves: its slots written, and the sequencer at the next column or at EMITA. -/
theorem State.fillColumn_writes {tr : Triplet} {h : Handle} (hwf : s.cfg.wf = true) (hbuf : Memory.wf s.buf = true)
    (hheld : s.held = some h) (hpool : h ∈ s.cfg.pool) (hx : s.x < s.cfg.activeWidth) :
    ∃ t, s.fillColumn tr = .next t ∧
      t = { s with
        buf := t.buf
        fsub := .idx
        x := s.x + 1
        sgphase := if s.x + 1 = s.cfg.activeWidth then .emita else s.sgphase
        filled := t.filled } ∧
      ColumnWritten s t h s.x tr :=
  ⟨_, State.fillColumn_of hheld hpool hx, rfl, (State.columnWrite_written hbuf hwf h tr hx).of_buf rfl rfl⟩

/-- Settles O33: sub-step BLU ends its column with the three symbols read. -/
theorem fillBluWritesTheColumn : Obligations.FillBluWritesTheColumn := by
  intro s h hwf hbuf hsub hheld hpool hx
  show ∃ t, execFill s = .next t ∧ _
  rw [execFill_of_blu hsub]
  exact State.fillColumn_writes hwf hbuf hheld hpool hx

/-- Settles O34: a padding column ends with three black symbols, and `FSUB` is 0 already. -/
theorem fillPadsWithBlack : Obligations.FillPadsWithBlack := by
  intro s h hwf hbuf hsub hpad hheld hpool hx
  show ∃ t, execFill s = .next t ∧ _
  rw [execFill_of_padding hsub hpad]
  have hcol := State.fillColumn_writes (tr := ⟨s.cfg.blackSym, s.cfg.blackSym, s.cfg.blackSym⟩) hwf hbuf hheld hpool hx
  rw [← hsub] at hcol
  exact hcol

/-! ### The frame of a phase, and what changes the phase (R175 to R178) -/

theorem exists_phase_of_encode {i : Instr} {c : BitVec 4} (hi : encode i = .phase c) : ∃ p : Phase, i = p.instr := by
  have hdecode : decodePhase c = .ok i := decode_eq_ok_iff.2 hi
  unfold decodePhase at hdecode
  split at hdecode <;> cases hdecode
  exact ⟨_, rfl⟩

/-- Settles O28: an instruction with a phase code is a phase's, and each phase has the frame. -/
theorem sequencerLeavesThePalette : Obligations.SequencerLeavesThePalette := by
  intro s t i c hi he
  obtain ⟨p, rfl⟩ := exists_phase_of_encode hi
  exact exec_phase_samePalette p he

/-- Of the commands only SGSTART, in IDLE, writes `SGPHASE` (R230). -/
theorem hostTurn_sgphase {w : Word} (he : hostTurn w s = .next t) :
    t.sgphase = s.sgphase ∨
      (s.sgphase = .idle ∧ t.sgphase = .poll ∧ decode (.command w) = .ok .sgstart) := by
  obtain ⟨-, ⟨i, hdecode, hexec⟩ | ⟨r, -, rfl⟩⟩ := hostTurn_next he
  · obtain ⟨w', hi⟩ := encode_of_decode hdecode
    by_cases hstart : i = .sgstart
    · subst hstart
      exact (exec_command_sgphase hi hexec).imp id fun ⟨hidle, hpoll⟩ => ⟨hidle, hpoll, hdecode⟩
    · exact .inl (exec_command_sgphase_of_ne_sgstart hi hstart hexec)
  · exact .inl rfl

/-- What a turn does to `SGPHASE`: only SGSTART in IDLE, the sequencer's own step and RESET write it. -/
theorem act_sgphase {e : Event} (he : act e s = .next t) :
    t.sgphase = s.sgphase ∨
    (s.sgphase = .idle ∧ t.sgphase = .poll ∧ ∃ w, e = .host w ∧ decode (.command w) = .ok .sgstart) ∨
    exec s.sgphase.instr s = .next t ∨
    (e = .reset ∧ t.sgphase = .idle) := by
  cases e with
  | host w =>
    exact (hostTurn_sgphase he).imp id fun ⟨hidle, hpoll, hstart⟩ => .inl ⟨hidle, hpoll, w, rfl, hstart⟩
  | agent k => cases he; exact .inl (State.agentStep_frame k).1
  | sg => exact .inr (.inr (.inl ((sgTurn_eq s).symm.trans he)))
  | pop => obtain ⟨-, rfl⟩ | ⟨k, q, -, rfl⟩ := popTurn_next he <;> exact .inl rfl
  | push k => obtain ⟨-, ⟨-, rfl⟩ | ⟨-, rfl⟩⟩ := pushTurn_next he <;> exact .inl rfl
  | draw x y b => obtain ⟨-, -, rfl⟩ := drawTurn_next he; exact .inl rfl
  | reset => obtain ⟨-, rfl⟩ := resetTurn_next he; exact .inr (.inr (.inr ⟨rfl, rfl⟩))

/-- `act_sgphase` for a step. -/
theorem step_sgphase (he : step s = .next t) :
    t.sgphase = s.sgphase ∨
    (s.sgphase = .idle ∧ t.sgphase = .poll ∧ ∃ w, s.nextEvent = .host w ∧ decode (.command w) = .ok .sgstart) ∨
    exec s.sgphase.instr s.dropEvent = .next t ∨
    (s.nextEvent = .reset ∧ t.sgphase = .idle) :=
  act_sgphase (step_next he).2

theorem step_leaves_idle (he : step s = .next t) (hidle : s.sgphase = .idle) (hleft : t.sgphase ≠ .idle) :
    t.sgphase = .poll ∧ ∃ w, s.nextEvent = .host w ∧ decode (.command w) = .ok .sgstart := by
  obtain hkept | ⟨-, hstart⟩ | hsg | ⟨-, hreset⟩ := step_sgphase he
  · exact absurd (hkept.trans hidle) hleft
  · exact hstart
  · rw [hidle] at hsg
    cases hsg
    exact absurd hidle hleft
  · exact absurd hreset hleft

theorem step_leaves_halt (he : step s = .next t) (hhalt : s.sgphase = .halt) (hleft : t.sgphase ≠ .halt) :
    s.nextEvent = .reset := by
  obtain hkept | ⟨hidle, -⟩ | hsg | ⟨hreset, -⟩ := step_sgphase he
  · exact absurd (hkept.trans hhalt) hleft
  · rw [hhalt] at hidle
    cases hidle
  · rw [hhalt] at hsg
    cases hsg
    exact absurd hhalt hleft
  · exact hreset

/-- No buffer is held in the phases that use none (R32). -/
theorem State.Inv.held_of_unheld (h : s.Inv) (hp : holdsBuffer s.sgphase = false) : s.held = none :=
  ((State.positionOk_iff_of_unheld hp).1 h.position).2

/-- Settles O29: both phases answer the state they are given; what leaves them is read off `step_sgphase`; in HALT the invariant
has no buffer held. -/
theorem idleAndHaltWait : Obligations.IdleAndHaltWait :=
  ⟨fun _ => ⟨rfl, rfl⟩, fun _ _ => step_leaves_idle, fun _ _ => step_leaves_halt,
    fun _ hinv hhalt => hinv.held_of_unheld (by rw [hhalt]; rfl)⟩

theorem State.fillColumn_sgphase {tr : Triplet} (he : s.fillColumn tr = .next t) :
    t.sgphase = s.sgphase ∨ t.sgphase = .emita := by
  obtain ⟨k, -, -, -, rfl⟩ := State.fillColumn_next he
  by_cases hlast : s.x + 1 = s.cfg.activeWidth
  · exact .inr (if_pos hlast)
  · exact .inl (if_neg hlast)

theorem execFill_sgphase (he : execFill s = .next t) : t.sgphase = s.sgphase ∨ t.sgphase = .emita := by
  obtain ⟨-, -, -, rfl⟩ | ⟨-, -, hpad⟩ | ⟨-, rfl⟩ | ⟨-, rfl⟩ | ⟨-, hcol⟩ := execFill_next he
  · exact .inl rfl
  · exact State.fillColumn_sgphase hpad
  · exact .inl rfl
  · exact .inl rfl
  · exact State.fillColumn_sgphase hcol

/-- Of the phases only POLL goes to HALT, and only when `EXIT` is set (R177). -/
theorem exec_phase_to_halt {p : Phase} (he : exec p.instr s = .next t) (hs : s.sgphase ≠ .halt)
    (hhalt : t.sgphase = .halt) : p = .poll ∧ s.exit = true := by
  cases p with
  | poll =>
    cases he
    cases hexit : s.exit with
    | true => exact ⟨rfl, rfl⟩
    | false => simp [hexit] at hhalt
  | waitfree =>
    obtain ⟨-, rfl⟩ | ⟨q, -, rfl⟩ | ⟨k, q, -, -, -, rfl⟩ | ⟨k, q, -, -, -, rfl⟩ := execWaitfree_next he
    · exact absurd hhalt hs
    all_goals cases hhalt
  | fill =>
    obtain hkept | hemita := execFill_sgphase he
    · exact absurd (hkept.symm.trans hhalt) hs
    · cases hemita.symm.trans hhalt
  | retfree =>
    obtain ⟨-, rfl⟩ | ⟨-, k, -, rfl⟩ := execRetfree_next he
    · exact absurd hhalt hs
    · cases hhalt
  | emita =>
    obtain ⟨-, rfl⟩ | ⟨-, ⟨-, k, -, rfl⟩ | ⟨-, -, k, -, rfl⟩ | ⟨-, -, rfl⟩⟩ := execEmita_next he
    · exact absurd hhalt hs
    all_goals cases hhalt
  | emitb =>
    obtain ⟨-, rfl⟩ | ⟨-, ⟨-, rfl⟩ | ⟨-, k, -, rfl⟩⟩ := execEmitb_next he
    · exact absurd hhalt hs
    all_goals cases hhalt
  | adv => cases he; cases hhalt
  | idle | halt => cases he; exact absurd hhalt hs

/-- Settles O30: POLL's step is its definition; of what else writes `SGPHASE` (`step_sgphase`), SGSTART and RESET go elsewhere. -/
theorem pollIsTheOnlyWayToHalt : Obligations.PollIsTheOnlyWayToHalt := by
  refine ⟨fun _ => rfl, fun s t he hs hhalt => ?_⟩
  obtain hkept | ⟨-, hpoll, -⟩ | hsg | ⟨-, hreset⟩ := step_sgphase he
  · exact absurd (hkept.symm.trans hhalt) hs
  · cases hpoll.symm.trans hhalt
  · exact exec_phase_to_halt (s := s.dropEvent) hsg hs hhalt
  · cases hreset.symm.trans hhalt

/-! ### A FILL that nothing disturbs (R183 to R188) -/

/-- A step of the sequencer and the run after it. -/
theorem runSg_next {n : Nat} {p : Phase} {r : Host.Outcome State Fault Refusal} (hp : s.sgphase = p)
    (he : exec p.instr s = .next t) (hrun : runSg n t = r) : runSg (n + 1) s = r := by
  simp only [runSg, sgTurn_eq, hp, he, hrun]

/-- `runSg_next` in FILL, stated for `execFill` so that a sub-step's equation fits as it stands. -/
theorem runSg_fill_next {n : Nat} {r : Host.Outcome State Fault Refusal} (hp : s.sgphase = .fill)
    (he : execFill s = .next t) (hrun : runSg n t = r) : runSg (n + 1) s = r :=
  runSg_next hp he hrun

/-- The symbols R188 gives column `x` in the three channels. -/
def State.rowTriplet (s : State) (x : Nat) : Triplet :=
  ⟨s.rowSymbol .red x, s.rowSymbol .green x, s.rowSymbol .blue x⟩

theorem State.rowTriplet_chan (s : State) (x : Nat) (ch : Channel) : (s.rowTriplet x).chan ch = s.rowSymbol ch x := by
  cases ch <;> rfl

theorem State.rowTriplet_of_row {x : Nat} (hx : x < s.cfg.canvasWidth) :
    s.rowTriplet x = s.triplet (s.canvasRead s.y.toNat x) := by
  simp only [State.rowTriplet, State.rowSymbol, if_pos hx, State.triplet, State.symbols]

theorem State.rowTriplet_of_padding {x : Nat} (hx : s.cfg.canvasWidth ≤ x) :
    s.rowTriplet x = ⟨s.cfg.blackSym, s.cfg.blackSym, s.cfg.blackSym⟩ := by
  simp only [State.rowTriplet, State.rowSymbol, if_neg (Nat.not_lt.2 hx)]

/-- `s` with the FILL of buffer `h` before column `x`, or after the last column, with the given buffers and column registers. -/
def State.atColumn (s : State) (h : Handle) (x : Nat) (b : Memory 32) (i : PalIndex) (r g : Symbol) : State :=
  { s with
    buf := b
    x := x
    idxreg := i
    rsym := r
    gsym := g
    sgphase := if x = s.cfg.activeWidth then .emita else s.sgphase
    filled := if x = s.cfg.activeWidth then s.filled.insert h else s.filled }

theorem State.atColumn_start (h : Handle) (hx : s.x ≠ s.cfg.activeWidth) :
    s.atColumn h s.x s.buf s.idxreg s.rsym s.gsym = s := by
  simp only [State.atColumn, if_neg hx]

theorem State.atColumn_end (h : Handle) (b : Memory 32) (i : PalIndex) (r g : Symbol) :
    s.atColumn h s.cfg.activeWidth b i r g = { s with
      buf := b
      x := s.cfg.activeWidth
      idxreg := i
      rsym := r
      gsym := g
      sgphase := .emita
      filled := s.filled.insert h } := by
  simp only [State.atColumn, if_true]

theorem State.atColumn_sgphase {h : Handle} {x : Nat} {b : Memory 32} {i : PalIndex} {r g : Symbol}
    (hx : x ≠ s.cfg.activeWidth) : (s.atColumn h x b i r g).sgphase = s.sgphase :=
  if_neg hx

/-- Of two columns in a row only the second is seen. -/
theorem State.atColumn_atColumn {h : Handle} {x z : Nat} {b b' : Memory 32} {i i' : PalIndex} {r r' g g' : Symbol}
    (hx : x ≠ s.cfg.activeWidth) :
    (s.atColumn h x b i r g).atColumn h z b' i' r' g' = s.atColumn h z b' i' r' g' := by
  simp only [State.atColumn, if_neg hx]

/-- The end of a column from the state of its sub-steps: the column registers are not written. -/
theorem State.fillColumn_atColumn {tr : Triplet} {h : Handle} (hsub : s.fsub = .idx) (hheld : s.held = some h)
    (hpool : h ∈ s.cfg.pool) (hx : s.x < s.cfg.activeWidth) (sub : FillSub) (i : PalIndex) (r g : Symbol) :
    ({ s with fsub := sub, idxreg := i, rsym := r, gsym := g } : State).fillColumn tr =
      .next (s.atColumn h (s.x + 1) (s.columnWrite h s.x tr).buf i r g) := by
  rw [State.fillColumn_of (s := { s with fsub := sub, idxreg := i, rsym := r, gsym := g }) hheld hpool hx,
    State.atColumn, hsub]
  rfl

/-- One column takes four steps inside the row and one in the padding, and writes its slots with the symbols R188 gives it. -/
theorem runSg_column {h : Handle} (hphase : s.sgphase = .fill) (hsub : s.fsub = .idx) (hheld : s.held = some h)
    (hpool : h ∈ s.cfg.pool) (hx : s.x < s.cfg.activeWidth) (hy : s.y.toNat < s.cfg.canvasHeight) :
    ∃ i r g, runSg (if s.x < s.cfg.canvasWidth then 4 else 1) s =
      .next (s.atColumn h (s.x + 1) (s.columnWrite h s.x (s.rowTriplet s.x)).buf i r g) := by
  by_cases hrow : s.x < s.cfg.canvasWidth
  · rw [if_pos hrow, State.rowTriplet_of_row hrow]
    exact ⟨_, _, _, runSg_fill_next hphase (execFill_of_idx hsub hrow hy) <|
      runSg_fill_next hphase (execFill_of_red rfl) <| runSg_fill_next hphase (execFill_of_grn rfl) <|
      runSg_fill_next hphase
        ((execFill_of_blu rfl).trans (State.fillColumn_atColumn hsub hheld hpool hx _ _ _ _)) rfl⟩
  · rw [if_neg hrow, State.rowTriplet_of_padding (Nat.not_lt.1 hrow)]
    exact ⟨_, _, _, runSg_fill_next hphase ((execFill_of_padding hsub (Nat.not_lt.1 hrow)).trans
      (State.fillColumn_atColumn hsub hheld hpool hx s.fsub s.idxreg s.rsym s.gsym)) rfl⟩

/-- The words of the buffer `h` once the columns below `x` are written: each word begun holds its columns' symbols packed. -/
def RowFilledTo (s t : State) (h : Handle) (x : Nat) : Prop :=
  ∀ (ch : Channel) (w : Nat), w * s.cfg.symbolsPerWord < x →
    t.bufWord h (s.cfg.segOrder.pos ch * s.cfg.segWords + w) =
      packWord (fun k => s.rowSymbol ch (w * s.cfg.symbolsPerWord + k))
        (min s.cfg.symbolsPerWord (x - w * s.cfg.symbolsPerWord))

theorem RowFilledTo.zero (s t : State) (h : Handle) : RowFilledTo s t h 0 :=
  fun _ _ hw => absurd hw (Nat.not_lt_zero _)

/-- With all columns written every word is full. -/
theorem RowFilledTo.rowFilled {h : Handle} (hwf : s.cfg.wf = true) (hf : RowFilledTo s t h s.cfg.activeWidth) :
    RowFilled s t h := by
  intro ch w hw
  have hend : (w + 1) * s.cfg.symbolsPerWord ≤ s.cfg.activeWidth := by
    rw [← Config.segWords_mul hwf]
    exact Nat.mul_le_mul_right _ hw
  have hspw := Config.spw_pos hwf
  rw [Nat.succ_mul] at hend
  rw [hf ch w (by omega), Nat.min_eq_left (by omega)]

theorem slotWord_mul {c : Config} (hwf : c.wf = true) (ch : Channel) (w : Nat) :
    slotWord c ch (w * c.symbolsPerWord) = c.segOrder.pos ch * c.segWords + w := by
  rw [slotWord, Nat.mul_div_cancel _ (Config.spw_pos hwf)]

section Column

variable {u : State} {h : Handle} {x : Nat} {ch : Channel}

/-- The word of the column just written: slot 0 begins it, the other slots add to it. -/
theorem RowFilledTo.word_of_column (hf : RowFilledTo s t h x) (hw : ColumnWritten t u h x (s.rowTriplet x))
    (hcfg : t.cfg = s.cfg) (hspw : 0 < s.cfg.symbolsPerWord) {w : Nat} (hword : w = x / s.cfg.symbolsPerWord) :
    u.bufWord h (s.cfg.segOrder.pos ch * s.cfg.segWords + w) =
      packWord (fun k => s.rowSymbol ch (w * s.cfg.symbolsPerWord + k)) (x % s.cfg.symbolsPerWord + 1) := by
  have hslot := hw.slots ch
  rw [hcfg, slotWord, ← hword, State.rowTriplet_chan] at hslot
  have hx : w * s.cfg.symbolsPerWord + x % s.cfg.symbolsPerWord = x := by rw [hword, Nat.div_add_mod']
  have hsym : s.rowSymbol ch x = s.rowSymbol ch (w * s.cfg.symbolsPerWord + x % s.cfg.symbolsPerWord) := by rw [hx]
  rw [hslot, hsym]
  by_cases hfirst : x % s.cfg.symbolsPerWord = 0
  · rw [hfirst]
    exact setSlot_first _ fun k => s.rowSymbol ch (w * s.cfg.symbolsPerWord + k)
  · have hmod := Nat.mod_lt x hspw
    have hslots : min s.cfg.symbolsPerWord (x - w * s.cfg.symbolsPerWord) = x % s.cfg.symbolsPerWord := by omega
    rw [hf ch w (by omega), hslots]
    exact setSlot_packWord (fun k => s.rowSymbol ch (w * s.cfg.symbolsPerWord + k)) _

/-- A word that ends before the column just written reads as before. -/
theorem ColumnWritten.bufWord_of_earlier {tr : Triplet} (hw : ColumnWritten t u h x tr) (hcfg : t.cfg = s.cfg)
    (hwf : s.cfg.wf = true) (hx : x < s.cfg.activeWidth) {w : Nat} (hearlier : w < x / s.cfg.symbolsPerWord) :
    u.bufWord h (s.cfg.segOrder.pos ch * s.cfg.segWords + w) =
      t.bufWord h (s.cfg.segOrder.pos ch * s.cfg.segWords + w) := by
  have hspw := Config.spw_pos hwf
  have hcolumn : w * s.cfg.symbolsPerWord < s.cfg.activeWidth := calc
    w * s.cfg.symbolsPerWord ≤ x := (Nat.le_div_iff_mul_le hspw).1 hearlier.le
    _ < s.cfg.activeWidth := hx
  rw [← slotWord_mul hwf]
  refine hw.others h _ (by rw [hcfg]; exact slotWord_lt hwf ch hcolumn) ?_
  rintro ch' ⟨-, hsame⟩
  rw [hcfg] at hsame
  obtain ⟨-, hdiv⟩ := slotWord_inj hwf hcolumn hx hsame
  rw [Nat.mul_div_cancel _ hspw] at hdiv
  exact hearlier.ne hdiv

/-- Writing column `x` adds it to the columns written. -/
theorem RowFilledTo.succ (hf : RowFilledTo s t h x) (hw : ColumnWritten t u h x (s.rowTriplet x)) (hcfg : t.cfg = s.cfg)
    (hwf : s.cfg.wf = true) (hx : x < s.cfg.activeWidth) : RowFilledTo s u h (x + 1) := by
  intro ch w hbegun
  have hspw := Config.spw_pos hwf
  have hle : w ≤ x / s.cfg.symbolsPerWord := (Nat.le_div_iff_mul_le hspw).2 (Nat.lt_succ_iff.1 hbegun)
  obtain hearlier | hword := Nat.lt_or_eq_of_le hle
  · have hdone : (w + 1) * s.cfg.symbolsPerWord ≤ x := (Nat.le_div_iff_mul_le hspw).1 hearlier
    rw [Nat.succ_mul] at hdone
    rw [hw.bufWord_of_earlier hcfg hwf hx hearlier, hf ch w (by omega), Nat.min_eq_left (by omega),
      Nat.min_eq_left (by omega)]
  · have hx' : w * s.cfg.symbolsPerWord + x % s.cfg.symbolsPerWord = x := by rw [hword, Nat.div_add_mod']
    have hmod := Nat.mod_lt x hspw
    rw [hf.word_of_column hw hcfg hspw hword]
    congr 1
    omega

end Column

theorem OtherBuffersKept.columnWritten {u : State} {h : Handle} {x : Nat} {tr : Triplet} (hk : OtherBuffersKept s t h)
    (hw : ColumnWritten t u h x tr) (hcfg : t.cfg = s.cfg) : OtherBuffersKept s u h := by
  intro g n hn hg
  rw [hw.others g n (by rwa [hcfg]) fun _ hgh => hg hgh.1, hk g n hn hg]

/-- The columns below `x` of an undisturbed FILL, by induction on `x`. -/
theorem runSg_columns {h : Handle} (hwf : s.cfg.wf = true) (hbuf : Memory.wf s.buf = true) (hphase : s.sgphase = .fill)
    (hheld : s.held = some h) (hpool : h ∈ s.cfg.pool) (hy : s.y.toNat < s.cfg.canvasHeight) (hzero : s.x = 0)
    (hsub : s.fsub = .idx) (x : Nat) (hx : x ≤ s.cfg.activeWidth) :
    ∃ b i r g, runSg (4 * min x s.cfg.canvasWidth + (x - s.cfg.canvasWidth)) s = .next (s.atColumn h x b i r g) ∧
      Memory.wf b = true ∧ RowFilledTo s (s.atColumn h x b i r g) h x ∧ OtherBuffersKept s (s.atColumn h x b i r g) h := by
  induction x with
  | zero =>
    have hwidth := Config.width_pos hwf
    have hstart := State.atColumn_start (s := s) h (by omega)
    rw [hzero] at hstart
    refine ⟨s.buf, s.idxreg, s.rsym, s.gsym, ?_, hbuf, RowFilledTo.zero _ _ _, fun _ _ _ _ => rfl⟩
    rw [hstart, Nat.zero_min, Nat.zero_sub]
    rfl
  | succ x ih =>
    obtain ⟨b, i, r, g, hrun, hb, hrow, hothers⟩ := ih (by omega)
    have hne : x ≠ s.cfg.activeWidth := by omega
    obtain ⟨i', r', g', hcolumn⟩ := runSg_column (s := s.atColumn h x b i r g) (h := h)
      ((State.atColumn_sgphase hne).trans hphase) hsub hheld hpool hx hy
    have hsteps : 4 * min (x + 1) s.cfg.canvasWidth + (x + 1 - s.cfg.canvasWidth) =
        4 * min x s.cfg.canvasWidth + (x - s.cfg.canvasWidth) + if x < s.cfg.canvasWidth then 4 else 1 := by
      split <;> omega
    have hwritten := State.columnWrite_written (s := s.atColumn h x b i r g) hb hwf h (s.rowTriplet x) hx
    rw [State.atColumn_atColumn hne] at hcolumn
    refine ⟨_, i', r', g', ?_, State.columnWrite_buf_wf (s := s.atColumn h x b i r g) h x (s.rowTriplet x) hb,
      hrow.succ (hwritten.of_buf rfl rfl) rfl hwf hx, hothers.columnWritten (hwritten.of_buf rfl rfl) rfl⟩
    rw [hsteps, runSg_add _ hrun]
    exact hcolumn

/-- An undisturbed FILL: the columns up to the last. -/
theorem runSg_fill {h : Handle} (hinv : s.Inv) (hphase : s.sgphase = .fill) (hheld : s.held = some h) (hx : s.x = 0)
    (hsub : s.fsub = .idx) :
    ∃ b i r g, runSg (4 * s.cfg.canvasWidth + (s.cfg.activeWidth - s.cfg.canvasWidth)) s =
        .next (s.atColumn h s.cfg.activeWidth b i r g) ∧
      RowFilled s (s.atColumn h s.cfg.activeWidth b i r g) h ∧
      OtherBuffersKept s (s.atColumn h s.cfg.activeWidth b i r g) h := by
  obtain ⟨-, ⟨k, hpool, hk⟩, hy, -, -⟩ := (State.positionOk_iff_of_fill hphase).1 hinv.position
  obtain rfl : k = h := Option.some.inj (hk.symm.trans hheld)
  obtain ⟨b, i, r, g, hrun, -, hrow, hothers⟩ :=
    runSg_columns hinv.config hinv.memory.buf hphase hheld hpool hy hx hsub s.cfg.activeWidth le_rfl
  rw [Nat.min_eq_right (Config.canvas_narrow hinv.config)] at hrun
  exact ⟨b, i, r, g, hrun, hrow.rowFilled hinv.config, hothers⟩

/-- Settles O36: the columns one after another (`runSg_columns`), up to the last. -/
theorem undisturbedFillWritesTheRow : Obligations.UndisturbedFillWritesTheRow := by
  intro s h hinv hphase hheld hx hsub
  obtain ⟨b, i, r, g, hrun, hrow, hothers⟩ := runSg_fill hinv hphase hheld hx hsub
  rw [State.atColumn_end] at hrun
  exact ⟨_, hrun, rfl, hrow, hothers⟩

/-! ### The phases that emit: one equation for each branch (R210, R211) -/

theorem execEmita_of_progressive {k : Handle} (hi : s.cfg.ilace = false) (hheld : s.held = some k)
    (hroom : s.readyq.length < s.cfg.qrCap) :
    execEmita s = .next { s with readyq := s.readyq ++ [k], sgphase := .adv } := by
  simp [execEmita, State.readyHasRoom, hroom, hi, State.emitHeld, hheld, State.readyPush]

theorem execEmita_of_even {k : Handle} (hi : s.cfg.ilace = true) (heven : s.field = false) (hheld : s.held = some k)
    (hroom : s.readyq.length < s.cfg.qrCap) :
    execEmita s = .next { s with readyq := s.readyq ++ [k], sgphase := .emitb } := by
  simp [execEmita, State.readyHasRoom, hroom, hi, heven, State.emitHeld, hheld, State.readyPush]

theorem execEmita_of_odd (hi : s.cfg.ilace = true) (hodd : s.field = true) (hroom : s.readyq.length < s.cfg.qrCap) :
    execEmita s = .next { s with readyq := s.readyq ++ [s.cfg.blankHandle], sgphase := .emitb } := by
  simp [execEmita, State.readyHasRoom, hroom, hi, hodd, State.emitBlank, State.readyPush]

theorem execEmitb_of_even (heven : s.field = false) (hroom : s.readyq.length < s.cfg.qrCap) :
    execEmitb s = .next { s with readyq := s.readyq ++ [s.cfg.blankHandle], sgphase := .adv } := by
  simp [execEmitb, State.readyHasRoom, hroom, heven, State.emitBlank, State.readyPush]

theorem execEmitb_of_odd {k : Handle} (hodd : s.field = true) (hheld : s.held = some k)
    (hroom : s.readyq.length < s.cfg.qrCap) :
    execEmitb s = .next { s with readyq := s.readyq ++ [k], sgphase := .adv } := by
  simp [execEmitb, State.readyHasRoom, hroom, hodd, State.emitHeld, hheld, State.readyPush]

theorem State.emission_of_progressive (hi : s.cfg.ilace = false) (h : Handle) : s.emission h = [h] := by
  simp [State.emission, hi]

theorem State.emission_of_even (hi : s.cfg.ilace = true) (heven : s.field = false) (h : Handle) :
    s.emission h = [h, s.cfg.blankHandle] := by
  simp [State.emission, hi, heven]

theorem State.emission_of_odd (hi : s.cfg.ilace = true) (hodd : s.field = true) (h : Handle) :
    s.emission h = [s.cfg.blankHandle, h] := by
  simp [State.emission, hi, hodd]

/-- The real line `BLANK_HANDLE` gives blanks only (R191, R219). -/
theorem State.emission_blank (s : State) (h : Handle) :
    s.emission s.cfg.blankHandle = List.replicate (s.emission h).length s.cfg.blankHandle := by
  unfold State.emission
  split
  · rfl
  · split <;> rfl

/-! ### A whole iteration (R192) -/

/-- The pushes of an iteration, given room for all of them. -/
theorem runSg_emission {h : Handle} (hphase : s.sgphase = .emita) (hheld : s.held = some h)
    (hroom : s.readyq.length + (s.emission h).length ≤ s.cfg.qrCap) :
    runSg (s.emission h).length s = .next { s with readyq := s.readyq ++ s.emission h, sgphase := .adv } := by
  cases hi : s.cfg.ilace with
  | false =>
    rw [State.emission_of_progressive hi] at hroom ⊢
    exact runSg_next hphase (execEmita_of_progressive hi hheld hroom) rfl
  | true =>
    obtain hodd | heven := Bool.eq_false_or_eq_true s.field
    · rw [State.emission_of_odd hi hodd] at hroom ⊢
      have hsecond : (s.readyq ++ [s.cfg.blankHandle]).length < s.cfg.qrCap := by
        rw [List.length_append]
        exact hroom
      rw [List.append_cons]
      exact runSg_next hphase (execEmita_of_odd hi hodd (Nat.lt_of_succ_lt hroom)) <|
        runSg_next rfl (execEmitb_of_odd hodd hheld hsecond) rfl
    · rw [State.emission_of_even hi heven] at hroom ⊢
      have hsecond : (s.readyq ++ [h]).length < s.cfg.qrCap := by
        rw [List.length_append]
        exact hroom
      rw [List.append_cons]
      exact runSg_next hphase (execEmita_of_even hi heven hheld (Nat.lt_of_succ_lt hroom)) <|
        runSg_next rfl (execEmitb_of_even heven hsecond) rfl

/-- From the line to emit to the next POLL: the pushes, and the advance of the line. -/
theorem runSg_emission_adv {h : Handle} (hphase : s.sgphase = .emita) (hheld : s.held = some h)
    (hroom : s.readyq.length + (s.emission h).length ≤ s.cfg.qrCap) :
    runSg ((s.emission h).length + 1) s = .next { s with
      readyq := s.readyq ++ s.emission h
      held := none
      y := BitVec.ofNat 15 (nextLine s.cfg s.y.toNat s.field).1
      field := (nextLine s.cfg s.y.toNat s.field).2
      sgphase := .poll } :=
  (runSg_add 1 (runSg_emission hphase hheld hroom)).trans (runSg_next rfl rfl rfl)

/-- `Y` holds every line number (R29, R214). -/
theorem State.Inv.nextLine_toNat (h : s.Inv) :
    (BitVec.ofNat 15 (nextLine s.cfg s.y.toNat s.field).1).toNat = (nextLine s.cfg s.y.toNat s.field).1 := by
  obtain ⟨hrange, -, -⟩ := nextLine_ok h
  have hlines := Config.lines_le h.config
  rw [BitVec.toNat_ofNat, Nat.mod_eq_of_lt (by omega)]

theorem execPoll_of_not_exit (hexit : s.exit = false) : execPoll s = .next { s with sgphase := .waitfree } := by
  simp [execPoll, hexit]

/-- Settles O44: POLL and WAITFREE's discard branch. -/
theorem discardIterationOnlyDropsTheBlank : Obligations.DiscardIterationOnlyDropsTheBlank := by
  intro s q hphase hexit hq
  refine runSg_next hphase (execPoll_of_not_exit hexit) (runSg_next rfl (execWaitfree_of_blank hq) ?_)
  rw [← hphase]
  rfl

/-- Settles O42: POLL, WAITFREE, the undisturbed FILL from a state that still meets the invariant, the pushes and ADV. -/
theorem realIterationPublishesTheFilledBuffer : Obligations.RealIterationPublishesTheFilledBuffer := by
  intro s h q hinv hphase hexit hq hblank hy hroom
  have hpoll := execPoll_of_not_exit hexit
  have hwait := execWaitfree_of_row (s := { s with sgphase := .waitfree }) hq hblank hy
  have hfilling := execWaitfree_keeps_inv (execPoll_keeps_inv hinv hphase hpoll) rfl hwait
  obtain ⟨b, i, r, g, hfill, hrow, hothers⟩ := runSg_fill hfilling rfl rfl rfl rfl
  rw [State.atColumn_end] at hfill
  have hsteps : 4 * s.cfg.canvasWidth + (s.cfg.activeWidth - s.cfg.canvasWidth) + (s.emission h).length + 3 =
      4 * s.cfg.canvasWidth + (s.cfg.activeWidth - s.cfg.canvasWidth) + ((s.emission h).length + 1) + 1 + 1 := by omega
  rw [hsteps]
  refine ⟨_, runSg_next hphase hpoll <| runSg_next rfl hwait <|
    (runSg_add _ hfill).trans (runSg_emission_adv rfl rfl hroom), ?_, Prod.ext hinv.nextLine_toNat rfl, hrow, hothers⟩
  rw [hinv.held_of_unheld (by rw [hphase]; rfl), hphase]
  rfl

/-- Settles O43: POLL, WAITFREE, RETFREE, the pushes of the blank and ADV. -/
theorem paddingIterationPublishesTheBlank : Obligations.PaddingIterationPublishesTheBlank := by
  intro s h q hinv hphase hexit hq hblank hy hroom
  have hfree : q.length < s.cfg.qfCap := by
    have hqueue := hinv.queues.1
    rwa [hq] at hqueue
  refine ⟨_, runSg_next hphase (execPoll_of_not_exit hexit) <| runSg_next rfl (execWaitfree_of_padding hq hblank hy) <|
    runSg_next rfl (execRetfree_of_room rfl hfree) <| runSg_emission_adv rfl rfl hroom, ?_,
    Prod.ext hinv.nextLine_toNat rfl⟩
  rw [← s.emission_blank, hinv.held_of_unheld (by rw [hphase]; rfl), hphase]
  rfl

/-! ### What is published is filled (R194, R295) -/

theorem State.resetOf_published (c : Config) : (State.resetOf c).PublishedOk where
  ready := fun _ hk => absurd hk List.not_mem_nil
  emitting := fun hp => by rcases hp with hp | hp <;> cases hp

/-- A change keeps the published handles filled when it publishes none and does not begin to emit. -/
theorem State.PublishedOk.of_unpublished (h : s.PublishedOk) (hcfg : t.cfg = s.cfg) (hready : ∀ k ∈ t.readyq, k ∈ s.readyq)
    (hfilled : ∀ k ∈ s.filled, k ∈ t.filled)
    (hemit : t.sgphase = .emita ∨ t.sgphase = .emitb →
      (s.sgphase = .emita ∨ s.sgphase = .emitb) ∧ t.held = s.held) : t.PublishedOk where
  ready k hk hpool := hfilled k (h.ready k (hready k hk) (hcfg ▸ hpool))
  emitting hp k hk hpool := by
    obtain ⟨hp', hheld⟩ := hemit hp
    exact hfilled k (h.emitting hp' k (hheld ▸ hk) (hcfg ▸ hpool))

/-- The published handles stay filled over a change that only commands make. -/
theorem State.PublishedOk.of_sameGenerator (h : s.PublishedOk) (hg : SameGenerator s t)
    (hp : t.sgphase = s.sgphase ∨ (s.sgphase = .idle ∧ t.sgphase = .poll)) : t.PublishedOk := by
  refine h.of_unpublished hg.cfg (fun k hk => hg.readyq ▸ hk) (fun k hk => hg.filled.symm ▸ hk) fun hemit => ⟨?_, hg.held⟩
  rcases hp with hp | ⟨-, hp⟩
  · rwa [hp] at hemit
  · rw [hp] at hemit
    rcases hemit with hemit | hemit <;> cases hemit

/-- A handle pushed by EMITA or EMITB is the blank one or held, and what is held was filled. -/
theorem State.PublishedOk.of_emission (h : s.PublishedOk) {k : Handle} {p : Phase}
    (hphase : s.sgphase = .emita ∨ s.sgphase = .emitb) (hk : k ∈ s.cfg.pool → s.held = some k) :
    ({ s with readyq := s.readyq ++ [k], sgphase := p } : State).PublishedOk where
  ready j hj hpool := by
    rcases List.mem_append.1 hj with hj | hj
    · exact h.ready j hj hpool
    · obtain rfl := List.mem_singleton.1 hj
      exact h.emitting hphase j (hk hpool) hpool
  emitting _ := h.emitting hphase

theorem execWaitfree_keeps_published (h : s.PublishedOk) (he : execWaitfree s = .next t) : t.PublishedOk := by
  obtain ⟨-, rfl⟩ | ⟨q, -, rfl⟩ | ⟨k, q, -, -, -, rfl⟩ | ⟨k, q, -, -, -, rfl⟩ := execWaitfree_next he
  · exact h
  all_goals exact ⟨h.ready, by simp⟩

/-- After the last column the buffer counts as filled, and it is the one that is held. -/
theorem State.fillColumn_keeps_published {tr : Triplet} (h : s.PublishedOk) (hphase : s.sgphase = .fill)
    (he : s.fillColumn tr = .next t) : t.PublishedOk := by
  obtain ⟨k, hheld, -, -, rfl⟩ := State.fillColumn_next he
  by_cases hlast : s.x + 1 = s.cfg.activeWidth
  · refine ⟨fun j hj hpool => ?_, fun _ j hj _ => ?_⟩
    · simpa [hlast] using .inr (h.ready j hj hpool)
    · obtain rfl : k = j := Option.some.inj (hheld.symm.trans hj)
      simp [hlast]
  · refine h.of_unpublished rfl (fun _ => id) (fun j hj => ?_) fun hp => ?_
    · simpa [hlast] using hj
    · simp [hlast, hphase] at hp

theorem execFill_keeps_published (h : s.PublishedOk) (hphase : s.sgphase = .fill) (he : execFill s = .next t) :
    t.PublishedOk := by
  obtain ⟨-, -, -, rfl⟩ | ⟨-, -, hpad⟩ | ⟨-, rfl⟩ | ⟨-, rfl⟩ | ⟨-, hcol⟩ := execFill_next he
  · exact ⟨h.ready, h.emitting⟩
  · exact State.fillColumn_keeps_published h hphase hpad
  · exact ⟨h.ready, h.emitting⟩
  · exact ⟨h.ready, h.emitting⟩
  · exact State.fillColumn_keeps_published h hphase hcol

/-- RETFREE gives the line to emit to the blank handle, which is no pool handle. -/
theorem execRetfree_keeps_published (hwf : s.cfg.wf = true) (h : s.PublishedOk) (he : execRetfree s = .next t) :
    t.PublishedOk := by
  obtain ⟨-, rfl⟩ | ⟨-, k, -, rfl⟩ := execRetfree_next he
  · exact h
  · refine ⟨h.ready, fun _ j hj hpool => absurd hpool ?_⟩
    obtain rfl : s.cfg.blankHandle = j := Option.some.inj hj
    exact Config.blank_not_pool hwf

theorem execEmita_keeps_published (hwf : s.cfg.wf = true) (h : s.PublishedOk) (hphase : s.sgphase = .emita)
    (he : execEmita s = .next t) : t.PublishedOk := by
  obtain ⟨-, rfl⟩ | ⟨-, ⟨-, k, hheld, rfl⟩ | ⟨-, -, k, hheld, rfl⟩ | ⟨-, -, rfl⟩⟩ := execEmita_next he
  · exact h
  · exact h.of_emission (.inl hphase) fun _ => hheld
  · exact h.of_emission (.inl hphase) fun _ => hheld
  · exact h.of_emission (.inl hphase) fun hpool => absurd hpool (Config.blank_not_pool hwf)

theorem execEmitb_keeps_published (hwf : s.cfg.wf = true) (h : s.PublishedOk) (hphase : s.sgphase = .emitb)
    (he : execEmitb s = .next t) : t.PublishedOk := by
  obtain ⟨-, rfl⟩ | ⟨-, ⟨-, rfl⟩ | ⟨-, k, hheld, rfl⟩⟩ := execEmitb_next he
  · exact h
  · exact h.of_emission (.inr hphase) fun hpool => absurd hpool (Config.blank_not_pool hwf)
  · exact h.of_emission (.inr hphase) fun _ => hheld

/-- The sequencer's step keeps the published handles filled, whatever its phase. -/
theorem exec_phase_keeps_published (hwf : s.cfg.wf = true) (h : s.PublishedOk)
    (he : exec s.sgphase.instr s = .next t) : t.PublishedOk := by
  cases hphase : s.sgphase <;> rw [hphase] at he
  case poll => cases he; exact ⟨h.ready, by cases s.exit <;> simp⟩
  case waitfree => exact execWaitfree_keeps_published h he
  case fill => exact execFill_keeps_published h hphase he
  case retfree => exact execRetfree_keeps_published hwf h he
  case emita => exact execEmita_keeps_published hwf h hphase he
  case emitb => exact execEmitb_keeps_published hwf h hphase he
  case adv => cases he; exact ⟨h.ready, by simp⟩
  case idle | halt => cases he; exact h

theorem hostTurn_keeps_published {w : Word} (h : s.PublishedOk) (he : hostTurn w s = .next t) : t.PublishedOk := by
  obtain ⟨-, ⟨i, hdecode, hexec⟩ | ⟨r, -, rfl⟩⟩ := hostTurn_next he
  · obtain ⟨w', hi⟩ := encode_of_decode hdecode
    exact h.of_sameGenerator (exec_command_sameGenerator hi hexec) (exec_command_sgphase hi hexec)
  · exact ⟨h.ready, h.emitting⟩

theorem popTurn_keeps_published (h : s.PublishedOk) (he : popTurn s = .next t) : t.PublishedOk := by
  obtain ⟨-, rfl⟩ | ⟨k, q, hq, rfl⟩ := popTurn_next he
  · exact h
  · exact h.of_unpublished rfl (fun j hj => hq ▸ List.mem_cons_of_mem k hj) (fun _ => id) fun hp => ⟨hp, rfl⟩

/-- With nothing in the ready queue RESET leaves nothing published (R271). -/
theorem State.applyReset_published (hq : s.readyq = []) : s.applyReset.PublishedOk where
  ready := fun k hk => by
    rw [show s.applyReset.readyq = [] from hq] at hk
    cases hk
  emitting := (State.resetOf_published s.cfg).emitting

/-- Every party's turn keeps the published handles filled, RESET with an empty ready queue. -/
theorem act_keeps_published {e : Event} (hwf : s.cfg.wf = true) (h : s.PublishedOk) (he : act e s = .next t)
    (hreset : e = .reset → s.readyq = []) : t.PublishedOk := by
  cases e with
  | host w => exact hostTurn_keeps_published h he
  | agent k => cases he; exact h.of_sameGenerator (State.agentStep_generator s k) (.inl (State.agentStep_frame k).1)
  | sg => exact exec_phase_keeps_published hwf h ((sgTurn_eq s).symm.trans he)
  | pop => exact popTurn_keeps_published h he
  | push k => obtain ⟨-, ⟨-, rfl⟩ | ⟨-, rfl⟩⟩ := pushTurn_next he <;> exact ⟨h.ready, h.emitting⟩
  | draw x y b => obtain ⟨-, -, rfl⟩ := drawTurn_next he; exact ⟨h.ready, h.emitting⟩
  | reset => obtain ⟨-, rfl⟩ := resetTurn_next he; exact State.applyReset_published (hreset rfl)

theorem step_keeps_published (h : s.PublishedOk) (he : step s = .next t)
    (hreset : s.nextEvent = .reset → s.readyq = []) : t.PublishedOk := by
  obtain ⟨hwf, hact⟩ := step_next he
  exact act_keeps_published (s := s.dropEvent) hwf ⟨h.ready, h.emitting⟩ hact hreset

/-- A handle of the ready queue other than the blank one is a pool handle (R272). -/
theorem State.Inv.mem_pool_of_mem_readyq (h : s.Inv) {k : Handle} (hk : k ∈ s.readyq) (hne : k ≠ s.cfg.blankHandle) :
    k ∈ s.cfg.pool := by
  have hplaces := (State.handlesOk_iff h.config).1 h.handles k hne
  have hpos := List.count_pos_iff.2 hk
  exact List.count_pos_iff.1 (by omega)

theorem step_pop {es : List Event} (hwf : s.cfg.wf = true) (hagenda : s.agenda = .pop :: es) :
    step s = popTurn { s with agenda := es } := by
  rw [step_of_wf hwf]
  simp only [State.nextEvent, State.dropEvent, hagenda, List.headD_cons, List.tail_cons, act]

theorem popTurn_of_cons {k : Handle} {q : List Handle} (hq : s.readyq = k :: q) :
    popTurn s = .next { s with readyq := q, xheld := s.xheld ++ [k] } := by
  simp only [popTurn, hq]

theorem State.transportRead_of_filled {h : Handle} {n : Nat} (hx : h ∈ s.xheld) (hn : n < s.cfg.bufWords)
    (hne : h ≠ s.cfg.blankHandle) (hf : h ∈ s.filled) : s.transportRead h n = some (s.bufWord h n) := by
  simp [State.transportRead, hx, hn, hne, hf]

/-- Settles O58: nothing is published after RESET; every step keeps what is published filled; a popped handle is the blank one or was
in the ready queue, so filled. -/
theorem publishedBuffersAreFilled : Obligations.PublishedBuffersAreFilled := by
  refine ⟨State.resetOf_published, fun _ _ => step_keeps_published, fun s h q es n hinv hpub hagenda hq hn => ?_⟩
  have hstep : step s = .next { s with agenda := es, readyq := q, xheld := s.xheld ++ [h] } :=
    (step_pop hinv.config hagenda).trans (popTurn_of_cons hq)
  have hinv' := stepKeepsInvariant s _ hinv hstep
  have hmem : h ∈ s.readyq := by rw [hq]; exact List.mem_cons_self
  have hx : h ∈ s.xheld ++ [h] := List.mem_append_right _ List.mem_cons_self
  refine ⟨_, hstep, ?_⟩
  by_cases hblank : h = s.cfg.blankHandle
  · subst hblank
    rw [if_pos rfl]
    exact hinv'.transportRead_blank hx hn
  · rw [if_neg hblank]
    exact State.transportRead_of_filled hx hn hblank (hpub.ready h hmem (hinv.mem_pool_of_mem_readyq hmem hblank))

end Sys2Proof.Machine
end

/-! ## Proofs about the interlace controller of 43_interlace_controller.md -/

section
namespace Sys2Proof.Machine

open Sys2Proof

variable {s t : State}

/-! ### EMITA and EMITB on a full ready queue; where each phase goes (R210, R211) -/

theorem execEmita_of_full (hfull : s.cfg.qrCap ≤ s.readyq.length) : execEmita s = .next s := by
  simp [execEmita, State.readyHasRoom, Nat.not_lt.2 hfull]

theorem execEmitb_of_full (hfull : s.cfg.qrCap ≤ s.readyq.length) : execEmitb s = .next s := by
  simp [execEmitb, State.readyHasRoom, Nat.not_lt.2 hfull]

/-- The phases a phase goes to when it does not wait (R176 to R192, R210 to R212). -/
def nextPhases (c : Config) : Phase → List Phase
  | .idle | .halt => []
  | .poll => [.waitfree, .halt]
  | .waitfree => [.poll, .fill, .retfree]
  | .fill | .retfree => [.emita]
  | .emita => [if c.ilace then .emitb else .adv]
  | .emitb => [.adv]
  | .adv => [.poll]

/-- A phase's step leaves `SGPHASE` as it is or takes it to one of its next phases. -/
theorem exec_phase_sgphase {p : Phase} (he : exec p.instr s = .next t) :
    t.sgphase = s.sgphase ∨ t.sgphase ∈ nextPhases s.cfg p := by
  cases p with
  | idle | halt => cases he; exact .inl rfl
  | poll =>
    cases he
    cases hexit : s.exit <;> exact .inr (by simp [nextPhases])
  | waitfree =>
    obtain ⟨-, rfl⟩ | ⟨q, -, rfl⟩ | ⟨k, q, -, -, -, rfl⟩ | ⟨k, q, -, -, -, rfl⟩ := execWaitfree_next he
    · exact .inl rfl
    all_goals exact .inr (by simp [nextPhases])
  | fill => exact (execFill_sgphase he).imp id List.mem_singleton.2
  | retfree =>
    obtain ⟨-, rfl⟩ | ⟨-, k, -, rfl⟩ := execRetfree_next he
    · exact .inl rfl
    · exact .inr List.mem_cons_self
  | emita =>
    obtain ⟨-, rfl⟩ | ⟨-, ⟨hi, k, -, rfl⟩ | ⟨hi, -, k, -, rfl⟩ | ⟨hi, -, rfl⟩⟩ := execEmita_next he
    · exact .inl rfl
    all_goals exact .inr (by simp [nextPhases, hi])
  | emitb =>
    obtain ⟨-, rfl⟩ | ⟨-, ⟨-, rfl⟩ | ⟨-, k, -, rfl⟩⟩ := execEmitb_next he
    · exact .inl rfl
    all_goals exact .inr List.mem_cons_self
  | adv => cases he; exact .inr List.mem_cons_self

/-- EMITB comes after EMITA only, and only when interlaced. -/
theorem emitb_mem_nextPhases {c : Config} {p : Phase} (h : Phase.emitb ∈ nextPhases c p) : p = .emita ∧ c.ilace = true := by
  cases p with
  | emita => simpa [nextPhases] using h
  | _ => simp [nextPhases] at h

/-- Of what writes `SGPHASE`, SGSTART and RESET go elsewhere, so EMITB is reached by EMITA's own step. -/
theorem step_to_emitb (he : step s = .next t) (hs : s.sgphase ≠ .emitb) (hemitb : t.sgphase = .emitb) :
    s.sgphase = .emita ∧ s.cfg.ilace = true := by
  obtain hkept | ⟨-, hpoll, -⟩ | hsg | ⟨-, hreset⟩ := step_sgphase he
  · exact absurd (hkept.symm.trans hemitb) hs
  · cases hpoll.symm.trans hemitb
  · obtain hkept | hnext := exec_phase_sgphase hsg
    · exact absurd (hkept.symm.trans hemitb) hs
    · exact emitb_mem_nextPhases (hemitb ▸ hnext)
  · cases hreset.symm.trans hemitb

/-- Settles O38: one equation for each branch of EMITA; the invariant says what the held line is. -/
theorem emitaPublishesTheFirstLine : Obligations.EmitaPublishesTheFirstLine :=
  ⟨fun _ => execEmita_of_full,
    fun _ hinv hphase => ((State.positionOk_iff_of_emitted (.inl hphase)).1 hinv.position).2,
    fun _ _ hheld hroom =>
      ⟨fun hi => execEmita_of_progressive hi hheld hroom, fun hi heven => execEmita_of_even hi heven hheld hroom,
        fun hi hodd => execEmita_of_odd hi hodd hroom⟩⟩

/-- Settles O39: one equation for each branch of EMITB, and `step_to_emitb`. -/
theorem emitbPublishesTheSecondLine : Obligations.EmitbPublishesTheSecondLine :=
  ⟨fun _ => execEmitb_of_full,
    fun _ _ hheld hroom => ⟨fun heven => execEmitb_of_even heven hroom, fun hodd => execEmitb_of_odd hodd hheld hroom⟩,
    fun _ _ => step_to_emitb⟩

/-! ### ADV: one equation for each case of the next line (R212) -/

section NextLine

variable {c : Config} {y : Nat} {field : Bool}

theorem nextLine_of_progressive (hi : c.ilace = false) : nextLine c y field = ((y + 1) % c.lines, field) := by
  simp [nextLine, hi]

theorem nextLine_of_within_field (hi : c.ilace = true) (hy : y + 2 < c.lines) : nextLine c y field = (y + 2, field) := by
  simp [nextLine, hi, hy]

theorem nextLine_of_field_end (hi : c.ilace = true) (hy : c.lines ≤ y + 2) :
    nextLine c y field = ((!field).toNat, !field) := by
  simp [nextLine, hi, Nat.not_lt.2 hy]

/-- The next line fits in `Y` from any line and field (R29), also where the invariant fails. -/
theorem nextLine_toNat_of_wf (hwf : c.wf = true) (y : Nat) (field : Bool) :
    (BitVec.ofNat 15 (nextLine c y field).1).toNat = (nextLine c y field).1 := by
  have hpos := Config.lines_pos hwf
  have hle := Config.lines_le hwf
  have hlt : (nextLine c y field).1 < 2 ^ 15 := by
    cases hi : c.ilace with
    | false =>
      rw [nextLine_of_progressive hi]
      exact (Nat.mod_lt _ hpos).trans_le hle
    | true =>
      obtain hy | hy := Nat.lt_or_ge (y + 2) c.lines
      · rw [nextLine_of_within_field hi hy]
        exact hy.trans_le hle
      · rw [nextLine_of_field_end hi hy]
        exact (Bool.toNat_lt _).trans (by decide)
  rw [BitVec.toNat_ofNat, Nat.mod_eq_of_lt hlt]

end NextLine

/-- ADV's step: the held handle is dropped, and `Y` and `FIELD` are `nextLine`'s. -/
theorem execAdv_of_wf (hwf : s.cfg.wf = true) :
    ∃ t, execAdv s = .next t ∧ t = { s with held := none, y := t.y, field := t.field, sgphase := .poll } ∧
      (t.y.toNat, t.field) = nextLine s.cfg s.y.toNat s.field :=
  ⟨_, rfl, rfl, Prod.ext (nextLine_toNat_of_wf hwf s.y.toNat s.field) rfl⟩

/-- Settles O40: the three cases of `nextLine`. -/
theorem advAdvancesTheLine : Obligations.AdvAdvancesTheLine := by
  intro s hwf
  obtain ⟨t, hadv, hframe, hline⟩ := execAdv_of_wf hwf
  refine ⟨t, hadv, hframe, fun hi => ?_, fun hi hy => ?_, fun hi hy => ?_⟩
  · exact Prod.ext_iff.1 (hline.trans (nextLine_of_progressive hi))
  · exact Prod.ext_iff.1 (hline.trans (nextLine_of_within_field hi hy))
  · obtain ⟨hnewLine, hnewField⟩ := Prod.ext_iff.1 (hline.trans (nextLine_of_field_end hi hy))
    exact ⟨hnewField, hnewLine.trans (congrArg Bool.toNat hnewField.symm)⟩

/-! ### The order of the lines (R214, R216) -/

/-- `Y` and `FIELD` after `k` advances from line 0 of the even field (R214): line `k mod L` when progressive; when interlaced the
first `L / 2` of every `L` advances are in the even field, the others in the odd field. -/
def lineAfter (c : Config) (k : Nat) : Nat × Bool :=
  if !c.ilace then (k % c.lines, false)
  else if k % c.lines < c.lines / 2 then (2 * (k % c.lines), false)
  else (2 * (k % c.lines - c.lines / 2) + 1, true)

section LineAfter

variable {c : Config} {k : Nat}

theorem lineAfter_of_progressive (hi : c.ilace = false) (k : Nat) : lineAfter c k = (k % c.lines, false) := by
  simp [lineAfter, hi]

theorem lineAfter_of_even (hi : c.ilace = true) (hk : k % c.lines < c.lines / 2) :
    lineAfter c k = (2 * (k % c.lines), false) := by
  simp [lineAfter, hi, hk]

theorem lineAfter_of_odd (hi : c.ilace = true) (hk : c.lines / 2 ≤ k % c.lines) :
    lineAfter c k = (2 * (k % c.lines - c.lines / 2) + 1, true) := by
  simp [lineAfter, hi, Nat.not_lt.2 hk]

theorem lineAfter_zero (hwf : c.wf = true) : lineAfter c 0 = (0, false) := by
  cases hi : c.ilace with
  | false => rw [lineAfter_of_progressive hi, Nat.zero_mod]
  | true =>
    have hpos := Config.lines_pos hwf
    have heven := Config.lines_even hwf hi
    rw [lineAfter_of_even hi (by rw [Nat.zero_mod]; omega), Nat.zero_mod]

/-- One advance goes from the `k`-th line to the next one: within a field, to the odd field after `L / 2` of every `L` advances, and
back to the even field after `L` of them. -/
theorem nextLine_lineAfter (hwf : c.wf = true) (k : Nat) :
    nextLine c (lineAfter c k).1 (lineAfter c k).2 = lineAfter c (k + 1) := by
  cases hi : c.ilace with
  | false => rw [lineAfter_of_progressive hi, lineAfter_of_progressive hi, nextLine_of_progressive hi, Nat.mod_add_mod]
  | true =>
    have heven := Config.lines_even hwf hi
    have hlt : k % c.lines < c.lines := Nat.mod_lt _ (Config.lines_pos hwf)
    obtain hwrap | hwrap : k % c.lines + 1 < c.lines ∨ k % c.lines + 1 = c.lines := by omega
    · have hsucc : (k + 1) % c.lines = k % c.lines + 1 := by rw [← Nat.mod_add_mod, Nat.mod_eq_of_lt hwrap]
      obtain hk | hk | hk : k % c.lines + 1 < c.lines / 2 ∨ k % c.lines + 1 = c.lines / 2 ∨ c.lines / 2 ≤ k % c.lines := by
        omega
      · rw [lineAfter_of_even hi (Nat.lt_of_succ_lt hk), lineAfter_of_even hi (hsucc ▸ hk), hsucc,
          nextLine_of_within_field hi (by omega), Nat.mul_succ]
      · rw [lineAfter_of_even hi (hk ▸ Nat.lt_succ_self _), lineAfter_of_odd hi (hsucc ▸ hk.ge), hsucc, hk, Nat.sub_self,
          nextLine_of_field_end hi (by omega)]
        rfl
      · rw [lineAfter_of_odd hi hk, lineAfter_of_odd hi (hsucc ▸ Nat.le_succ_of_le hk), hsucc,
          nextLine_of_within_field hi (by omega), Nat.succ_sub hk, Nat.mul_succ, Nat.add_right_comm]
    · have hsucc : (k + 1) % c.lines = 0 := by rw [← Nat.mod_add_mod, hwrap, Nat.mod_self]
      rw [lineAfter_of_odd hi (by omega), lineAfter_of_even hi (by omega), hsucc, nextLine_of_field_end hi (by omega)]
      rfl

end LineAfter

theorem runInstr_succ {i : Instr} {n : Nat} (h : exec i s = .next t) : runInstr i (n + 1) s = runInstr i n t := by
  simp only [runInstr, h]

/-- `k` advances from the `j`-th line reach the `(j + k)`-th. -/
theorem runInstr_adv (hwf : s.cfg.wf = true) {j : Nat} (hline : (s.y.toNat, s.field) = lineAfter s.cfg j) (k : Nat) :
    ∃ t, runInstr .adv k s = .next t ∧ (t.y.toNat, t.field) = lineAfter s.cfg (j + k) := by
  induction k generalizing s j with
  | zero => exact ⟨s, rfl, hline⟩
  | succ k ih =>
    obtain ⟨u, hadv, hframe, hu⟩ := execAdv_of_wf hwf
    have hcfg : u.cfg = s.cfg := by rw [hframe]
    have hnext : (u.y.toNat, u.field) = lineAfter u.cfg (j + 1) := by
      rw [hu, hcfg, ← nextLine_lineAfter hwf j, ← hline]
    rw [runInstr_succ (i := .adv) hadv, ← Nat.succ_add_eq_add_succ, ← hcfg]
    exact ih (hcfg ▸ hwf) hnext

/-- Settles O41: the run follows `lineAfter`, read off in its three cases. -/
theorem linesAreVisitedFieldByField : Obligations.LinesAreVisitedFieldByField := by
  intro s hwf hy hfield k
  have hstart : (s.y.toNat, s.field) = lineAfter s.cfg 0 := by
    rw [lineAfter_zero hwf, hy, hfield]
    rfl
  obtain ⟨t, hrun, hline⟩ := runInstr_adv hwf hstart k
  rw [Nat.zero_add] at hline
  refine ⟨t, hrun, fun hi => Prod.ext_iff.1 (hline.trans (lineAfter_of_progressive hi k)), fun hi => ?_⟩
  dsimp only
  split
  next heven => exact Prod.ext_iff.1 (hline.trans (lineAfter_of_even hi heven))
  next hodd => exact Prod.ext_iff.1 (hline.trans (lineAfter_of_odd hi (Nat.not_lt.1 hodd)))

end Sys2Proof.Machine
end

/-! ## Proofs about the system commands of 44_system_ops.md -/

section
namespace Sys2Proof.Machine

open Sys2Proof

variable {s : State}

/-! ### A field of a word that is assembled by shifts -/

theorem extract_placed {n k : Nat} (v : BitVec n) (h : k + n ≤ 32) : (v.setWidth 32 <<< k).extractLsb' k n = v := by
  apply BitVec.eq_of_getLsbD_eq
  intro j hj
  have hin : k + j < 32 ∧ j < 32 := by omega
  simp [hj, hin]

/-- `v` stands at bits `k` to `k + n - 1`: the `len` bits from `start` on, all below or all above it, are zero. -/
theorem extract_placed_apart {n k start len : Nat} (v : BitVec n) (h : start + len ≤ k ∨ k + n ≤ start) :
    (v.setWidth 32 <<< k).extractLsb' start len = 0 := by
  apply BitVec.eq_of_getLsbD_eq
  intro j hj
  rw [BitVec.getLsbD_extractLsb', BitVec.getLsbD_shiftLeft, BitVec.getLsbD_setWidth]
  obtain hbelow | habove := h
  · have hlow : start + j < k := by omega
    simp [hlow]
  · have hhigh : n ≤ start + j - k := by omega
    simp [BitVec.getLsbD_of_ge v _ hhigh]

/-- A field at bit 0 has no bit above its width. -/
theorem extract_setWidth_apart {n start len : Nat} (v : BitVec n) (h : n ≤ start) :
    (v.setWidth 32).extractLsb' start len = 0 := by
  simpa using extract_placed_apart (k := 0) (len := len) v (.inr (by omega))

/-! ### The fields of RDSTAT's response (R232): `statusResponse_err` is bit 31 -/

theorem statusResponse_count (s : State) : (statusResponse s).extractLsb' 0 9 = s.count := by
  simp [statusResponse, BitVec.extractLsb'_or, BitVec.extractLsb'_setWidth_of_le, extract_placed_apart]

theorem statusResponse_inverted (s : State) : (statusResponse s).getLsbD 9 = s.inverted := by
  simp [statusResponse]

theorem statusResponse_exit (s : State) : (statusResponse s).getLsbD 10 = s.exit := by
  simp [statusResponse]

theorem statusResponse_field (s : State) : (statusResponse s).getLsbD 11 = s.field := by
  simp [statusResponse]

theorem statusResponse_sgphase (s : State) : (statusResponse s).extractLsb' 12 4 = s.sgphase.code := by
  simp [statusResponse, BitVec.extractLsb'_or, extract_placed, extract_placed_apart, extract_setWidth_apart]

theorem statusResponse_y (s : State) : (statusResponse s).extractLsb' 16 15 = s.y := by
  simp [statusResponse, BitVec.extractLsb'_or, extract_placed, extract_placed_apart, extract_setWidth_apart]

/-- Settles O27: RDSTAT answers `statusResponse`, whose fields the lemmas above read. -/
theorem rdstatAnswersTheStatusFields : Obligations.RdstatAnswersTheStatusFields :=
  fun s => ⟨statusResponse s, rfl, statusResponse_count s, statusResponse_inverted s, statusResponse_exit s,
    statusResponse_field s, statusResponse_sgphase s, statusResponse_y s, statusResponse_err s⟩

/-! ### Reserved words, SGSTART and SGSTOP (R230, R231, R236) -/

/-- Settles O8: the host's turn (`step_host`) refuses what does not decode, on the response port only. -/
theorem reservedWordIsRefused : Obligations.ReservedWordIsRefused := by
  intro s w es r hwf hc hagenda hdecode
  rw [step_host hwf hagenda, hostTurn_of_error (by exact hc) hdecode, State.refuseCommand, State.respond, errResponse]

theorem execSgstart_of_idle (hidle : s.sgphase = .idle) :
    execSgstart s = .next { s with sgphase := .poll, rsp := s.rsp ++ [0] } := by
  rw [execSgstart, if_pos hidle, State.respond, noResult]

theorem execSgstart_of_ne_idle (hphase : s.sgphase ≠ .idle) : execSgstart s = .next { s with rsp := s.rsp ++ [0] } := by
  rw [execSgstart, if_neg hphase, State.respond, noResult]

/-- Settles O25: one equation of SGSTART for each case. -/
theorem sgstartStartsOnlyFromIdle : Obligations.SgstartStartsOnlyFromIdle :=
  fun _ => ⟨execSgstart_of_idle, execSgstart_of_ne_idle⟩

/-- Settles O26: SGSTOP's state is its definition's; every command keeps `EXIT` or is SGSTOP (`exec_command_exit`). -/
theorem sgstopRaisesExit : Obligations.SgstopRaisesExit := by
  refine ⟨fun _ => rfl, fun s t i w hi hexec hexit => ?_⟩
  obtain hkept | ⟨-, hraised⟩ := exec_command_exit hi hexec
  · exact hkept.trans hexit
  · exact hraised

end Sys2Proof.Machine
end

/-! ## Proofs about the drawing layer of 45_color_interception.md -/

section
namespace Sys2Proof.Machine

open Sys2Proof

variable {s t : State}

/-! ### Canvas writes that are clipped (R245, R63) -/

theorem inCanvas_iff {c : Config} {x y : Nat} : inCanvas c x y = true ↔ x < c.canvasWidth ∧ y < c.canvasHeight := by
  simp [inCanvas]

theorem State.clippedWrite_of_inside {x y : Nat} (b : Byte) (hin : inCanvas s.cfg x y = true) :
    s.clippedWrite x y b = s.canvasWrite x y b := if_pos hin

theorem State.clippedWrite_of_outside {x y : Nat} (b : Byte) (hout : ¬ inCanvas s.cfg x y = true) :
    s.clippedWrite x y b = s := if_neg hout

theorem State.clippedWrite_frame (s : State) (x y : Nat) (b : Byte) :
    s.clippedWrite x y b = { s with canvas := (s.clippedWrite x y b).canvas } := by
  unfold State.clippedWrite
  split <;> rfl

@[simp] theorem State.clippedWrite_cfg (s : State) (x y : Nat) (b : Byte) : (s.clippedWrite x y b).cfg = s.cfg := by
  rw [State.clippedWrite_frame]

theorem State.clippedWrite_keeps_canvas_wf (hw : Memory.wf s.canvas = true) (x y : Nat) (b : Byte) :
    Memory.wf (s.clippedWrite x y b).canvas = true := by
  by_cases hin : inCanvas s.cfg x y = true
  · rw [State.clippedWrite_of_inside b hin]
    exact Memory.wf_write _ b hw
  · rwa [State.clippedWrite_of_outside b hin]

/-- A cell of the canvas after a clipped write: a write outside the canvas is to no cell. -/
theorem State.canvasRead_clippedWrite (hw : Memory.wf s.canvas = true) (x y : Nat) (b : Byte) {u v : Nat}
    (hcell : inCanvas s.cfg u v = true) :
    (s.clippedWrite x y b).canvasRead v u = if (u, v) = (x, y) then b else s.canvasRead v u := by
  by_cases hin : inCanvas s.cfg x y = true
  · simp only [State.clippedWrite_of_inside b hin, Prod.mk.injEq]
    exact State.canvasRead_canvasWrite hw b (inCanvas_iff.1 hin).1 (inCanvas_iff.1 hcell).1
  · have hne : (u, v) ≠ (x, y) := by
      rintro ⟨⟩
      exact hin hcell
    rw [State.clippedWrite_of_outside b hin, if_neg hne]

@[simp] theorem State.drawAll_cons (s : State) (p : Nat × Nat) (ps : List (Nat × Nat)) (b : Byte) :
    s.drawAll (p :: ps) b = (s.clippedWrite p.1 p.2 b).drawAll ps b := rfl

/-- Drawing changes the canvas alone. -/
theorem State.drawAll_frame (s : State) (ps : List (Nat × Nat)) (b : Byte) :
    s.drawAll ps b = { s with canvas := (s.drawAll ps b).canvas } := by
  induction ps generalizing s with
  | nil => rfl
  | cons p ps ih => rw [State.drawAll_cons, ih, State.clippedWrite_frame]

/-- A cell of the canvas after drawing: the byte drawn when the cell is one of the positions. -/
theorem State.canvasRead_drawAll (hw : Memory.wf s.canvas = true) (ps : List (Nat × Nat)) (b : Byte) {u v : Nat}
    (hcell : inCanvas s.cfg u v = true) :
    (s.drawAll ps b).canvasRead v u = if (u, v) ∈ ps then b else s.canvasRead v u := by
  induction ps generalizing s with
  | nil => rfl
  | cons p ps ih =>
    have hrest := ih (State.clippedWrite_keeps_canvas_wf hw p.1 p.2 b) (by rwa [State.clippedWrite_cfg])
    rw [State.drawAll_cons, hrest, State.canvasRead_clippedWrite hw p.1 p.2 b hcell]
    by_cases hlater : (u, v) ∈ ps <;> simp [hlater]

/-! ### The positions of each call (R246 to R248) -/

theorem mem_hline_iff {x y n u v : Nat} :
    (u, v) ∈ (List.range n).map (fun k => (x + k, y)) ↔ v = y ∧ x ≤ u ∧ u < x + n := by
  simp only [List.mem_map, List.mem_range, Prod.mk.injEq]
  constructor
  · rintro ⟨k, hk, rfl, rfl⟩
    omega
  · rintro ⟨rfl, hle, hlt⟩
    exact ⟨u - x, by omega, by omega, rfl⟩

theorem mem_vline_iff {x y n u v : Nat} :
    (u, v) ∈ (List.range n).map (fun k => (x, y + k)) ↔ u = x ∧ y ≤ v ∧ v < y + n := by
  simp only [List.mem_map, List.mem_range, Prod.mk.injEq]
  constructor
  · rintro ⟨k, hk, rfl, rfl⟩
    omega
  · rintro ⟨rfl, hle, hlt⟩
    exact ⟨v - y, by omega, rfl, by omega⟩

theorem mem_canvasCells_iff {c : Config} {x y : Nat} : (x, y) ∈ canvasCells c ↔ inCanvas c x y = true := by
  simp [canvasCells, inCanvas, and_comm]

/-! ### A command run to its response (R100, R104) -/

theorem runCommand_of_exec {i : Instr} (hc : s.cmd = none) (he : exec i s = .next t) :
    runCommand i s = .next t.finish := by
  simp [runCommand, hc, he]

/-- A command run to its response leaves the generator and the environment alone (R73). -/
theorem runCommand_sameGenerator {i : Instr} {w : Word} (hi : encode i = .command w) (he : exec i s = .next t) :
    SameGenerator s t.finish :=
  (exec_command_sameGenerator hi he).trans t.finish_sameGenerator

theorem State.lastResponse_of_rsp {ws : List Word} {w : Word} (h : s.rsp = ws ++ [w]) : s.lastResponse = w := by
  simp [State.lastResponse, h]

@[simp] theorem responseIndex_indexResponse (i : PalIndex) (e : Bool) : responseIndex (indexResponse i e) = i := by
  obtain ⟨-, hindex, -⟩ := indexResponse_fields i e
  exact hindex

@[simp] theorem responseColour_setWidth (c : Colour) : responseColour (c.setWidth 32) = c := by
  simpa [responseColour] using extract_placed (k := 0) c (by omega)

/-! ### The colour is mapped first (R130, R245) -/

/-- Slot `i` holds the colour `c`, or one that agrees with it under one of the masks of R133. -/
def State.StandsFor (s : State) (i : PalIndex) (c : Colour) : Prop :=
  palGet s.color i = c ∨ ∃ k, 1 ≤ k ∧ k ≤ 3 ∧ SameUnder k (palGet s.color i) c

theorem State.exactMatch_palGet {c : Colour} {n : Nat} (h : s.exactMatch c = some n) :
    n < s.count.toNat ∧ n < 256 ∧ palGet s.color (BitVec.ofNat 8 n) = c := by
  obtain ⟨huse, hn, hcolour, -⟩ := (s.search_some _ n).1 h
  exact ⟨huse, hn, eq_of_beq hcolour⟩

theorem State.maskedMatch_sameUnder {c : Colour} {k n : Nat} (h : s.maskedMatch k c = some n) :
    SameUnder k (palGet s.color (BitVec.ofNat 8 n)) c := by
  obtain ⟨-, -, hmask, -⟩ := (s.search_some _ n).1 h
  exact eq_of_beq hmask

/-- The similarity search answers what the masked search finds at one of its tolerances (R133). -/
theorem State.similarMatch_some {c : Colour} {n : Nat} (h : s.similarMatch c = some n) :
    ∃ k, 1 ≤ k ∧ k ≤ 3 ∧ SameUnder k (palGet s.color (BitVec.ofNat 8 n)) c := by
  unfold State.similarMatch at h
  split at h
  next h1 => cases h; exact ⟨1, by omega, by omega, State.maskedMatch_sameUnder h1⟩
  next =>
    split at h
    next h2 => cases h; exact ⟨2, by omega, by omega, State.maskedMatch_sameUnder h2⟩
    next => exact ⟨3, by omega, by omega, State.maskedMatch_sameUnder h⟩

/-- The index COL2IDX answers stands for the colour asked for (R130 to R134). -/
theorem execCol2idx_standsFor {c : Colour} (hc : s.cmd = none) (he : execCol2idx c s = .next t) :
    ∃ w, t.finish.rsp = s.rsp ++ [w] ∧ t.finish.StandsFor (responseIndex w) c := by
  obtain ⟨n, hexact, rfl⟩ | ⟨-, -, rfl⟩ | ⟨-, -, n, hsim, rfl⟩ | ⟨-, -, -, rfl⟩ := execCol2idx_next he
  · obtain ⟨-, -, hcolour⟩ := State.exactMatch_palGet hexact
    rw [State.finish_of_none _ (by exact hc)]
    exact ⟨_, rfl, .inl (by simpa using hcolour)⟩
  · exact ⟨_, rfl, .inl (by simp [State.finish_storeEntry])⟩
  · rw [State.finish_of_none _ (by exact hc)]
    exact ⟨_, rfl, .inr (by simpa using State.similarMatch_some hsim)⟩
  · exact ⟨_, rfl, .inl (by simp [State.finish_storeEntry])⟩

theorem withIndex_of_exec {c : Colour} {w : Word} (k : PalIndex → State → State) (hc : s.cmd = none)
    (he : execCol2idx c s = .next t) (hrsp : t.finish.rsp = s.rsp ++ [w]) :
    withIndex c k s = .next (k (responseIndex w) t.finish) := by
  simp only [withIndex, runCommand_of_exec hc (show exec (.col2idx c) s = .next t from he), State.lastResponse_of_rsp hrsp]

/-- A call that maps a colour and draws the index answered at some positions: one response, whose index stands for the colour, and
exactly the positions inside the canvas hold it. -/
theorem withIndex_drawAll (c : Colour) (ps : List (Nat × Nat)) (hc : s.cmd = none) (hw : Memory.wf s.canvas = true) :
    ∃ t w, withIndex c (fun i t => t.drawAll ps i) s = .next t ∧ t.rsp = s.rsp ++ [w] ∧
      t.StandsFor (responseIndex w) c ∧
      ∀ u v, u < s.cfg.canvasWidth → v < s.cfg.canvasHeight →
        t.canvasRead v u = if (u, v) ∈ ps then responseIndex w else s.canvasRead v u := by
  obtain ⟨t, he⟩ := execCol2idx_answers c s
  obtain ⟨w, hrsp, hstands⟩ := execCol2idx_standsFor hc he
  have hgen : SameGenerator s t.finish := runCommand_sameGenerator (i := .col2idx c) rfl he
  have hframe := t.finish.drawAll_frame ps (responseIndex w)
  refine ⟨_, w, withIndex_of_exec _ hc he hrsp, ?_, ?_, fun u v hu hv => ?_⟩
  · rw [hframe, hrsp]
  · rw [hframe]
    exact hstands
  · have hcell : inCanvas t.finish.cfg u v = true := by
      rw [hgen.cfg]
      exact inCanvas_iff.2 ⟨hu, hv⟩
    rw [State.canvasRead_drawAll (by rwa [hgen.canvas]) ps _ hcell, State.canvasRead, hgen.canvas, hgen.cfg]
    rfl

/-! ### The calls that draw a pixel or a line (R245, R247, R248) -/

/-- Settles O51: a pixel is drawn as a list of one position. -/
theorem drawPixelMapsThenWrites : Obligations.DrawPixelMapsThenWrites := by
  intro s x y c hc hw
  obtain ⟨t, w, hrun, hrsp, hstands, hread⟩ := withIndex_drawAll c [(x, y)] hc hw
  refine ⟨t, w, hrun, hrsp, hstands, fun hin => ?_, fun u v hu hv hother => ?_⟩
  · obtain ⟨hx, hy⟩ := inCanvas_iff.1 hin
    rw [hread x y hx hy, if_pos (List.mem_singleton_self _)]
  · have hne : (u, v) ∉ [(x, y)] := by
      rw [List.mem_singleton]
      rintro ⟨⟩
      exact hother ⟨inCanvas_iff.2 ⟨hu, hv⟩, rfl, rfl⟩
    rw [hread u v hu hv, if_neg hne]

/-- Settles O52: each line is drawn as the list of its positions (`mem_hline_iff`, `mem_vline_iff`). -/
theorem fastLinesMapOnce : Obligations.FastLinesMapOnce := by
  intro s x y n c hc hw
  constructor
  · obtain ⟨t, w, hrun, hrsp, hstands, hread⟩ := withIndex_drawAll c ((List.range n).map fun k => (x + k, y)) hc hw
    exact ⟨t, w, hrun, hrsp, hstands, fun u v hu hv => by simp only [hread u v hu hv, mem_hline_iff]⟩
  · obtain ⟨t, w, hrun, hrsp, hstands, hread⟩ := withIndex_drawAll c ((List.range n).map fun k => (x, y + k)) hc hw
    exact ⟨t, w, hrun, hrsp, hstands, fun u v hu hv => by simp only [hread u v hu hv, mem_vline_iff]⟩

/-! ### fillScreen (R246) -/

/-- PALRESET run to its response (R136, R137). -/
theorem runCommand_palreset (hc : s.cmd = none) :
    ∃ t, runCommand .palreset s = .next t ∧ t.cmd = none ∧ t.inverted = false ∧ t.count = 16 ∧
      t.color = resetColors s.cfg ∧ SameGenerator s t := by
  refine ⟨_, runCommand_of_exec hc rfl, State.finish_cmd _, ?_, ?_, ?_, runCommand_sameGenerator (i := .palreset) rfl rfl⟩
  all_goals rw [State.finish_startCommand_frame]

/-- After PALRESET the colours in use are the standard ones. -/
theorem State.absent_iff_of_reset {c : Colour} (hcolor : s.color = resetColors s.cfg) (hcount : s.count = 16) :
    s.Absent c ↔ c ∉ s.cfg.std16.toList := by
  have hstd (i : PalIndex) (hi : i.toNat < 16) : palGet s.color i = s.cfg.std16[i.toNat] := by
    rw [hcolor, palGet_resetColors, dif_pos hi]
  have h16 : s.count.toNat = 16 := by rw [hcount]; rfl
  rw [Vector.mem_toList_iff, Vector.mem_iff_getElem, State.Absent, h16]
  constructor
  · rintro habsent ⟨n, hn, rfl⟩
    have hi : (BitVec.ofNat 8 n).toNat = n := standardIndex_toNat ⟨n, hn⟩
    exact habsent (BitVec.ofNat 8 n) (by omega) (by simp only [hstd _ (hi.trans_lt hn), hi])
  · intro hnone i hi hcolour
    exact hnone ⟨i.toNat, hi, (hstd i hi).symm.trans hcolour⟩

/-- COL2IDX right after PALRESET answers a standard colour's own index, and appends any other at index 16 (R131, R132). -/
theorem execCol2idx_of_reset (c : Colour) (hc : s.cmd = none) (hcolor : s.color = resetColors s.cfg) (hcount : s.count = 16) :
    ∃ t, ∃ i : PalIndex, execCol2idx c s = .next t ∧ t.finish.rsp = s.rsp ++ [indexResponse i false] ∧
      t.finish.inverted = s.inverted ∧ palGet t.finish.color i = c ∧
      (c ∈ s.cfg.std16.toList → t.finish.count = 16 ∧ i.toNat < 16) ∧
      (c ∉ s.cfg.std16.toList → t.finish.count = 17 ∧ i = 16) := by
  obtain ⟨t, he⟩ := execCol2idx_answers c s
  have hmem := State.absent_iff_of_reset (c := c) hcolor hcount
  have h16 : s.count.toNat = 16 := by rw [hcount]; rfl
  refine ⟨t, ?_⟩
  obtain ⟨n, hexact, rfl⟩ | ⟨hexact, -, rfl⟩ | ⟨-, hfull, -⟩ | ⟨-, hfull, -⟩ := execCol2idx_next he
  · obtain ⟨hn, -, hcolour⟩ := State.exactMatch_palGet hexact
    have hi : (BitVec.ofNat 8 n).toNat = n := standardIndex_toNat ⟨n, by omega⟩
    have hknown : c ∈ s.cfg.std16.toList := by
      by_contra hnot
      exact hmem.2 hnot (BitVec.ofNat 8 n) (by omega) hcolour
    rw [State.finish_of_none _ (by exact hc)]
    exact ⟨_, he, rfl, rfl, hcolour, fun _ => ⟨hcount, by omega⟩, absurd hknown⟩
  · have hnew : c ∉ s.cfg.std16.toList := hmem.1 ((s.exactMatch_none c).1 hexact)
    refine ⟨_, he, rfl, rfl, palGet_palSet_same _ _ _, fun hknown => absurd hknown hnew, fun _ => ?_⟩
    rw [State.finish_storeEntry, hcount]
    exact ⟨rfl, rfl⟩
  all_goals omega

/-- Settles O53: PALRESET, then COL2IDX on the reset palette (`execCol2idx_of_reset`), then every cell of the canvas. -/
theorem fillScreenLeavesOneColour : Obligations.FillScreenLeavesOneColour := by
  intro s c hc hw
  obtain ⟨r, hreset, hrcmd, hinv, hcount, hcolor, hgen⟩ := runCommand_palreset hc
  rw [← hgen.cfg] at hcolor
  obtain ⟨t, i, he, hrsp, htinv, hi, hknown, hnew⟩ := execCol2idx_of_reset c hrcmd hcolor hcount
  have hgen' : SameGenerator s t.finish := hgen.trans (runCommand_sameGenerator (i := .col2idx c) rfl he)
  have hfill : fillScreen c s = .next (t.finish.drawAll (canvasCells t.finish.cfg) i) := by
    simp only [fillScreen, hreset, withIndex_of_exec _ hrcmd he hrsp, responseIndex_indexResponse]
  have hframe := t.finish.drawAll_frame (canvasCells t.finish.cfg) i
  rw [hgen.cfg] at hknown hnew
  refine ⟨_, i, hfill, ?_, ?_, ?_, ?_, fun x y hx hy => ?_⟩
  · rw [hframe, htinv, hinv]
  · rw [hframe, hi]
  · rw [hframe]
    exact hknown
  · rw [hframe]
    exact hnew
  · have hcell : inCanvas t.finish.cfg x y = true := by
      rw [hgen'.cfg]
      exact inCanvas_iff.2 ⟨hx, hy⟩
    rw [State.canvasRead_drawAll (by rwa [hgen'.canvas]) _ i hcell, if_pos (mem_canvasCells_iff.2 hcell)]

/-! ### getPixel (R249) -/

/-- Settles O54: inside the canvas IDX2COL's response carries the stored colour (`idx2colAnswersTheStoredColour`). -/
theorem getPixelReadsTheStoredColour : Obligations.GetPixelReadsTheStoredColour := by
  intro s x y
  constructor
  · intro hout
    simp [getPixel, hout]
  · intro hin hc
    have hrun := runCommand_of_exec hc (idx2colAnswersTheStoredColour s (s.canvasRead y x))
    rw [State.finish_of_none _ (by exact hc)] at hrun
    simp [getPixel, hin, hrun, State.lastResponse]

end Sys2Proof.Machine
end

/-! ## Proofs about the exceptions and the environment of 60_exceptions.md -/

section
namespace Sys2Proof.Machine

open Sys2Proof

variable {s : State}

/-! ### Every phase of the sequencer takes its step (R32, R182, R260) -/

theorem execWaitfree_answers (s : State) : ∃ t, execWaitfree s = .next t := by
  unfold execWaitfree
  split
  · exact ⟨_, rfl⟩
  · split_ifs <;> exact ⟨_, rfl⟩

/-- A column with a pool buffer held ends inside the buffer, and a row inside the canvas has a byte to read (R182). -/
theorem execFill_answers {k : Handle} (hheld : s.held = some k) (hpool : k ∈ s.cfg.pool)
    (hy : s.y.toNat < s.cfg.canvasHeight) (hx : s.x < s.cfg.activeWidth) : ∃ t, execFill s = .next t := by
  cases hsub : s.fsub with
  | idx =>
    obtain hrow | hpad := Nat.lt_or_ge s.x s.cfg.canvasWidth
    · exact ⟨_, execFill_of_idx hsub hrow hy⟩
    · exact ⟨_, (execFill_of_padding hsub hpad).trans (State.fillColumn_of hheld hpool hx)⟩
  | red => exact ⟨_, execFill_of_red hsub⟩
  | grn => exact ⟨_, execFill_of_grn hsub⟩
  | blu => exact ⟨_, (execFill_of_blu hsub).trans (State.fillColumn_of hheld hpool hx)⟩

theorem execRetfree_answers {k : Handle} (hheld : s.held = some k) : ∃ t, execRetfree s = .next t := by
  obtain hroom | hfull := Nat.lt_or_ge s.freeq.length s.cfg.qfCap
  · exact ⟨_, execRetfree_of_room hheld hroom⟩
  · exact ⟨_, execRetfree_of_full hfull⟩

theorem execEmita_answers {k : Handle} (hheld : s.held = some k) : ∃ t, execEmita s = .next t := by
  obtain hroom | hfull := Nat.lt_or_ge s.readyq.length s.cfg.qrCap
  · cases hi : s.cfg.ilace with
    | false => exact ⟨_, execEmita_of_progressive hi hheld hroom⟩
    | true =>
      cases hfield : s.field with
      | false => exact ⟨_, execEmita_of_even hi hfield hheld hroom⟩
      | true => exact ⟨_, execEmita_of_odd hi hfield hroom⟩
  · exact ⟨_, execEmita_of_full hfull⟩

theorem execEmitb_answers {k : Handle} (hheld : s.held = some k) : ∃ t, execEmitb s = .next t := by
  obtain hroom | hfull := Nat.lt_or_ge s.readyq.length s.cfg.qrCap
  · cases hfield : s.field with
    | false => exact ⟨_, execEmitb_of_even hfield hroom⟩
    | true => exact ⟨_, execEmitb_of_odd hfield hheld hroom⟩
  · exact ⟨_, execEmitb_of_full hfull⟩

/-- What the invariant says of `HELD`, `X` and `Y` in a phase is what the phase needs. -/
theorem exec_phase_answers (h : s.Inv) : ∃ t, exec s.sgphase.instr s = .next t := by
  have hposition := h.position
  cases hphase : s.sgphase with
  | idle | poll | adv | halt => exact ⟨_, rfl⟩
  | waitfree => exact execWaitfree_answers s
  | fill =>
    obtain ⟨-, ⟨k, hpool, hheld⟩, hy, hx, -⟩ := (State.positionOk_iff_of_fill hphase).1 hposition
    exact execFill_answers hheld hpool hy hx
  | retfree =>
    obtain ⟨-, ⟨k, -, hheld⟩, -⟩ := (State.positionOk_iff_of_retfree hphase).1 hposition
    exact execRetfree_answers hheld
  | emita =>
    obtain ⟨-, k, hheld, -⟩ := (State.positionOk_iff_of_emitted (.inl hphase)).1 hposition
    exact execEmita_answers hheld
  | emitb =>
    obtain ⟨-, -, k, hheld, -⟩ := (State.positionOk_iff_of_emitb hphase).1 hposition
    exact execEmitb_answers hheld

/-! ### Which turns fault (R62, R260) -/

theorem hostTurn_ne_fault (w : Word) (f : Fault) : hostTurn w s ≠ .fault f := by
  cases hc : s.cmd with
  | some c => simp [hostTurn, hc]
  | none =>
    cases hdecode : decode (.command w) with
    | error r => simp [hostTurn_of_error hc hdecode]
    | ok i =>
      obtain ⟨t, v, he, -, -⟩ := exec_command_accepted (decode_eq_ok_iff.1 hdecode) hc
      simp [hostTurn_of_ok hc hdecode, he]

theorem popTurn_ne_fault (f : Fault) : popTurn s ≠ .fault f := by
  unfold popTurn
  split <;> simp

theorem pushTurn_ne_fault (k : Handle) (f : Fault) : pushTurn k s ≠ .fault f := by
  unfold pushTurn
  split_ifs <;> simp

theorem resetTurn_ne_fault (f : Fault) : resetTurn s ≠ .fault f := by
  unfold resetTurn
  split_ifs <;> simp

theorem drawTurn_of_inside {x y : Nat} (b : Byte) (hin : inCanvas s.cfg x y = true) :
    drawTurn x y b s = .next (s.canvasWrite x y b) := if_pos hin

theorem drawTurn_fault_iff {x y : Nat} {b : Byte} {f : Fault} :
    drawTurn x y b s = .fault f ↔ f = .outsideCanvas ∧ inCanvas s.cfg x y = false := by
  cases hin : inCanvas s.cfg x y <;> simp [drawTurn, hin, eq_comm]

/-- Of all parties' turns only the drawing layer's can fault. -/
theorem act_fault_iff {e : Event} {f : Fault} (h : s.Inv) :
    act e s = .fault f ↔ f = .outsideCanvas ∧ ∃ x y b, e = .draw x y b ∧ inCanvas s.cfg x y = false := by
  cases e with
  | host w => simp [act, hostTurn_ne_fault]
  | agent k => simp [act]
  | sg =>
    obtain ⟨t, he⟩ := exec_phase_answers h
    simp [act, he]
  | pop => simp [act, popTurn_ne_fault]
  | push k => simp [act, pushTurn_ne_fault]
  | draw x y b => simp [act, drawTurn_fault_iff]
  | reset => simp [act, resetTurn_ne_fault]

/-- Settles O4: a step is a party's turn, every command is accepted, and the invariant gives each phase what it needs
(`exec_phase_answers`), so that the drawing layer's turn is left. -/
theorem onlyADrawOutsideTheCanvasFaults : Obligations.OnlyADrawOutsideTheCanvasFaults := by
  intro s f h
  rw [step_of_wf h.config]
  exact act_fault_iff h.dropEvent

/-! ### Exhaustion is reported by COL2IDX (R104, R261) -/

/-- COL2IDX answers an index, with `EXH` exactly when an append is not possible and neither search finds an entry. -/
theorem execCol2idx_exhaustion (c : Colour) (hc : s.cmd = none) :
    ∃ t i e, execCol2idx c s = .next t ∧ t.finish.rsp = s.rsp ++ [indexResponse i e] ∧
      (e = true ↔ 255 ≤ s.count.toNat ∧ s.exactMatch c = none ∧ s.similarMatch c = none) ∧ (e = true → i = 255) := by
  obtain ⟨t, he⟩ := execCol2idx_answers c s
  refine ⟨t, ?_⟩
  obtain ⟨n, hexact, rfl⟩ | ⟨-, hroom, rfl⟩ | ⟨-, -, n, hsim, rfl⟩ | ⟨hexact, hfull, hsim, rfl⟩ := execCol2idx_next he
  · rw [State.finish_of_none _ (by exact hc)]
    exact ⟨_, _, he, rfl, by simp [hexact], by simp⟩
  · exact ⟨_, _, he, rfl, by simp [hroom], by simp⟩
  · rw [State.finish_of_none _ (by exact hc)]
    exact ⟨_, _, he, rfl, by simp [hsim], by simp⟩
  · exact ⟨_, _, he, rfl, by simp [hexact, hfull, hsim], fun _ => rfl⟩

/-- Settles O17: bit 8 of the response is `EXH`, and a search that finds nothing says that no entry in use matches. -/
theorem exhaustionIsReportedExactlyOnOverwrite : Obligations.ExhaustionIsReportedExactlyOnOverwrite := by
  intro s c hc
  obtain ⟨t, i, e, he, hrsp, hexh, hlast⟩ := execCol2idx_exhaustion c hc
  obtain ⟨hbit, hindex, hupper⟩ := indexResponse_fields i e
  rw [State.exactMatch_none, State.similarMatch_none] at hexh
  refine ⟨t, _, he, hrsp, ?_, ?_, hupper⟩
  · rw [hbit]
    exact hexh
  · rw [hbit, hindex]
    exact hlast

/-! ### The drawing layer and the transport (R273, R274) -/

theorem step_draw {x y : Nat} {b : Byte} {es : List Event} (hwf : s.cfg.wf = true)
    (hagenda : s.agenda = .draw x y b :: es) : step s = drawTurn x y b { s with agenda := es } := by
  rw [step_of_wf hwf]
  simp only [State.nextEvent, State.dropEvent, hagenda, List.headD_cons, List.tail_cons, act]

theorem step_push {k : Handle} {es : List Event} (hwf : s.cfg.wf = true) (hagenda : s.agenda = .push k :: es) :
    step s = pushTurn k { s with agenda := es } := by
  rw [step_of_wf hwf]
  simp only [State.nextEvent, State.dropEvent, hagenda, List.headD_cons, List.tail_cons, act]

theorem pushTurn_of_room {k : Handle} (hk : k ∈ s.xheld) (hroom : s.freeq.length < s.cfg.qfCap) :
    pushTurn k s = .next { s with freeq := s.freeq ++ [k], xheld := s.xheld.erase k } := by
  simp [pushTurn, hk, State.freeHasRoom, hroom, State.freePush]

theorem pushTurn_of_full {k : Handle} (hk : k ∈ s.xheld) (hfull : s.cfg.qfCap ≤ s.freeq.length) :
    pushTurn k s = .next s := by
  simp [pushTurn, hk, State.freeHasRoom, hfull]

/-- Settles O50: inside the canvas the turn is one canvas write, whose reads `State.canvasRead_canvasWrite` gives. -/
theorem canvasWriteIsReadBack : Obligations.CanvasWriteIsReadBack := by
  intro s x y b es hwf hw hagenda hx hy
  have hin : inCanvas s.cfg x y = true := inCanvas_iff.2 ⟨hx, hy⟩
  have hread {u v : Nat} (hu : u < s.cfg.canvasWidth) :=
    State.canvasRead_canvasWrite (s := { s with agenda := es }) (y := y) (v := v) hw b hx hu
  refine ⟨_, (step_draw hwf hagenda).trans (drawTurn_of_inside b hin), rfl, ?_, fun u v hu _ hother => ?_⟩
  · rw [hread hx, if_pos ⟨rfl, rfl⟩]
  · rw [hread hu, if_neg hother]
    rfl

/-- Settles O49: one equation for the pop, and one for the push with and without room. -/
theorem transportMovesHandles : Obligations.TransportMovesHandles := by
  intro s h es hwf
  refine ⟨fun q hagenda hq => ?_, fun hagenda hx hroom => ?_, fun hagenda hx hfull => ?_⟩
  · exact (step_pop hwf hagenda).trans (popTurn_of_cons hq)
  · exact (step_push hwf hagenda).trans (pushTurn_of_room hx hroom)
  · exact (step_push hwf hagenda).trans (pushTurn_of_full hx hfull)

end Sys2Proof.Machine
end

/-! ## Proofs about reset and hazards of 70_reset_and_hazards.md -/

section
namespace Sys2Proof.Machine

open Sys2Proof

variable {s t : State}

/-! ### The turn of RESET (R290, R294) -/

theorem step_reset {es : List Event} (hwf : s.cfg.wf = true) (hagenda : s.agenda = .reset :: es) :
    step s = resetTurn { s with agenda := es } := by
  rw [step_of_wf hwf]
  simp only [State.nextEvent, State.dropEvent, hagenda, List.headD_cons, List.tail_cons, act]

theorem resetTurn_of_none (hc : s.cmd = none) : resetTurn s = .next s.applyReset := by
  simp [resetTurn, hc]

theorem State.resetOf_triplet (c : Config) (i : PalIndex) :
    (State.resetOf c).triplet i =
      if h : i.toNat < 16 then encodeTriplet c.tmdsLut c.std16[i.toNat] false else ⟨0, 0, 0⟩ := resetTriplet_eq c i

/-- The block's rows of R294, under any parameters. -/
theorem State.resetOf_isReset (c : Config) : (State.resetOf c).IsReset where
  standardColours i := by
    refine (palGet_resetColors c _).trans ?_
    simp only [standardIndex_toNat, i.isLt, dif_pos]
    rfl
  otherColours i hi := (palGet_resetColors c i).trans (dif_neg (Nat.not_lt.2 hi))
  standardTriplets i := by
    rw [State.resetOf_triplet]
    simp only [standardIndex_toNat, i.isLt, dif_pos]
    rfl
  otherTriplets i hi := (State.resetOf_triplet c i).trans (dif_neg (Nat.not_lt.2 hi))
  count := rfl
  inverted := rfl
  blank := rfl
  sgphase := rfl
  y := rfl
  x := rfl
  fsub := rfl
  held := rfl
  exit := rfl
  field := rfl

/-- RESET sets the block's rows as `State.resetOf` does; the fields it keeps are none of them. -/
theorem State.applyReset_isReset (s : State) : s.applyReset.IsReset := { State.resetOf_isReset s.cfg with }

/-- Settles O1: with no command in progress the turn of RESET is `State.applyReset`, which keeps the parameters, the memories and the
queues. -/
theorem resetGivesTheResetTable : Obligations.ResetGivesTheResetTable := by
  refine ⟨State.resetOf_isReset _, fun s es hwf hc hagenda => ?_⟩
  exact ⟨_, (step_reset hwf hagenda).trans (resetTurn_of_none hc), State.applyReset_isReset _, rfl, rfl, rfl, rfl, rfl, rfl⟩

/-! ### Which turns are refused (R290, R300; U16, U17, U18) -/

theorem State.fillColumn_ne_refused (tr : Triplet) (r : Refusal) : s.fillColumn tr ≠ .refused r := by
  unfold State.fillColumn
  split
  · simp
  · split_ifs <;> simp

theorem State.emitHeld_ne_refused (p : Phase) (r : Refusal) : s.emitHeld p ≠ .refused r := by
  unfold State.emitHeld
  split <;> simp

theorem execFill_ne_refused (r : Refusal) : execFill s ≠ .refused r := by
  unfold execFill
  split
  case h_1 => split_ifs <;> simp [State.fillColumn_ne_refused]
  case h_2 => simp
  case h_3 => simp
  case h_4 => exact State.fillColumn_ne_refused _ r

theorem execRetfree_ne_refused (r : Refusal) : execRetfree s ≠ .refused r := by
  unfold execRetfree
  split_ifs
  · split <;> simp
  · simp

theorem execEmita_ne_refused (r : Refusal) : execEmita s ≠ .refused r := by
  unfold execEmita
  split_ifs <;> simp [State.emitHeld_ne_refused, State.emitBlank]

theorem execEmitb_ne_refused (r : Refusal) : execEmitb s ≠ .refused r := by
  unfold execEmitb
  split_ifs <;> simp [State.emitHeld_ne_refused, State.emitBlank]

/-- No phase's step is refused, from any state. -/
theorem exec_phase_ne_refused (p : Phase) (r : Refusal) : exec p.instr s ≠ .refused r := by
  cases p with
  | idle | poll | adv | halt => intro he; cases he
  | waitfree =>
    obtain ⟨t, hnext⟩ := execWaitfree_answers s
    intro he
    cases hnext.symm.trans he
  | fill => exact execFill_ne_refused r
  | retfree => exact execRetfree_ne_refused r
  | emita => exact execEmita_ne_refused r
  | emitb => exact execEmitb_ne_refused r

/-- The host's turn is refused exactly when a command is in progress: every command that is presented in time is accepted (R100, U17). -/
theorem hostTurn_refused_iff {w : Word} {r : Refusal} :
    hostTurn w s = .refused r ↔ r = .commandBeforeResponse ∧ s.cmd ≠ none := by
  cases hc : s.cmd with
  | some c => simp [hostTurn, hc, eq_comm]
  | none =>
    cases hdecode : decode (.command w) with
    | error e => simp [hostTurn_of_error hc hdecode]
    | ok i =>
      obtain ⟨t, v, he, -, -⟩ := exec_command_accepted (decode_eq_ok_iff.1 hdecode) hc
      simp [hostTurn_of_ok hc hdecode, he]

theorem popTurn_ne_refused (r : Refusal) : popTurn s ≠ .refused r := by
  unfold popTurn
  split <;> simp

/-- A push is refused exactly when the transport does not hold the handle, with room in the free queue or without (U18). -/
theorem pushTurn_refused_iff {k : Handle} {r : Refusal} :
    pushTurn k s = .refused r ↔ r = .transportBreach ∧ k ∉ s.xheld := by
  by_cases hk : k ∈ s.xheld
  · obtain hroom | hfull := Nat.lt_or_ge s.freeq.length s.cfg.qfCap
    · simp [pushTurn_of_room hk hroom, hk]
    · simp [pushTurn_of_full hk hfull, hk]
  · simp [pushTurn, hk, eq_comm]

theorem drawTurn_ne_refused (x y : Nat) (b : Byte) (r : Refusal) : drawTurn x y b s ≠ .refused r := by
  unfold drawTurn
  split_ifs <;> simp

theorem resetTurn_refused_iff {r : Refusal} : resetTurn s = .refused r ↔ r = .resetDuringCommand ∧ s.cmd ≠ none := by
  cases hc : s.cmd <;> simp [resetTurn, hc, eq_comm]

/-- Of all parties' turns only the host's, the transport's push and RESET can be refused. -/
theorem act_refused_iff {e : Event} {r : Refusal} :
    act e s = .refused r ↔
      (r = .commandBeforeResponse ∧ s.cmd ≠ none ∧ ∃ w, e = .host w) ∨
      (r = .transportBreach ∧ ∃ h, e = .push h ∧ h ∉ s.xheld) ∨
      (r = .resetDuringCommand ∧ s.cmd ≠ none ∧ e = .reset) := by
  cases e with
  | host w => simp [act, hostTurn_refused_iff]
  | agent k => simp [act]
  | sg => simp [act, exec_phase_ne_refused]
  | pop => simp [act, popTurn_ne_refused]
  | push k => simp [act, pushTurn_refused_iff]
  | draw x y b => simp [act, drawTurn_ne_refused]
  | reset => simp [act, resetTurn_refused_iff]

theorem step_of_not_wf (hwf : s.cfg.wf = false) : step s = .refused .illFormedConfig := by
  simp [step, hwf]

/-- Settles O5: an ill-formed configuration is refused before any turn is looked at; a well-formed one leaves the refusals of the turns. -/
theorem stepRefusesExactlyBreaches : Obligations.StepRefusesExactlyBreaches := by
  intro s r
  cases hwf : s.cfg.wf with
  | false => simp [step_of_not_wf hwf, eq_comm]
  | true => simp [step_of_wf hwf, act_refused_iff]

/-! ### What fills a buffer (R188, R295) -/

/-- From `s` to `t` no buffer becomes filled but the one held by FILL at its last column. -/
def FilledOnlyByFill (s t : State) : Prop :=
  t.filled = s.filled ∨
    ∃ h, s.sgphase = .fill ∧ s.held = some h ∧ s.x + 1 = s.cfg.activeWidth ∧ t.filled = s.filled.insert h

theorem State.fillColumn_filled {tr : Triplet} (hphase : s.sgphase = .fill) (he : s.fillColumn tr = .next t) :
    FilledOnlyByFill s t := by
  obtain ⟨k, hheld, -, -, rfl⟩ := State.fillColumn_next he
  by_cases hlast : s.x + 1 = s.cfg.activeWidth
  · exact .inr ⟨k, hphase, hheld, hlast, if_pos hlast⟩
  · exact .inl (if_neg hlast)

theorem execFill_filled (hphase : s.sgphase = .fill) (he : execFill s = .next t) : FilledOnlyByFill s t := by
  obtain ⟨-, -, -, rfl⟩ | ⟨-, -, hpad⟩ | ⟨-, rfl⟩ | ⟨-, rfl⟩ | ⟨-, hcol⟩ := execFill_next he
  · exact .inl rfl
  · exact State.fillColumn_filled hphase hpad
  · exact .inl rfl
  · exact .inl rfl
  · exact State.fillColumn_filled hphase hcol

theorem execWaitfree_filled (he : execWaitfree s = .next t) : t.filled = s.filled := by
  obtain ⟨-, rfl⟩ | ⟨q, -, rfl⟩ | ⟨k, q, -, -, -, rfl⟩ | ⟨k, q, -, -, -, rfl⟩ := execWaitfree_next he <;> rfl

theorem execRetfree_filled (he : execRetfree s = .next t) : t.filled = s.filled := by
  obtain ⟨-, rfl⟩ | ⟨-, k, -, rfl⟩ := execRetfree_next he <;> rfl

theorem execEmita_filled (he : execEmita s = .next t) : t.filled = s.filled := by
  obtain ⟨-, rfl⟩ | ⟨-, ⟨-, k, -, rfl⟩ | ⟨-, -, k, -, rfl⟩ | ⟨-, -, rfl⟩⟩ := execEmita_next he <;> rfl

theorem execEmitb_filled (he : execEmitb s = .next t) : t.filled = s.filled := by
  obtain ⟨-, rfl⟩ | ⟨-, ⟨-, rfl⟩ | ⟨-, k, -, rfl⟩⟩ := execEmitb_next he <;> rfl

/-- Of the phases only FILL adds to the filled buffers. -/
theorem exec_phase_filled (he : exec s.sgphase.instr s = .next t) : FilledOnlyByFill s t := by
  cases hphase : s.sgphase <;> rw [hphase] at he
  case fill => exact execFill_filled hphase he
  case waitfree => exact .inl (execWaitfree_filled he)
  case retfree => exact .inl (execRetfree_filled he)
  case emita => exact .inl (execEmita_filled he)
  case emitb => exact .inl (execEmitb_filled he)
  case idle | poll | adv | halt => cases he; exact .inl rfl

theorem hostTurn_filled {w : Word} (he : hostTurn w s = .next t) : t.filled = s.filled := by
  obtain ⟨-, ⟨i, hdecode, hexec⟩ | ⟨r, -, rfl⟩⟩ := hostTurn_next he
  · obtain ⟨w', hi⟩ := encode_of_decode hdecode
    exact (exec_command_sameGenerator hi hexec).filled
  · exact s.refuseCommand_filled

/-- Of the turns but RESET only the sequencer's adds to the filled buffers. -/
theorem act_filled {e : Event} (he : act e s = .next t) (hr : e ≠ .reset) : FilledOnlyByFill s t := by
  cases e with
  | host w => exact .inl (hostTurn_filled he)
  | agent k => cases he; exact .inl (State.agentStep_generator s k).filled
  | sg => exact exec_phase_filled ((sgTurn_eq s).symm.trans he)
  | pop => obtain ⟨-, rfl⟩ | ⟨k, q, -, rfl⟩ := popTurn_next he <;> exact .inl rfl
  | push k => obtain ⟨-, ⟨-, rfl⟩ | ⟨-, rfl⟩⟩ := pushTurn_next he <;> exact .inl rfl
  | draw x y b =>
    obtain ⟨-, -, rfl⟩ := drawTurn_next he
    exact .inl rfl
  | reset => exact absurd rfl hr

/-! ### What the transport may not read (R273, R295) -/

theorem State.transportRead_of_unfilled {h : Handle} (n : Nat) (hne : h ≠ s.cfg.blankHandle) (hf : h ∉ s.filled) :
    s.transportRead h n = none := by
  simp [State.transportRead, hne, hf]

/-- Right after RESET the transport reads no pool buffer: none is filled, and none is the blank one. -/
theorem State.transportRead_applyReset {h : Handle} (n : Nat) (hwf : s.cfg.wf = true) (hpool : h ∈ s.cfg.pool) :
    s.applyReset.transportRead h n = none :=
  State.transportRead_of_unfilled n (Config.pool_ne_blank hwf hpool) List.not_mem_nil

/-- Settles O57: no turn but FILL's last column adds to the record (`act_filled`), RESET empties it, and a read of a pool buffer asks
it. -/
theorem unfilledBuffersAreNotRead : Obligations.UnfilledBuffersAreNotRead := by
  refine ⟨fun s t he hr => ?_, fun s t he hr => ?_, fun s h n => State.transportRead_of_unfilled n⟩
  · exact act_filled (s := s.dropEvent) (step_next he).2 hr
  · obtain ⟨hwf, hact⟩ := step_next he
    rw [hr] at hact
    obtain ⟨-, rfl⟩ := resetTurn_next hact
    exact ⟨rfl, fun h hpool n => State.transportRead_applyReset n hwf hpool⟩

end Sys2Proof.Machine
end
